-- ==== Sys2Proof/Word.lean ====
section
/-! DEFINITION. The word types of the RFC-OOK block.

Register values are unsigned integers of a stated width (00_scope.md R12); nothing is sign-extended. -/

namespace Sys2Proof

/-- A 32-bit register value (10_state.md R22, R24). -/
abbrev Word := BitVec 32

/-- A 16-bit value: a duration, a quantum, a frame count, a store record, an operation word
(00_scope.md R10, 30_encoding.md R86). -/
abbrev Half := BitVec 16

/-- A byte of a frame buffer (20_memory.md R61). -/
abbrev Byte := BitVec 8

/-- A frame: a finite sequence of bits, bit 0 first (00_scope.md R11). -/
abbrev Frame := List Bool

end Sys2Proof
end

