-- ==== Sys2Proof/Syntax.lean ====
section
/-! DEFINITION. The operations of the block: one constructor of `Instr` for each row of the opcode
table (30_encoding.md R93), with the operands the operation word carries (R94). All other operands
come from registers. -/

namespace Sys2Proof

/-- The Command enumeration, in the order of its numeric codes 0 to 7 (00_scope.md R15). -/
inductive Command where
  | off | on | groupOff | groupOn | prog | f1 | f2 | f3
deriving DecidableEq, Repr, Inhabited

/-- The nine protocols, in the order of their ids 0 to 8 (00_scope.md R2). -/
inductive Protocol where
  | otax | dio | homeeasy | idk | sumtech | auchan | auchan2 | somfy | blyss
deriving DecidableEq, Repr, Inhabited

/-- The order of an edge pattern: High run first, or Low run first (00_scope.md R17). -/
inductive Order where
  | hl | lh
deriving DecidableEq, Repr, Inhabited

/-- The frame buffer a BitWriter operation selects (30_encoding.md R90). -/
inductive BufSel where
  | buf0 | buf1
deriving DecidableEq, Repr, Inhabited

/-- One operation. `fmt*` carry CMD (30_encoding.md R88), `descRead` SEL (R89), `bw*` BUF and the
orders (R90), `rawBasetime` and `rawConvert` ACC (R91), `st*` NS (R92). Reserved VALUES of ACC and
NS are legal encodings (R97), so these stay raw fields; the reserved SEL values of `descRead` are
excluded by `Instr.wellFormed`. -/
inductive Instr where
  | fmtOtax (cmd : Command)
  | fmtDio (cmd : Command)
  | fmtHomeeasy (cmd : Command)
  | fmtIdk (cmd : Command)
  | fmtSumtech (cmd : Command)
  | fmtAuchan (cmd : Command)
  | fmtAuchan2 (cmd : Command)
  | fmtSomfy (cmd : Command)
  | fmtBlyss (cmd : Command)
  | descRead (sel : BitVec 4)
  | bwLow (buf : BufSel)
  | bwHigh (buf : BufSel)
  | bwEdge (buf : BufSel) (order : Order)
  | bwBits (buf : BufSel) (oneOrder : Order) (zeroOrder : Order)
  | rawBasetime (acc : Byte)
  | rawRender
  | rawConvert (acc : Byte)
  | stLoad (ns : BitVec 4)
  | stStore (ns : BitVec 4)
deriving DecidableEq, Repr, Inhabited

end Sys2Proof
end

