-- ==== Sys2Proof/WellFormed.lean ====
section
/-! DEFINITION. Which terms of `Instr` an operation word can encode. -/

namespace Sys2Proof

/-- The one operand that has reserved encodings inside its field: DESC.READ's SEL is at most 8
(30_encoding.md R89, R93). Every other field of `Instr` is legal at every value. -/
def Instr.wellFormed : Instr → Bool
  | .fmtOtax _ | .fmtDio _ | .fmtHomeeasy _ | .fmtIdk _ | .fmtSumtech _ => true
  | .fmtAuchan _ | .fmtAuchan2 _ | .fmtSomfy _ | .fmtBlyss _ => true
  | .descRead sel => decide (sel.toNat ≤ 8)
  | .bwLow _ | .bwHigh _ | .bwEdge _ _ | .bwBits _ _ _ => true
  | .rawBasetime _ | .rawRender | .rawConvert _ => true
  | .stLoad _ | .stStore _ => true

end Sys2Proof
end

