-- ==== Sys2Proof/Decode.lean ====
section
/-! DEFINITION. The decoder of the value written to OPW, total and rejecting by name, and the encoder
(30_encoding.md R86 to R93, R96). -/

namespace Sys2Proof

/-- Why a written value is a reserved encoding (30_encoding.md R96). -/
inductive Reserved where
  /-- OPW bits [31:16] not zero. -/
  | upperHalf
  /-- CLASS 0x0 or 0x6 to 0xF. -/
  | opClass
  /-- A SEL value the class does not assign. -/
  | sel
  /-- A reserved ARG8 bit that is not zero. -/
  | arg8
deriving DecidableEq, Repr, Inhabited

/-- What the decoder answers. -/
inductive Decoded where
  | instr (i : Instr)
  | reserved (why : Reserved)
deriving DecidableEq, Repr, Inhabited

/-- CLASS, bits [15:12] (30_encoding.md R86). -/
def opClass (w : Half) : BitVec 4 := w.extractLsb' 12 4

/-- SEL, bits [11:8] (30_encoding.md R86). -/
def opSel (w : Half) : BitVec 4 := w.extractLsb' 8 4

/-- ARG8, bits [7:0] (30_encoding.md R86). -/
def opArg8 (w : Half) : Byte := w.extractLsb' 0 8

/-- The numeric code of a command, `ord` (00_scope.md R15). -/
def Command.code : Command → Nat
  | .off => 0
  | .on => 1
  | .groupOff => 2
  | .groupOn => 3
  | .prog => 4
  | .f1 => 5
  | .f2 => 6
  | .f3 => 7

/-- The command of a 3-bit code (00_scope.md R15); all eight are legal (30_encoding.md R88). -/
def Command.ofCode (n : BitVec 3) : Command :=
  match n.toNat with
  | 0 => .off
  | 1 => .on
  | 2 => .groupOff
  | 3 => .groupOn
  | 4 => .prog
  | 5 => .f1
  | 6 => .f2
  | _ => .f3

/-- The protocol id (00_scope.md R2). -/
def Protocol.id : Protocol → Nat
  | .otax => 0
  | .dio => 1
  | .homeeasy => 2
  | .idk => 3
  | .sumtech => 4
  | .auchan => 5
  | .auchan2 => 6
  | .somfy => 7
  | .blyss => 8

/-- The protocol of a 4-bit id; 9 to 15 are reserved (30_encoding.md R88, R89, R92). -/
def Protocol.ofId (n : BitVec 4) : Option Protocol :=
  match n.toNat with
  | 0 => some .otax
  | 1 => some .dio
  | 2 => some .homeeasy
  | 3 => some .idk
  | 4 => some .sumtech
  | 5 => some .auchan
  | 6 => some .auchan2
  | 7 => some .somfy
  | 8 => some .blyss
  | _ => none

/-- The order bit: 0 HL, 1 LH (30_encoding.md R90). -/
def Order.ofBit : Bool → Order
  | false => .hl
  | true => .lh

/-- The BUF bit: 0 BUF0, 1 BUF1 (30_encoding.md R90). -/
def BufSel.ofBit : Bool → BufSel
  | false => .buf0
  | true => .buf1

/-- The FMT operation of a protocol id. -/
def Instr.fmt : Protocol → Command → Instr
  | .otax => .fmtOtax
  | .dio => .fmtDio
  | .homeeasy => .fmtHomeeasy
  | .idk => .fmtIdk
  | .sumtech => .fmtSumtech
  | .auchan => .fmtAuchan
  | .auchan2 => .fmtAuchan2
  | .somfy => .fmtSomfy
  | .blyss => .fmtBlyss

/-- `decoded ok i`: the operation `i` if its reserved ARG8 bits are zero. -/
def argChecked (ok : Bool) (i : Instr) : Decoded :=
  if ok then .instr i else .reserved .arg8

/-- Class FMT: CMD in ARG8[2:0], ARG8[7:3] reserved (30_encoding.md R88). -/
def decodeFmt (sel : BitVec 4) (arg : Byte) : Decoded :=
  match Protocol.ofId sel with
  | none => .reserved .sel
  | some p => argChecked (arg.extractLsb' 3 5 == 0) (.fmt p (Command.ofCode (arg.extractLsb' 0 3)))

/-- Class DESC: SEL a protocol id, ARG8 reserved (30_encoding.md R89). -/
def decodeDesc (sel : BitVec 4) (arg : Byte) : Decoded :=
  match Protocol.ofId sel with
  | none => .reserved .sel
  | some _ => argChecked (arg == 0) (.descRead sel)

/-- Class BW (30_encoding.md R90). -/
def decodeBw (sel : BitVec 4) (arg : Byte) : Decoded :=
  let buf := BufSel.ofBit (arg.getLsbD 7)
  match sel.toNat with
  | 0 => argChecked (arg.extractLsb' 0 7 == 0) (.bwLow buf)
  | 1 => argChecked (arg.extractLsb' 0 7 == 0) (.bwHigh buf)
  | 2 => argChecked (arg.extractLsb' 1 6 == 0) (.bwEdge buf (Order.ofBit (arg.getLsbD 0)))
  | 3 => argChecked (arg.extractLsb' 2 5 == 0)
      (.bwBits buf (Order.ofBit (arg.getLsbD 1)) (Order.ofBit (arg.getLsbD 0)))
  | _ => .reserved .sel

/-- Class RAW: ACC is the whole of ARG8 for BASETIME and CONVERT; ARG8 is reserved for RENDER
(30_encoding.md R91). -/
def decodeRaw (sel : BitVec 4) (arg : Byte) : Decoded :=
  match sel.toNat with
  | 0 => .instr (.rawBasetime arg)
  | 1 => argChecked (arg == 0) .rawRender
  | 2 => .instr (.rawConvert arg)
  | _ => .reserved .sel

/-- Class ST: NS in ARG8[3:0], ARG8[7:4] reserved (30_encoding.md R92). -/
def decodeSt (sel : BitVec 4) (arg : Byte) : Decoded :=
  match sel.toNat with
  | 0 => argChecked (arg.extractLsb' 4 4 == 0) (.stLoad (arg.extractLsb' 0 4))
  | 1 => argChecked (arg.extractLsb' 4 4 == 0) (.stStore (arg.extractLsb' 0 4))
  | _ => .reserved .sel

/-- The operation a 16-bit operation word encodes, by CLASS (30_encoding.md R87). -/
def decodeWord (w : Half) : Decoded :=
  match (opClass w).toNat with
  | 1 => decodeFmt (opSel w) (opArg8 w)
  | 2 => decodeDesc (opSel w) (opArg8 w)
  | 3 => decodeBw (opSel w) (opArg8 w)
  | 4 => decodeRaw (opSel w) (opArg8 w)
  | 5 => decodeSt (opSel w) (opArg8 w)
  | _ => .reserved .opClass

/-- The operation a value written to OPW encodes: bits [31:16] must be zero (10_state.md R25). -/
def decode (v : Word) : Decoded :=
  if v.extractLsb' 16 16 == 0 then decodeWord (v.extractLsb' 0 16) else .reserved .upperHalf

/-- The operation the decoder reads from an opcode-table word (30_encoding.md R93): `w` is the 16-bit
operation word, bits above `nbits` zero. -/
def decodeTableWord (nbits w : Nat) : Option Instr :=
  match decode (BitVec.ofNat 32 (w % 2 ^ nbits)) with
  | .instr i => some i
  | .reserved _ => none

/-! ### The encoder -/

/-- The order bit of an order (30_encoding.md R90). -/
def Order.bit : Order → Nat
  | .hl => 0
  | .lh => 1

/-- The BUF bit, in place at ARG8[7] (30_encoding.md R90). -/
def BufSel.bits : BufSel → Nat
  | .buf0 => 0
  | .buf1 => 0x80

/-- The word of a FMT operation: match value 0x1p00, CMD in [2:0] (30_encoding.md R93). -/
def encodeFmt (p : Protocol) (c : Command) : Half :=
  BitVec.ofNat 16 (0x1000 + 0x100 * p.id + c.code)

/-- The operation word of an instruction: the match value of its row plus its fields
(30_encoding.md R93). -/
def encode : Instr → Half
  | .fmtOtax c => encodeFmt .otax c
  | .fmtDio c => encodeFmt .dio c
  | .fmtHomeeasy c => encodeFmt .homeeasy c
  | .fmtIdk c => encodeFmt .idk c
  | .fmtSumtech c => encodeFmt .sumtech c
  | .fmtAuchan c => encodeFmt .auchan c
  | .fmtAuchan2 c => encodeFmt .auchan2 c
  | .fmtSomfy c => encodeFmt .somfy c
  | .fmtBlyss c => encodeFmt .blyss c
  | .descRead sel => BitVec.ofNat 16 (0x2000 + 0x100 * sel.toNat)
  | .bwLow b => BitVec.ofNat 16 (0x3000 + b.bits)
  | .bwHigh b => BitVec.ofNat 16 (0x3100 + b.bits)
  | .bwEdge b o => BitVec.ofNat 16 (0x3200 + b.bits + o.bit)
  | .bwBits b oo zo => BitVec.ofNat 16 (0x3300 + b.bits + 2 * oo.bit + zo.bit)
  | .rawBasetime acc => BitVec.ofNat 16 (0x4000 + acc.toNat)
  | .rawRender => 0x4100
  | .rawConvert acc => BitVec.ofNat 16 (0x4200 + acc.toNat)
  | .stLoad ns => BitVec.ofNat 16 (0x5000 + ns.toNat)
  | .stStore ns => BitVec.ofNat 16 (0x5100 + ns.toNat)

/-- One row of the opcode table: a word selects the operation when `(word AND mask) = match`
(30_encoding.md R93). -/
structure OpcodeRow where
  pattern : Half
  mask : Half
deriving DecidableEq, Repr

/-- The opcode-table row of an instruction, match and mask as 30_encoding.md R93 prints them. -/
def Instr.row : Instr → OpcodeRow
  | .fmtOtax _ => ⟨0x1000, 0xFFF8⟩
  | .fmtDio _ => ⟨0x1100, 0xFFF8⟩
  | .fmtHomeeasy _ => ⟨0x1200, 0xFFF8⟩
  | .fmtIdk _ => ⟨0x1300, 0xFFF8⟩
  | .fmtSumtech _ => ⟨0x1400, 0xFFF8⟩
  | .fmtAuchan _ => ⟨0x1500, 0xFFF8⟩
  | .fmtAuchan2 _ => ⟨0x1600, 0xFFF8⟩
  | .fmtSomfy _ => ⟨0x1700, 0xFFF8⟩
  | .fmtBlyss _ => ⟨0x1800, 0xFFF8⟩
  | .descRead _ => ⟨0x2000, 0xF0FF⟩
  | .bwLow _ => ⟨0x3000, 0xFF7F⟩
  | .bwHigh _ => ⟨0x3100, 0xFF7F⟩
  | .bwEdge _ _ => ⟨0x3200, 0xFF7E⟩
  | .bwBits _ _ _ => ⟨0x3300, 0xFF7C⟩
  | .rawBasetime _ => ⟨0x4000, 0xFF00⟩
  | .rawRender => ⟨0x4100, 0xFFFF⟩
  | .rawConvert _ => ⟨0x4200, 0xFF00⟩
  | .stLoad _ => ⟨0x5000, 0xFFF0⟩
  | .stStore _ => ⟨0x5100, 0xFFF0⟩

end Sys2Proof
end

