-- ==== Sys2Proof/Config.lean ====
section
/-! DEFINITION. The implementation parameters of 00_scope.md R8 and the free values.

`Config` is the record of parameters a model takes as arguments; a machine state carries it
unchanged (log 2), so a statement about every state is a statement about every parameter set.
An OPEN parameter has no value in the spec: its default is an `opaque` constant without a body
(log 3). The defaults the spec supplies are written out (log 4). -/

namespace Sys2Proof

/-- Eight durations in the field order of 10_state.md R29: start H/L, end H/L, bit-0 H/L, bit-1 H/L. -/
structure Durations where
  startH : Half
  startL : Half
  endH : Half
  endL : Half
  bit0H : Half
  bit0L : Half
  bit1H : Half
  bit1L : Half
deriving DecidableEq, Repr, Inhabited

/-- A 1-bit command field: `SUMTECH_CMD`, `AUCHAN_CMD` (00_scope.md R8). -/
structure CommandCodes1 where
  off : Bool
  on : Bool
deriving DecidableEq, Repr

/-- A 2-bit command field: `DIO_CMD`, `AUCHAN2_CMD` (00_scope.md R8). -/
structure CommandCodes2 where
  off : BitVec 2
  on : BitVec 2
  groupOff : BitVec 2
  groupOn : BitVec 2
deriving DecidableEq, Repr

/-- One value of `HE_PAYLOAD`: the payload of a remote, a device and a command (42_codecs_fixed.md R156). -/
structure HePayloadRow where
  remote : Word
  device : Word
  cmd : Command
  payload : Word
deriving DecidableEq, Repr

/-- An OPEN `TIMING_P`: its format is HIGH_LOW or LOW_HIGH, never RAW (41_codec_common.md R137). -/
structure CodecTiming where
  order : Order
  durations : Durations
  frameCount : Half
deriving DecidableEq, Repr, Inhabited

/-- The implementation parameters (00_scope.md R8; the rows that 92_eei_decisions.md lists as OPEN or
as remaining model arguments). -/
structure Config where
  /-- `BUF_BYTES`, legal range 1..8192. -/
  bufBytes : Nat
  /-- `SOMFY_N`, Somfy frames written per format operation. -/
  somfyN : Nat
  /-- `ACCURACY_DEFAULT`, used by the host pseudo-instruction `prep` only. -/
  accuracyDefault : Byte
  /-- `OTAX_CODE[ON]`. -/
  otaxOn : BitVec 4
  /-- `OTAX_CODE[OFF]`. -/
  otaxOff : BitVec 4
  /-- `OTAX_CODE[GROUP_OFF]`. -/
  otaxGroupOff : BitVec 4
  /-- `OTAX_CODE[GROUP_ON]`. -/
  otaxGroupOn : BitVec 4
  /-- `DIO_CMD`. -/
  dioCmd : CommandCodes2
  /-- `DIO_MANCHESTER` as a polarity: `false` is 0 -> (0,1), 1 -> (1,0); `true` the inverse (log 22). -/
  dioInverted : Bool
  /-- `TIMING_DIO`: its format, HIGH_LOW or LOW_HIGH, and its eight durations (log 29). -/
  dioOrder : Order
  dioDurations : Durations
  /-- `FRAME_COUNT_DIO`. -/
  frameCountDio : Half
  /-- `HE_TB_FX[0..15]`, 7-bit entries. -/
  heTbFx : Vector (BitVec 7) 16
  /-- `HE_PAYLOAD`, at the places the parameter set gives a value (log 3). -/
  hePayloadTable : List HePayloadRow
  /-- `HE_REMOTE_MAX`. -/
  heRemoteMax : Word
  /-- `HE_DEVICE_MAX`. -/
  heDeviceMax : Word
  /-- `SUMTECH_CMD`. -/
  sumtechCmd : CommandCodes1
  /-- `AUCHAN_CMD`. -/
  auchanCmd : CommandCodes1
  /-- `AUCHAN2_CMD`. -/
  auchan2Cmd : CommandCodes2
  /-- `SOMFY_CODE[OFF]`. -/
  somfyOff : BitVec 4
  /-- `SOMFY_CODE[ON]`. -/
  somfyOn : BitVec 4
  /-- `SOMFY_CODE[PROG]`. -/
  somfyProg : BitVec 4
  /-- `SOMFY_CODE[F1]`. -/
  somfyF1 : BitVec 4
  /-- `SOMFY_BASE_TIME`. -/
  somfyBaseTime : Half
  /-- `SOMFY_LONG_H`, `SOMFY_LONG_L`: ticks of the long sync burst. -/
  somfyLongH : Nat
  somfyLongL : Nat
  /-- `SOMFY_SHORT_H`, `SOMFY_SHORT_L`: ticks of one short sync burst. -/
  somfyShortH : Nat
  somfyShortL : Nat
  /-- `SOMFY_SW_H`, `SOMFY_SW_L`: ticks of the burst before the data. -/
  somfySwH : Nat
  somfySwL : Nat
  /-- `SOMFY_GAP`: ticks of the trailing low gap. -/
  somfyGap : Nat
  /-- `SOMFY_FRAME_COUNT`. -/
  somfyFrameCount : Half
  /-- `BLYSS_FRAME_TYPE`. -/
  blyssFrameType : Byte
  /-- `BLYSS_RC[0..4]`. -/
  blyssRc : Vector Byte 5
  /-- `BLYSS_CODE[OFF]`. -/
  blyssOff : BitVec 4
  /-- `BLYSS_CODE[ON]`. -/
  blyssOn : BitVec 4
  /-- `BLYSS_CODE[GROUP_OFF]`. -/
  blyssGroupOff : BitVec 4
  /-- `BLYSS_CODE[GROUP_ON]`. -/
  blyssGroupOn : BitVec 4
  /-- `TIMING_OTAX`, `TIMING_HOMEEASY`, `TIMING_IDK`, `TIMING_SUMTECH`, `TIMING_AUCHAN`,
  `TIMING_AUCHAN2`, `TIMING_BLYSS`. -/
  timingOtax : CodecTiming
  timingHomeeasy : CodecTiming
  timingIdk : CodecTiming
  timingSumtech : CodecTiming
  timingAuchan : CodecTiming
  timingAuchan2 : CodecTiming
  timingBlyss : CodecTiming
  /-- `STORE_SHARED` (20_memory.md R76). -/
  storeShared : Bool
  /-- `RFC_BASE`: where the register map sits in the host's address space (20_memory.md R69). -/
  rfcBase : Nat
deriving DecidableEq, Repr

/-! ### Free values: constants without a body -/

opaque Config.openOtaxOff : BitVec 4
opaque Config.openOtaxGroupOff : BitVec 4
opaque Config.openOtaxGroupOn : BitVec 4
opaque Config.openFrameCountDio : Half
opaque Config.openHeTbFx : Vector (BitVec 7) 16
opaque Config.openHeRemoteMax : Word
opaque Config.openHeDeviceMax : Word
opaque Config.openSomfyOff : BitVec 4
opaque Config.openSomfyOn : BitVec 4
opaque Config.openSomfyProg : BitVec 4
opaque Config.openSomfyF1 : BitVec 4
opaque Config.openBlyssOff : BitVec 4
opaque Config.openBlyssOn : BitVec 4
opaque Config.openBlyssGroupOff : BitVec 4
opaque Config.openBlyssGroupOn : BitVec 4
opaque Config.openTimingOtax : CodecTiming
opaque Config.openTimingHomeeasy : CodecTiming
opaque Config.openTimingIdk : CodecTiming
opaque Config.openTimingSumtech : CodecTiming
opaque Config.openTimingAuchan : CodecTiming
opaque Config.openTimingAuchan2 : CodecTiming
opaque Config.openTimingBlyss : CodecTiming
opaque Config.openRfcBase : Nat

/-- `HE_PAYLOAD(r, d, c)` where the parameter set gives no value (42_codecs_fixed.md R156; log 3). -/
opaque Config.openHePayload : Word → Word → Command → Word

/-- The success flag the medium draws for the n-th store access that no lined-up answer covers
(10_state.md R39: "a free draw, under no law"; log 5). -/
opaque Config.storeOk : Nat → Bool

/-- The arbitrary value behind the n-th host read of ⊥ (10_state.md R42; log 6). -/
opaque Config.freeWord : Nat → Word

/-! ### The defaults -/

/-- The parameters with the defaults of 00_scope.md R8; every OPEN one is a constant without a body. -/
def Config.standard : Config where
  bufBytes := 512
  somfyN := 10
  accuracyDefault := 90
  otaxOn := 0x4
  otaxOff := Config.openOtaxOff
  otaxGroupOff := Config.openOtaxGroupOff
  otaxGroupOn := Config.openOtaxGroupOn
  dioCmd := ⟨0, 1, 2, 3⟩
  dioInverted := false
  dioOrder := .hl
  dioDurations := ⟨260, 2680, 260, 9000, 260, 260, 260, 1300⟩
  frameCountDio := Config.openFrameCountDio
  heTbFx := Config.openHeTbFx
  hePayloadTable := []
  heRemoteMax := Config.openHeRemoteMax
  heDeviceMax := Config.openHeDeviceMax
  sumtechCmd := ⟨false, true⟩
  auchanCmd := ⟨false, true⟩
  auchan2Cmd := ⟨0, 1, 2, 3⟩
  somfyOff := Config.openSomfyOff
  somfyOn := Config.openSomfyOn
  somfyProg := Config.openSomfyProg
  somfyF1 := Config.openSomfyF1
  somfyBaseTime := 604
  somfyLongH := 16
  somfyLongL := 12
  somfyShortH := 4
  somfyShortL := 4
  somfySwH := 7
  somfySwL := 1
  somfyGap := 49
  somfyFrameCount := 1
  blyssFrameType := 0xFE
  blyssRc := #v[0x98, 0xDA, 0x1E, 0xE6, 0x67]
  blyssOff := Config.openBlyssOff
  blyssOn := Config.openBlyssOn
  blyssGroupOff := Config.openBlyssGroupOff
  blyssGroupOn := Config.openBlyssGroupOn
  timingOtax := Config.openTimingOtax
  timingHomeeasy := Config.openTimingHomeeasy
  timingIdk := Config.openTimingIdk
  timingSumtech := Config.openTimingSumtech
  timingAuchan := Config.openTimingAuchan
  timingAuchan2 := Config.openTimingAuchan2
  timingBlyss := Config.openTimingBlyss
  storeShared := false
  rfcBase := Config.openRfcBase

/-! ### The configuration check -/

/-- The length of the first Somfy frame (43_codecs_rolling.md R185: LONG, 2 SHORT, SW, 112, GAP). -/
def Config.somfyFirstLen (c : Config) : Nat :=
  c.somfyLongH + c.somfyLongL + 2 * (c.somfyShortH + c.somfyShortL)
    + c.somfySwH + c.somfySwL + 112 + c.somfyGap

/-- The length of a repeat frame (43_codecs_rolling.md R185: 7 SHORT, SW, 112, GAP). -/
def Config.somfyRepeatLen (c : Config) : Nat :=
  7 * (c.somfyShortH + c.somfyShortL) + c.somfySwH + c.somfySwL + 112 + c.somfyGap

/-- The model's configuration check: the range of BUF_BYTES (00_scope.md R8), the two Somfy equations
(R9), and at least one Somfy frame whose burst fits the 16-bit bit_count (R10 (b), 41_codec_common.md
R127; log 15). -/
def Config.wf (c : Config) : Bool :=
  decide (1 ≤ c.bufBytes) && decide (c.bufBytes ≤ 8192)
    && decide (c.somfyFirstLen = 213) && decide (c.somfyRepeatLen = 225)
    && decide (1 ≤ c.somfyN) && decide (213 + 225 * (c.somfyN - 1) ≤ 65535)

end Sys2Proof
end

