-- ==== Sys2Proof/Machine/State.lean ====
section
/-! DEFINITION. The state of the block as plain data (10_state.md), the inputs of its host and its
environment, the reasons a step of the MODEL stops, and the state right after reset
(70_reset_and_hazards.md R271).

`none` in a register or in a buffer bit is the spec's ⊥, "unwritten" (00_scope.md R13; log 8). -/

namespace Sys2Proof.Machine

/-- The six STATUS codes (10_state.md R26). Codes 6 and 7 are never written, so they are no values
here (log 17). -/
inductive Status where
  | ok | unsupportedCommand | bufferTooSmall | storeUnavailable | timingUnsupported | illegalOperation
deriving DecidableEq, Repr, Inhabited

/-- The two reasons the FAULT register can record (10_state.md R27, 60_exceptions.md R246). -/
inductive FaultReason where
  | unwrittenRead | outOfBounds
deriving DecidableEq, Repr, Inhabited

/-- A TimingConfig register set: TCFG or RTCFG (10_state.md R30, R31). START, END, BIT0 and BIT1 hold
the High duration in [31:16] and the Low duration in [15:0]. -/
structure TimingRegs where
  fmt : Option (BitVec 2)
  start : Option Word
  stop : Option Word
  bit0 : Option Word
  bit1 : Option Word
  base : Option Half
  fcount : Option Half
deriving DecidableEq, Repr, Inhabited

/-- A frame buffer: (bit index, bit) pairs, indices strictly rising; an unlisted bit is ⊥
(10_state.md R35; log 18). -/
abbrev Memory := List (Nat × Bool)

/-- A replay-store key (10_state.md R36, 45_replay_store.md R230). -/
structure StoreKey where
  ns : Protocol
  remote : Word
  device : Word
deriving DecidableEq, Repr, Inhabited

/-- The replay store: (key, record) pairs in strictly rising key order; an unlisted key has no record
(10_state.md R36). -/
abbrev ReplayStore := List (StoreKey × Half)

/-- The two stateful codecs (41_codec_common.md R136). -/
inductive Rolling where
  | somfy | blyss
deriving DecidableEq, Repr, Inhabited

/-- A FMT.SOMFY or FMT.BLYSS between its store read and its store write: the operands, the command and
the value read (20_memory.md R76; log 11). -/
structure FmtJob where
  codec : Rolling
  cmd : Command
  remote : Word
  device : Word
  value : Half
deriving DecidableEq, Repr, Inhabited

/-- The width of a host access (20_memory.md R65). -/
inductive AccessWidth where
  | byte | half | word
deriving DecidableEq, Repr, Inhabited

/-- One input to the block: of the host (a bus access by register-map offset, RESET) or of the
environment (another writer of a shared medium, erasing the medium); logs 1, 10, 11, 13. -/
inductive Input where
  /-- A host write (10_state.md R40); at OPW it starts an operation (R25). A byte access uses the low
  8 bits of `value`. -/
  | write (width : AccessWidth) (offset : Nat) (value : Word)
  /-- A host read (10_state.md R40, R42). -/
  | read (width : AccessWidth) (offset : Nat)
  /-- RESET (70_reset_and_hazards.md R271). -/
  | reset
  /-- Another writer stores a record on a shared medium (20_memory.md R76). -/
  | otherWrite (key : StoreKey) (value : Half)
  /-- The medium is erased outside the block (45_replay_store.md R234, 70_reset_and_hazards.md R272). -/
  | eraseMedium
  /-- Nobody acts: the block is idle (60_exceptions.md R258). -/
  | idle
deriving DecidableEq, Repr, Inhabited

/-- Why the model stops with a fault. No operation raises one: the block's own faults are written to
its FAULT register and the machine goes on (60_exceptions.md R246; log 7). -/
inductive Fault where
  /-- Raised by `step` on an `otherWrite` input while STORE_SHARED is false: the environment breaks the
  assumption of 20_memory.md R72 and R76 (log 12). Safe: the model stops where the spec excludes the
  input. -/
  | mediumNotShared
deriving DecidableEq, Repr, Inhabited

/-- Why the model refuses a step. No operation's meaning raises one. -/
inductive Refusal where
  /-- Raised by `exec` for an instruction without a meaning yet; no arm raises it. Safe. -/
  | notModelled (mnemonic : String)
  /-- Raised by a host access whose shape is no part of the interface: "a model refuses it"
  (20_memory.md R65; log 10). Safe. -/
  | accessShape
  /-- Raised by `step` when the parameter set fails the model's configuration check (00_scope.md R9,
  93_implementation_defined.md U23; log 15). Safe. -/
  | badConfiguration
deriving DecidableEq, Repr, Inhabited

/-- The whole machine. The last six fields are not registers of the block: the parameters, the split
FMT of a shared medium, and the model's record of its host and environment (logs 1, 2, 5, 11, 14). -/
structure State where
  /-- OPW, 16 bits wide: bits [15:0] of the last value written; [31:16] of its slot are reserved and not held
  (10_state.md R25; log 9). -/
  opw : Half
  /-- A0 to A6 (10_state.md R22). -/
  a0 : Option Word
  a1 : Option Word
  a2 : Option Word
  a3 : Option Word
  a4 : Option Word
  a5 : Option Word
  a6 : Option Word
  /-- STATUS (10_state.md R26). -/
  status : Status
  /-- FAULT: `none` is 0, `some r` is FLT with REASON r (10_state.md R27). -/
  fault : Option FaultReason
  /-- BITCNT[15:0]; [31:16] is hard-wired to 0 (10_state.md R32). -/
  bitcnt : Half
  /-- RES0, RES1, RES2 (10_state.md R24). -/
  res0 : Word
  res1 : Word
  res2 : Word
  /-- TCFG (10_state.md R30). -/
  tcfg : TimingRegs
  /-- RTCFG (10_state.md R31). -/
  rtcfg : TimingRegs
  /-- BUF0 and BUF1 (10_state.md R35). -/
  buf0 : Memory
  buf1 : Memory
  /-- The replay store (10_state.md R36). -/
  store : ReplayStore
  /-- The implementation parameters, never written (00_scope.md R8). -/
  cfg : Config
  /-- A FMT between its store read and its store write (20_memory.md R76). -/
  pending : Option FmtJob
  /-- The inputs not yet acted on, first next (10_state.md R21, R23). -/
  inbox : List Input
  /-- The success flags the medium has lined up for the next store accesses (10_state.md R39). -/
  answers : List Bool
  /-- How many free draws were made. -/
  draws : Nat
  /-- The value the last host read returned. -/
  hostData : Option Word
deriving DecidableEq, Repr

/-- Every register of a TimingConfig register set ⊥ (70_reset_and_hazards.md R271). -/
def TimingRegs.unwritten : TimingRegs where
  fmt := none
  start := none
  stop := none
  bit0 := none
  bit1 := none
  base := none
  fcount := none

/-- The machine right after reset, on a fresh medium, with nothing asked of it yet
(70_reset_and_hazards.md R271, R272; log 1). -/
def State.reset : State where
  opw := 0
  a0 := none
  a1 := none
  a2 := none
  a3 := none
  a4 := none
  a5 := none
  a6 := none
  status := .ok
  fault := none
  bitcnt := 0
  res0 := 0
  res1 := 0
  res2 := 0
  tcfg := TimingRegs.unwritten
  rtcfg := TimingRegs.unwritten
  buf0 := []
  buf1 := []
  store := []
  cfg := Config.standard
  pending := none
  inbox := []
  answers := []
  draws := 0
  hostData := none

end Sys2Proof.Machine
end

