-- ==== Sys2Proof/Machine/Bits.lean ====
section
/-! DEFINITION. Bit sequences (00_scope.md R11) and the sequence functions every unit uses
(40_bitwriter.md R113). -/

namespace Sys2Proof.Machine

/-- `seq_N(v)`: the low N bits of `v`, most significant first (00_scope.md R11). -/
def seqBits : Nat → Nat → Frame
  | 0, _ => []
  | n + 1, v => v.testBit n :: seqBits n v

/-- The value of a bit sequence read most significant bit first (20_memory.md R61). -/
def bitsValue (f : Frame) : Nat := f.foldl (fun acc b => 2 * acc + b.toNat) 0

/-- `ones(n)`, the bits of write_high (40_bitwriter.md R113). -/
def highRun (n : Nat) : Frame := List.replicate n true

/-- `zeros(n)`, the bits of write_low (40_bitwriter.md R113). -/
def lowRun (n : Nat) : Frame := List.replicate n false

/-- `edge(o, h, l)`: the reverse order swaps the runs and keeps each run's own length
(40_bitwriter.md R113). -/
def edge : Order → Nat → Nat → Frame
  | .hl, h, l => highRun h ++ lowRun l
  | .lh, h, l => lowRun l ++ highRun h

/-- Each bit of `f` as its edge pattern: the zero pattern or the one pattern (40_bitwriter.md R113,
44_raw_engine.md R209). -/
def edges (f : Frame) (zo : Order) (zh zl : Nat) (oo : Order) (oh ol : Nat) : Frame :=
  f.flatMap fun b => if b then edge oo oh ol else edge zo zh zl

/-- `bits(data, len, ...)`: the low `len` bits of `data`, most significant first, each as its edge
pattern (40_bitwriter.md R113). -/
def dataEdges (data : Word) (len : Nat) (zo : Order) (zh zl : Nat) (oo : Order) (oh ol : Nat) : Frame :=
  edges (seqBits len data.toNat) zo zh zl oo oh ol

/-- The number of bits `edges` emits (40_bitwriter.md R117, 44_raw_engine.md R208). -/
def edgesLength (f : Frame) (zh zl oh ol : Nat) : Nat :=
  f.count true * (oh + ol) + (f.length - f.count true) * (zh + zl)

/-- The bits of a byte, bit 7 first. -/
def byteBits (b : Byte) : Frame := seqBits 8 b.toNat

end Sys2Proof.Machine
end

