-- ==== Sys2Proof/Machine/Ops.lean ====
section
/-! DEFINITION. The named operations over the state: buffer bits, the replay store, the medium's
answers, the two ways an operation ends (`complete` and the fault entry `raiseFault`), and RESET, the
only way out of the fault state. -/

namespace Sys2Proof.Machine

/-! ### Buffer bits -/

/-- `buf.bit[k]`; an unlisted bit is ⊥ (00_scope.md R13). -/
def Memory.read : Memory → Nat → Option Bool
  | [], _ => none
  | (i, b) :: rest, k => if i = k then some b else Memory.read rest k

/-- `MemRead(buf, k, n)`: bits k .. k+n-1, none if one of them is ⊥ (00_scope.md R13, R14). -/
def Memory.readRun (m : Memory) : Nat → Nat → Option Frame
  | _, 0 => some []
  | k, n + 1 =>
    match Memory.read m k with
    | none => none
    | some b =>
      match Memory.readRun m (k + 1) n with
      | none => none
      | some rest => some (b :: rest)

/-- The cells of a run of bits that starts at index `k`. -/
def runCells : Nat → Frame → Memory
  | _, [] => []
  | k, b :: rest => (k, b) :: runCells (k + 1) rest

/-- `MemWrite(buf, k, f)`: bits k .. k+|f|-1 take the values of `f`, whatever they held, and every other
bit is unchanged (00_scope.md R13, 40_bitwriter.md R111). -/
def Memory.write (m : Memory) (k : Nat) (f : Frame) : Memory :=
  m.filter (fun c => decide (c.1 < k)) ++ runCells k f
    ++ m.filter (fun c => decide (k + f.length ≤ c.1))

/-- The canonical form: bit indices strictly rising. A listed bit is 0 or 1, so no entry equals the ⊥ an
unlisted bit reads as. -/
def Memory.sorted : Memory → Bool
  | [] => true
  | [_] => true
  | a :: b :: rest => decide (a.1 < b.1) && Memory.sorted (b :: rest)

/-- A buffer of `bytes` bytes in canonical form, listing no bit outside it (10_state.md R35). -/
def Memory.wf (bytes : Nat) (m : Memory) : Bool :=
  Memory.sorted m && m.all (fun c => decide (c.1 < 8 * bytes))

/-- The buffer a BitWriter operation selects (40_bitwriter.md R111). -/
def State.buffer (s : State) : BufSel → Memory
  | .buf0 => s.buf0
  | .buf1 => s.buf1

/-- `s` with the selected buffer replaced. -/
def State.withBuffer (s : State) (b : BufSel) (m : Memory) : State :=
  match b with
  | .buf0 => { s with buf0 := m }
  | .buf1 => { s with buf1 := m }

/-- A host byte write sets all 8 bits of byte `j` (10_state.md R42, 20_memory.md R61). -/
def Memory.writeByte (m : Memory) (j : Nat) (v : Byte) : Memory :=
  Memory.write m (8 * j) (byteBits v)

/-- A host byte read of byte `j`: frame bit 8j+i is bit 7-i (20_memory.md R61), and a ⊥ bit reads as the
matching bit of the arbitrary value `free` (10_state.md R42). -/
def Memory.readByte (m : Memory) (j : Nat) (free : Byte) : Byte :=
  BitVec.ofNat 8 (bitsValue ((List.range 8).map fun i =>
    (Memory.read m (8 * j + i)).getD (free.getLsbD (7 - i))))

/-! ### The replay store -/

/-- Where a key stands in the store's order: the protocol id, then the remote, then the device. Equal
exactly when all three components are equal (45_replay_store.md R230). -/
def StoreKey.rank (k : StoreKey) : Nat :=
  (k.ns.id * 2 ^ 32 + k.remote.toNat) * 2 ^ 32 + k.device.toNat

/-- The record of a key, if there is one. -/
def ReplayStore.find : ReplayStore → StoreKey → Option Half
  | [], _ => none
  | (k, v) :: rest, key => if k = key then some v else ReplayStore.find rest key

/-- `store[key] <- v`, which creates the record if it is absent and changes no other (45_replay_store.md
R227, R232). -/
def ReplayStore.insert (m : ReplayStore) (key : StoreKey) (v : Half) : ReplayStore :=
  m.filter (fun c => decide (c.1.rank < key.rank)) ++ (key, v)
    :: m.filter (fun c => decide (key.rank < c.1.rank))

/-- What a successful read leaves: an absent record is created with 0 (45_replay_store.md R226). -/
def ReplayStore.touch (m : ReplayStore) (key : StoreKey) : ReplayStore :=
  match ReplayStore.find m key with
  | none => ReplayStore.insert m key 0
  | some _ => m

/-- The canonical form: keys strictly rising, so that equal stores are equal lists. -/
def ReplayStore.wf : ReplayStore → Bool
  | [] => true
  | [_] => true
  | a :: b :: rest => decide (a.1.rank < b.1.rank) && ReplayStore.wf (b :: rest)

/-- `draw()`: the medium's answer to the next store access: the next lined-up flag, or else a free draw
(10_state.md R39; log 5). -/
def State.nextAnswer (s : State) : Bool :=
  match s.answers with
  | [] => Config.storeOk s.draws
  | b :: _ => b

/-- The state once that answer was taken. -/
def State.takeAnswer (s : State) : State :=
  match s.answers with
  | [] => { s with draws := s.draws + 1 }
  | _ :: rest => { s with answers := rest }

/-- The value `StoreRead(key)` answers, none if the access fails; an absent record reads as 0
(45_replay_store.md R226). -/
def State.storeReadValue (s : State) (key : StoreKey) : Option Half :=
  if s.nextAnswer then some ((ReplayStore.find s.store key).getD 0) else none

/-- The state after `StoreRead(key)`: a successful read creates an absent record with 0, a failed one
changes no record (45_replay_store.md R226). -/
def State.afterStoreRead (s : State) (key : StoreKey) : State :=
  if s.nextAnswer then { s.takeAnswer with store := ReplayStore.touch s.store key } else s.takeAnswer

/-- The state after `StoreWrite(key, v)`: the record is `v` if the access succeeds, and unchanged
otherwise (45_replay_store.md R227). Whether it succeeds is `nextAnswer`. -/
def State.afterStoreWrite (s : State) (key : StoreKey) (v : Half) : State :=
  if s.nextAnswer then { s.takeAnswer with store := ReplayStore.insert s.store key v } else s.takeAnswer

/-! ### How an operation ends -/

/-- `complete(c)`: the operation ends with status `c` (00_scope.md R14). Applied to the state before the
operation for an error, since an error writes nothing but STATUS (60_exceptions.md R245). -/
def complete (c : Status) (s : State) : State := { s with status := c }

/-- FAULT ENTRY, `raise FAULT(reason)` (60_exceptions.md R246): FAULT takes the reason, and nothing else
is written. Applied to the state before the operation: the fault is precise. -/
def raiseFault (r : FaultReason) (s : State) : State := { s with fault := some r }

/-- FAULT EXIT: there is no return operation (60_exceptions.md R248); RESET alone clears FAULT. It sets
every piece of block state to its reset value as one step and leaves the replay store and the parameters
(70_reset_and_hazards.md R271, R272). What belongs to the host and the environment stays (log 24). -/
def resetBlock (s : State) : State :=
  { State.reset with
    store := s.store
    cfg := s.cfg
    inbox := s.inbox
    answers := s.answers
    draws := s.draws
    hostData := s.hostData }

/-- The block has faulted and is quiescent until RESET (60_exceptions.md R247). -/
def State.faulted (s : State) : Bool := s.fault.isSome

end Sys2Proof.Machine
end

