-- ==== Sys2Proof/Machine/Operands.lean ====
section
/-! DEFINITION. Operand forms: which registers an operation reads, in the order of 30_encoding.md R95,
each none as soon as one of them holds ⊥ (00_scope.md R14), and the accessors of the TimingConfig
registers (10_state.md R29, R30). -/

namespace Sys2Proof.Machine

/-- Reads operands before anything but the encoding check: a ⊥ raises FAULT(UNWRITTEN_READ)
(00_scope.md R14, 60_exceptions.md R243). -/
def withOperands {α : Type} (o : Option α) (s : State) (k : α → State) : State :=
  match o with
  | none => raiseFault .unwrittenRead s
  | some x => k x

/-- A0, A1. -/
def State.operands01 (s : State) : Option (Word × Word) := do
  let x ← s.a0
  let y ← s.a1
  some (x, y)

/-- A1, A2 (FMT.IDK and RAW.CONVERT do not read A0: 41_codec_common.md R142, 44_raw_engine.md R212). -/
def State.operands12 (s : State) : Option (Word × Word) := do
  let x ← s.a1
  let y ← s.a2
  some (x, y)

/-- A0, A1, A2. -/
def State.operands012 (s : State) : Option (Word × Word × Word) := do
  let x ← s.a0
  let y ← s.a1
  let z ← s.a2
  some (x, y, z)

/-- The operands of BW.BITS, A0 to A6 (40_bitwriter.md R117). -/
structure BitsOperands where
  off : Word
  data : Word
  len : Word
  zeroH : Word
  zeroL : Word
  oneH : Word
  oneL : Word
deriving DecidableEq, Repr

/-- A0 to A6. -/
def State.operandsBits (s : State) : Option BitsOperands := do
  let off ← s.a0
  let data ← s.a1
  let len ← s.a2
  let zeroH ← s.a3
  let zeroL ← s.a4
  let oneH ← s.a5
  let oneL ← s.a6
  some { off, data, len, zeroH, zeroL, oneH, oneL }

/-! ### TimingConfig registers -/

/-- The eight durations, or the eight tick counts of a rendering, as unbounded integers (00_scope.md
R12), in the field order of 10_state.md R29. -/
structure Pulses where
  startH : Nat
  startL : Nat
  endH : Nat
  endL : Nat
  bit0H : Nat
  bit0L : Nat
  bit1H : Nat
  bit1L : Nat
deriving DecidableEq, Repr

/-- The eight numbers in order. -/
def Pulses.toList (t : Pulses) : List Nat :=
  [t.startH, t.startL, t.endH, t.endL, t.bit0H, t.bit0L, t.bit1H, t.bit1L]

/-- The same function of each of the eight numbers. -/
def Pulses.map (f : Nat → Nat) (t : Pulses) : Pulses where
  startH := f t.startH
  startL := f t.startL
  endH := f t.endH
  endL := f t.endL
  bit0H := f t.bit0H
  bit0L := f t.bit0L
  bit1H := f t.bit1H
  bit1L := f t.bit1L

/-- Bits [31:16] of START, END, BIT0 or BIT1: the High duration (10_state.md R30). -/
def highOf (w : Word) : Half := w.extractLsb' 16 16

/-- Bits [15:0] of START, END, BIT0 or BIT1: the Low duration (10_state.md R30). -/
def lowOf (w : Word) : Half := w.extractLsb' 0 16

/-- The register word of a pair of durations, `(h << 16) | l` (10_state.md R30). -/
def pairWord (h l : Half) : Word := h ++ l

/-- The durations four register words hold. -/
def pulsesOf (start stop bit0 bit1 : Word) : Pulses where
  startH := (highOf start).toNat
  startL := (lowOf start).toNat
  endH := (highOf stop).toNat
  endL := (lowOf stop).toNat
  bit0H := (highOf bit0).toNat
  bit0L := (lowOf bit0).toNat
  bit1H := (highOf bit1).toNat
  bit1L := (lowOf bit1).toNat

/-- TCFG.FMT, .START, .END, .BIT0, .BIT1 (44_raw_engine.md R204). -/
def TimingRegs.durations (t : TimingRegs) : Option (BitVec 2 × Pulses) := do
  let f ← t.fmt
  let a ← t.start
  let b ← t.stop
  let c ← t.bit0
  let d ← t.bit1
  some (f, pulsesOf a b c d)

/-- The operands of RAW.RENDER: the timing, FCOUNT, then A0, A1, A2 (44_raw_engine.md R211). -/
structure RenderOperands where
  tag : BitVec 2
  pulses : Pulses
  fcount : Half
  base : Word
  count : Word
  dataLen : Word
deriving DecidableEq, Repr

/-- TCFG.FMT, .START, .END, .BIT0, .BIT1, .FCOUNT, A0, A1, A2. -/
def State.operandsRender (s : State) : Option RenderOperands := do
  let t ← s.tcfg.durations
  let fcount ← s.tcfg.fcount
  let r ← s.operands012
  some { tag := t.1, pulses := t.2, fcount, base := r.1, count := r.2.1, dataLen := r.2.2 }

/-- The operands of RAW.CONVERT: as RAW.RENDER without A0 (44_raw_engine.md R212). -/
structure ConvertOperands where
  tag : BitVec 2
  pulses : Pulses
  fcount : Half
  count : Word
  dataLen : Word
deriving DecidableEq, Repr

/-- TCFG.FMT, .START, .END, .BIT0, .BIT1, .FCOUNT, A1, A2. -/
def State.operandsConvert (s : State) : Option ConvertOperands := do
  let t ← s.tcfg.durations
  let fcount ← s.tcfg.fcount
  let r ← s.operands12
  some { tag := t.1, pulses := t.2, fcount, count := r.1, dataLen := r.2 }

/-- The bit-format tags: HIGH_LOW 0, LOW_HIGH 1, RAW 2; 3 is reserved (00_scope.md R15). -/
def tagOfOrder : Order → BitVec 2
  | .hl => 0
  | .lh => 1

/-- The RAW tag (00_scope.md R15). -/
def rawTag : BitVec 2 := 2

/-- The order of a HIGH_LOW or LOW_HIGH tag; RAW and the reserved tag have none (44_raw_engine.md R205). -/
def orderOfTag (t : BitVec 2) : Option Order :=
  if t = 0 then some .hl else if t = 1 then some .lh else none

/-- The register set of a HIGH_LOW or LOW_HIGH TimingConfig: base_time is 0 (10_state.md R29). -/
def symbolicTiming (o : Order) (d : Durations) (frameCount : Half) : TimingRegs where
  fmt := some (tagOfOrder o)
  start := some (pairWord d.startH d.startL)
  stop := some (pairWord d.endH d.endL)
  bit0 := some (pairWord d.bit0H d.bit0L)
  bit1 := some (pairWord d.bit1H d.bit1L)
  base := some 0
  fcount := some frameCount

/-- The register set of a RAW TimingConfig: the eight durations are 0 (10_state.md R29, 44_raw_engine.md
R210). -/
def rawTiming (base frameCount : Half) : TimingRegs where
  fmt := some rawTag
  start := some 0
  stop := some 0
  bit0 := some 0
  bit1 := some 0
  base := some base
  fcount := some frameCount

end Sys2Proof.Machine
end

