-- ==== Sys2Proof/Machine/Flags.lean ====
section
/-! DEFINITION. The block has no condition flags. What its status registers read as: STATUS and FAULT
words (10_state.md R26, R27, 60_exceptions.md R241, R246), OPW, BITCNT and ID. -/

namespace Sys2Proof.Machine

/-- STATUS.CODE (10_state.md R26, 60_exceptions.md R241). -/
def Status.code : Status → BitVec 3
  | .ok => 0
  | .unsupportedCommand => 1
  | .bufferTooSmall => 2
  | .storeUnavailable => 3
  | .timingUnsupported => 4
  | .illegalOperation => 5

/-- FAULT.REASON (10_state.md R27). -/
def FaultReason.code : FaultReason → BitVec 3
  | .unwrittenRead => 1
  | .outOfBounds => 2

/-- The STATUS word: CODE in [2:0], [31:3] hard-wired to 0 (10_state.md R26). -/
def State.statusWord (s : State) : Word := s.status.code.setWidth 32

/-- The FAULT word: `(reason << 1) | 1` once faulted, else 0 (10_state.md R27, 60_exceptions.md R246). -/
def State.faultWord (s : State) : Word :=
  match s.fault with
  | none => 0
  | some r => (r.code.setWidth 32 <<< 1) ||| 1

/-- The OPW word: the operation word in [15:0] of its slot; the reserved [31:16] read as 0 (10_state.md R25;
log 9). -/
def State.opwWord (s : State) : Word := s.opw.setWidth 32

/-- The BITCNT word: [31:16] hard-wired to 0 (10_state.md R32). -/
def State.bitcntWord (s : State) : Word := s.bitcnt.setWidth 32

/-- The ID register (10_state.md R28). -/
def idWord : Word := 0x52464307

end Sys2Proof.Machine
end

