-- ==== Sys2Proof/Machine/BitWriter.lean ====
section
/-! DEFINITION. The BitWriter operations BW.LOW, BW.HIGH, BW.EDGE and BW.BITS (40_bitwriter.md R111 to
R119). -/

namespace Sys2Proof.Machine

/-- Writes `total` bits `f` at `off` of the selected buffer: FAULT(OUT_OF_BOUNDS) before any bit if they
cross the physical capacity, sums taken as unbounded integers (40_bitwriter.md R112); otherwise the bits,
RES0 = total and STATUS, and nothing else (R118). -/
def bwWrite (b : BufSel) (off total : Nat) (f : Frame) (s : State) : State :=
  if 8 * s.cfg.bufBytes < off + total then raiseFault .outOfBounds s
  else complete .ok
    { s.withBuffer b (Memory.write (s.buffer b) off f) with res0 := BitVec.ofNat 32 total }

/-- BW.LOW, a run of `n` 0 bits (40_bitwriter.md R114). -/
def bwLow (b : BufSel) (s : State) : State :=
  withOperands s.operands01 s fun o => bwWrite b o.1.toNat o.2.toNat (lowRun o.2.toNat) s

/-- BW.HIGH, a run of `n` 1 bits (40_bitwriter.md R115). -/
def bwHigh (b : BufSel) (s : State) : State :=
  withOperands s.operands01 s fun o => bwWrite b o.1.toNat o.2.toNat (highRun o.2.toNat) s

/-- BW.EDGE, one edge pattern (40_bitwriter.md R116). -/
def bwEdge (b : BufSel) (order : Order) (s : State) : State :=
  withOperands s.operands012 s fun o =>
    bwWrite b o.1.toNat (o.2.1.toNat + o.2.2.toNat) (edge order o.2.1.toNat o.2.2.toNat) s

/-- The bits BW.BITS writes for its operands (40_bitwriter.md R117). -/
def BitsOperands.frame (o : BitsOperands) (oneOrder zeroOrder : Order) : Frame :=
  dataEdges o.data o.len.toNat zeroOrder o.zeroH.toNat o.zeroL.toNat oneOrder o.oneH.toNat o.oneL.toNat

/-- How many they are: ones_in * (oh + ol) + (len - ones_in) * (zh + zl) (40_bitwriter.md R117). -/
def BitsOperands.total (o : BitsOperands) : Nat :=
  edgesLength (seqBits o.len.toNat o.data.toNat) o.zeroH.toNat o.zeroL.toNat o.oneH.toNat o.oneL.toNat

/-- BW.BITS, `bit_len` data bits as edge patterns; a bit_len above 32 is a reserved value
(40_bitwriter.md R117, 30_encoding.md R97). -/
def bwBits (b : BufSel) (oneOrder zeroOrder : Order) (s : State) : State :=
  withOperands s.operandsBits s fun o =>
    if 32 < o.len.toNat then complete .illegalOperation s
    else bwWrite b o.off.toNat o.total (o.frame oneOrder zeroOrder) s

/-- BW.LOW (40_bitwriter.md R114). -/
def execBwLow (buf : BufSel) (s : State) : Host.Outcome State Fault Refusal :=
  .next (bwLow buf s)

/-- BW.HIGH (40_bitwriter.md R115). -/
def execBwHigh (buf : BufSel) (s : State) : Host.Outcome State Fault Refusal :=
  .next (bwHigh buf s)

/-- BW.EDGE (40_bitwriter.md R116). -/
def execBwEdge (buf : BufSel) (order : Order) (s : State) : Host.Outcome State Fault Refusal :=
  .next (bwEdge buf order s)

/-- BW.BITS (40_bitwriter.md R117). -/
def execBwBits (buf : BufSel) (oneOrder zeroOrder : Order) (s : State) :
    Host.Outcome State Fault Refusal :=
  .next (bwBits buf oneOrder zeroOrder s)

end Sys2Proof.Machine
end

