-- ==== Sys2Proof/Machine/Codec.lean ====
section
/-! DEFINITION. What all codecs share: frame lengths, accepted commands, timings, the descriptor ROM, the
FMT pipeline and DESC.READ (41_codec_common.md R126 to R142). -/

namespace Sys2Proof.Machine

/-- `BITS(p)`, the frame length of a codec (41_codec_common.md R127). -/
def frameBits (c : Config) : Protocol → Nat
  | .otax => 25
  | .dio => 64
  | .homeeasy => 57
  | .idk => 25
  | .sumtech => 32
  | .auchan => 25
  | .auchan2 => 21
  | .somfy => 213 + 225 * (c.somfyN - 1)
  | .blyss => 52

/-- `ACCEPT(p)`, the commands a codec accepts (41_codec_common.md R128). -/
def accepted : Protocol → List Command
  | .otax | .dio | .auchan2 => [.off, .on, .groupOff, .groupOn]
  | .auchan | .sumtech | .homeeasy => [.off, .on]
  | .idk => [.on]
  | .somfy => [.off, .on, .prog, .f1]
  | .blyss => [.off, .on, .groupOff, .groupOn]

/-- An OPEN codec timing as a register set (41_codec_common.md R137). -/
def openTiming (t : CodecTiming) : TimingRegs := symbolicTiming t.order t.durations t.frameCount

/-- `TIMING(p)`, the TimingConfig FMT.p and DESC.READ write to TCFG (41_codec_common.md R137). -/
def timingOf (c : Config) : Protocol → TimingRegs
  | .otax => openTiming c.timingOtax
  | .dio => symbolicTiming c.dioOrder c.dioDurations c.frameCountDio
  | .homeeasy => openTiming c.timingHomeeasy
  | .idk => openTiming c.timingIdk
  | .sumtech => openTiming c.timingSumtech
  | .auchan => openTiming c.timingAuchan
  | .auchan2 => openTiming c.timingAuchan2
  | .somfy => rawTiming c.somfyBaseTime c.somfyFrameCount
  | .blyss => openTiming c.timingBlyss

/-! ### Descriptors -/

/-- `remote_code_max` (41_codec_common.md R140). -/
def remoteMax (c : Config) : Protocol → Word
  | .otax => 0x1F
  | .dio => 0x3FFFFFF
  | .homeeasy => c.heRemoteMax
  | .idk => 0
  | .sumtech => 0xFFFFFF
  | .auchan => 0xFFFFF
  | .auchan2 => 0x1FFF
  | .somfy => 0xFF
  | .blyss => 0xFFFFF

/-- `device_code_max` (41_codec_common.md R140). -/
def deviceMax (c : Config) : Protocol → Word
  | .otax => 0x1F
  | .dio => 0xF
  | .homeeasy => c.heDeviceMax
  | .idk => 0xF
  | .sumtech => 0x7F
  | .auchan => 0x7
  | .auchan2 => 0x3
  | .somfy => 0xFFFFFF
  | .blyss => 0xF

/-- The accepted mask: bit `ord(c)` set for each accepted command (41_codec_common.md R140). -/
def acceptedMask (p : Protocol) : Nat := ((accepted p).map fun c => 2 ^ c.code).sum

/-- The required mask: bit 0 remote, bit 1 device, bit 2 command; Idk takes no remote
(41_codec_common.md R140, R142). -/
def requiredMask : Protocol → Nat
  | .idk => 0b110
  | .otax | .dio | .homeeasy | .sumtech | .auchan | .auchan2 | .somfy | .blyss => 0b111

/-- RES2 of a descriptor: `BITS(p) << 16 | accepted << 8 | required` (41_codec_common.md R140). -/
def descriptorWord (c : Config) (p : Protocol) : Word :=
  BitVec.ofNat 32 (frameBits c p * 2 ^ 16 + acceptedMask p * 2 ^ 8 + requiredMask p)

/-- DESC.READ: reads no operand and cannot fault; a reserved SEL ends ILLEGAL_OPERATION
(41_codec_common.md R141). -/
def descRead (sel : BitVec 4) (s : State) : State :=
  match Protocol.ofId sel with
  | none => complete .illegalOperation s
  | some p =>
    complete .ok
      { s with
        res0 := remoteMax s.cfg p
        res1 := deviceMax s.cfg p
        res2 := descriptorWord s.cfg p
        tcfg := timingOf s.cfg p }

/-- DESC.READ (41_codec_common.md R141). -/
def execDescRead (sel : BitVec 4) (s : State) : Host.Outcome State Fault Refusal :=
  .next (descRead sel s)

/-! ### The FMT pipeline (41_codec_common.md R129) -/

/-- The checks between the operand reads and the encoder, in order: data_len beyond the buffer (R130),
data_len too small for the frame (R131), command not accepted (R132). -/
def fmtRefusal (c : Config) (p : Protocol) (cmd : Command) (dataLen : Word) : Option Status :=
  if c.bufBytes < dataLen.toNat then some .illegalOperation
  else if 8 * dataLen.toNat < frameBits c p then some .bufferTooSmall
  else if cmd ∈ accepted p then none
  else some .unsupportedCommand

/-- The frame and its length and timing, written together: BUF0 bits [0, BITS(p)), BITCNT, TCFG, STATUS
(41_codec_common.md R129, R133, R137). -/
def fmtEmit (p : Protocol) (f : Frame) (s : State) : State :=
  complete .ok
    { s with
      buf0 := Memory.write s.buf0 0 f
      bitcnt := BitVec.ofNat 16 (frameBits s.cfg p)
      tcfg := timingOf s.cfg p }

/-- The rest of the pipeline of a codec that does not use the store (41_codec_common.md R129, R135). -/
def fmtFixed (p : Protocol) (cmd : Command) (dataLen : Word) (f : Frame) (s : State) : State :=
  match fmtRefusal s.cfg p cmd dataLen with
  | some c => complete c s
  | none => fmtEmit p f s

end Sys2Proof.Machine
end

