-- ==== Sys2Proof/Machine/FixedCodecs.lean ====
section
/-! DEFINITION. The stateless codecs OTAX, DI-O, Home Easy, Idk, Sumtech, Auchan and Auchan 2
(42_codecs_fixed.md R146 to R175). An encoder uses only the low bits its field widths name
(41_codec_common.md R134). -/

namespace Sys2Proof.Machine

/-! ### OTAX -/

/-- `OTAX_CODE[c]` (42_codecs_fixed.md R148). A command outside ACCEPT(OTAX) reaches no encoder
(41_codec_common.md R132); its value here is never used. -/
def otaxCode (c : Config) : Command → BitVec 4
  | .off => c.otaxOff
  | .on => c.otaxOn
  | .groupOff => c.otaxGroupOff
  | .groupOn => c.otaxGroupOn
  | .prog | .f1 | .f2 | .f3 => 0

/-- `ENC_OTAX`: each remote bit then a 1, a 0 then each inverted device bit, the command code, a
trailing 0 (42_codecs_fixed.md R147). -/
def encOtax (c : Config) (r d : Word) (cmd : Command) : Frame :=
  (seqBits 5 r.toNat).flatMap (fun b => [b, true])
    ++ (seqBits 5 d.toNat).flatMap (fun b => [false, !b])
    ++ seqBits 4 (otaxCode c cmd).toNat ++ [false]

/-- FMT.OTAX (42_codecs_fixed.md R146). -/
def fmtOtax (cmd : Command) (s : State) : State :=
  withOperands s.operands012 s fun o => fmtFixed .otax cmd o.2.2 (encOtax s.cfg o.1 o.2.1 cmd) s

/-! ### DI-O -/

/-- The 2-bit command field of a code table, `DIO_CMD` or `AUCHAN2_CMD` (42_codecs_fixed.md R151, R172); other
commands reach no encoder (log 28). -/
def rawCmd2 (t : CommandCodes2) : Command → BitVec 2
  | .off => t.off
  | .on => t.on
  | .groupOff => t.groupOff
  | .groupOn => t.groupOn
  | .prog | .f1 | .f2 | .f3 => 0

/-- `RAW_DIO(r, d, c)`: 26-bit remote, 2-bit command, 4-bit device (42_codecs_fixed.md R151). -/
def rawDio (c : Config) (r d : Word) (cmd : Command) : Word :=
  ((r &&& 0x3FFFFFF) <<< 6) ||| ((rawCmd2 c.dioCmd cmd).setWidth 32 <<< 4) ||| (d &&& 0xF)

/-- `MAN(b)` under the polarity DIO_MANCHESTER: 0 -> (0,1) and 1 -> (1,0), or the inverse
(42_codecs_fixed.md R152). -/
def manchester (inverted b : Bool) : Frame := [b ^^ inverted, !(b ^^ inverted)]

/-- `ENC_DIO`: the Manchester pairs in raw bit order, bit 31 first (42_codecs_fixed.md R152). -/
def encDio (c : Config) (r d : Word) (cmd : Command) : Frame :=
  (seqBits 32 (rawDio c r d cmd).toNat).flatMap (manchester c.dioInverted)

/-- FMT.DIO (42_codecs_fixed.md R150). -/
def fmtDio (cmd : Command) (s : State) : State :=
  withOperands s.operands012 s fun o => fmtFixed .dio cmd o.2.2 (encDio s.cfg o.1 o.2.1 cmd) s

/-! ### Home Easy -/

/-- `HE_PAYLOAD(r, d, c)`: the value the parameter set gives, a free value where it gives none
(42_codecs_fixed.md R156; log 3). -/
def hePayload (c : Config) (r d : Word) (cmd : Command) : Word :=
  match c.hePayloadTable.find? fun row => row.remote == r && row.device == d && row.cmd == cmd with
  | some row => row.payload
  | none => Config.openHePayload r d cmd

/-- One Home Easy symbol: the table entry of a nibble, OR 0x40, in 7 bits (42_codecs_fixed.md R157). -/
def heSymbol (c : Config) (nibble : BitVec 4) : BitVec 7 :=
  c.heTbFx.get nibble.toFin ||| 0x40

/-- Home Easy packing: the forced leading 1, then the symbols of the eight payload nibbles, most
significant first (42_codecs_fixed.md R157). -/
def packHomeeasy (c : Config) (payload : Word) : Frame :=
  true :: (List.range 8).flatMap fun k =>
    seqBits 7 (heSymbol c (payload.extractLsb' (28 - 4 * k) 4)).toNat

/-- `ENC_HOMEEASY`: the packed payload (42_codecs_fixed.md R156, R157). -/
def encHomeeasy (c : Config) (r d : Word) (cmd : Command) : Frame :=
  packHomeeasy c (hePayload c r d cmd)

/-- FMT.HOMEEASY (42_codecs_fixed.md R155). -/
def fmtHomeeasy (cmd : Command) (s : State) : State :=
  withOperands s.operands012 s fun o =>
    fmtFixed .homeeasy cmd o.2.2 (encHomeeasy s.cfg o.1 o.2.1 cmd) s

/-! ### Idk -/

/-- `ENC_IDK`: each of 4 device bits then a 1, the filler 0x5555, a trailing 0
(42_codecs_fixed.md R161). -/
def encIdk (d : Word) : Frame :=
  (seqBits 4 d.toNat).flatMap (fun b => [b, true]) ++ seqBits 16 0x5555 ++ [false]

/-- FMT.IDK: A0 is not read (42_codecs_fixed.md R160, 41_codec_common.md R142). -/
def fmtIdk (cmd : Command) (s : State) : State :=
  withOperands s.operands12 s fun o => fmtFixed .idk cmd o.2 (encIdk o.1) s

/-! ### Sumtech -/

/-- The 1-bit command field of a code table, `SUMTECH_CMD` or `AUCHAN_CMD` (42_codecs_fixed.md R165, R168); other
commands reach no encoder (log 28). -/
def rawCmd1 (t : CommandCodes1) : Command → Bool
  | .off => t.off
  | .on => t.on
  | .groupOff | .groupOn | .prog | .f1 | .f2 | .f3 => false

/-- `ENC_SUMTECH`: 24-bit remote, command bit, 7-bit device (42_codecs_fixed.md R165). -/
def encSumtech (c : Config) (r d : Word) (cmd : Command) : Frame :=
  seqBits 24 r.toNat ++ [rawCmd1 c.sumtechCmd cmd] ++ seqBits 7 d.toNat

/-- FMT.SUMTECH (42_codecs_fixed.md R164). -/
def fmtSumtech (cmd : Command) (s : State) : State :=
  withOperands s.operands012 s fun o => fmtFixed .sumtech cmd o.2.2 (encSumtech s.cfg o.1 o.2.1 cmd) s

/-! ### Auchan -/

/-- `ENC_AUCHAN`: 20-bit remote, 3-bit device, command bit, a trailing 0 (42_codecs_fixed.md R168). -/
def encAuchan (c : Config) (r d : Word) (cmd : Command) : Frame :=
  seqBits 20 r.toNat ++ seqBits 3 d.toNat ++ [rawCmd1 c.auchanCmd cmd] ++ [false]

/-- FMT.AUCHAN (42_codecs_fixed.md R167). -/
def fmtAuchan (cmd : Command) (s : State) : State :=
  withOperands s.operands012 s fun o => fmtFixed .auchan cmd o.2.2 (encAuchan s.cfg o.1 o.2.1 cmd) s

/-! ### Auchan 2 -/

/-- `PRE(r, d, c)`, frame bits 0 to 18: two pad zeros, 13-bit remote, 2-bit device, 2-bit command
(42_codecs_fixed.md R172). -/
def preAuchan2 (c : Config) (r d : Word) (cmd : Command) : Frame :=
  [false, false] ++ seqBits 13 r.toNat ++ seqBits 2 d.toNat
    ++ seqBits 2 (rawCmd2 c.auchan2Cmd cmd).toNat

/-- `CS2`: the 2-bit groups of the value of `b`, from its least significant end, XORed together
(42_codecs_fixed.md R172). -/
def checksum2 (b : Frame) : BitVec 2 :=
  (List.range 10).foldl (fun acc k => acc ^^^ BitVec.ofNat 2 (bitsValue b >>> (2 * k))) 0

/-- `ENC_AUCHAN2`: PRE and its checksum (42_codecs_fixed.md R172). -/
def encAuchan2 (c : Config) (r d : Word) (cmd : Command) : Frame :=
  preAuchan2 c r d cmd ++ seqBits 2 (checksum2 (preAuchan2 c r d cmd)).toNat

/-- FMT.AUCHAN2 (42_codecs_fixed.md R171). -/
def fmtAuchan2 (cmd : Command) (s : State) : State :=
  withOperands s.operands012 s fun o => fmtFixed .auchan2 cmd o.2.2 (encAuchan2 s.cfg o.1 o.2.1 cmd) s

/-! ### The meanings -/

/-- FMT.OTAX (42_codecs_fixed.md R146). -/
def execFmtOtax (cmd : Command) (s : State) : Host.Outcome State Fault Refusal :=
  .next (fmtOtax cmd s)

/-- FMT.DIO (42_codecs_fixed.md R150). -/
def execFmtDio (cmd : Command) (s : State) : Host.Outcome State Fault Refusal :=
  .next (fmtDio cmd s)

/-- FMT.HOMEEASY (42_codecs_fixed.md R155). -/
def execFmtHomeeasy (cmd : Command) (s : State) : Host.Outcome State Fault Refusal :=
  .next (fmtHomeeasy cmd s)

/-- FMT.IDK (42_codecs_fixed.md R160). -/
def execFmtIdk (cmd : Command) (s : State) : Host.Outcome State Fault Refusal :=
  .next (fmtIdk cmd s)

/-- FMT.SUMTECH (42_codecs_fixed.md R164). -/
def execFmtSumtech (cmd : Command) (s : State) : Host.Outcome State Fault Refusal :=
  .next (fmtSumtech cmd s)

/-- FMT.AUCHAN (42_codecs_fixed.md R167). -/
def execFmtAuchan (cmd : Command) (s : State) : Host.Outcome State Fault Refusal :=
  .next (fmtAuchan cmd s)

/-- FMT.AUCHAN2 (42_codecs_fixed.md R171). -/
def execFmtAuchan2 (cmd : Command) (s : State) : Host.Outcome State Fault Refusal :=
  .next (fmtAuchan2 cmd s)

end Sys2Proof.Machine
end

