-- ==== Sys2Proof/Machine/RawEngine.lean ====
section
/-! DEFINITION. The RAW waveform engine: the timing quantum and the pulse train (44_raw_engine.md R201 to
R215). Durations, floors and tick counts are unbounded integers (00_scope.md R12, 44_raw_engine.md
R202). -/

namespace Sys2Proof.Machine

/-- The loop of the tolerant gcd with a bound on its passes. -/
def gcdLoop : Nat → Nat → Nat → Nat → Nat
  | 0, _, b, _ => b
  | fuel + 1, a, b, fl => if a ≤ fl then b else gcdLoop fuel (b % a) a fl

/-- `G(a, b, fl)`: Euclid's algorithm, ended once `a` is at or below the floor (44_raw_engine.md R201).
`a` falls on every pass, so `a` passes are enough. -/
def tolerantGcd (a b fl : Nat) : Nat := gcdLoop a a b fl

/-- The smallest nonzero duration, 0 if there is none (44_raw_engine.md R202). -/
def smallestNonzero (l : List Nat) : Nat :=
  l.foldr (fun x m => if x = 0 then m else if m = 0 then x else min x m) 0

/-- The accuracy floor `(m * (100 - acc)) div 100` (44_raw_engine.md R202). -/
def accuracyFloor (m acc : Nat) : Nat := m * (100 - acc) / 100

/-- The combination order: each H/L pair, start with end, bit 0 with bit 1, then those two
(44_raw_engine.md R203). -/
def combine (t : Pulses) (fl : Nat) : Nat :=
  let gs := tolerantGcd t.startH t.startL fl
  let ge := tolerantGcd t.endH t.endL fl
  let g0 := tolerantGcd t.bit0H t.bit0L fl
  let g1 := tolerantGcd t.bit1H t.bit1L fl
  tolerantGcd (tolerantGcd gs ge fl) (tolerantGcd g0 g1 fl) fl

/-- The quantum of eight durations at an accuracy (44_raw_engine.md R202, R203). -/
def quantum (acc : Nat) (t : Pulses) : Nat :=
  combine t (accuracyFloor (smallestNonzero t.toList) acc)

/-- RAW.BASETIME's computation, none where it ends TIMING_UNSUPPORTED: no HIGH_LOW or LOW_HIGH tag, all
durations 0, or a quantum of 0 (44_raw_engine.md R204, R205, R207). -/
def baseTime (acc : Nat) (tag : BitVec 2) (t : Pulses) : Option Nat :=
  match orderOfTag tag with
  | none => none
  | some _ =>
    if t.toList.all (· == 0) then none
    else if quantum acc t = 0 then none
    else some (quantum acc t)

/-- `RND(x, base)`, round half up (44_raw_engine.md R206). -/
def roundTicks (base x : Nat) : Nat := (x + base / 2) / base

/-- Some nonzero duration rounds to 0 ticks (44_raw_engine.md R207). -/
def vanishes (base : Nat) (t : Pulses) : Bool :=
  t.toList.any fun x => x != 0 && roundTicks base x == 0

/-- `L`, the length of the rendering in ticks (44_raw_engine.md R208). -/
def renderLength (k : Pulses) (f : Frame) : Nat :=
  k.startH + k.startL + k.endH + k.endL + edgesLength f k.bit0H k.bit0L k.bit1H k.bit1L

/-- `OUT`: the start edge, each bit as its edge pattern, the end edge, all in one order
(44_raw_engine.md R209). -/
def renderFrame (o : Order) (k : Pulses) (f : Frame) : Frame :=
  edge o k.startH k.startL ++ edges f o k.bit0H k.bit0L o k.bit1H k.bit1L ++ edge o k.endH k.endL

/-- RAW.RENDER from its format check on (44_raw_engine.md R211): format, quantum and representability,
then the read of BUF0, then the length. `res0` is what RES0 becomes on OK: RAW.CONVERT writes it (R212),
RAW.RENDER does not. -/
def renderFrom (tag : BitVec 2) (t : Pulses) (fcount : Half) (base count dataLen : Nat) (res0 : Word)
    (s : State) : State :=
  match orderOfTag tag with
  | none => complete .timingUnsupported s
  | some o =>
    if base = 0 then complete .timingUnsupported s
    else if vanishes base t then complete .timingUnsupported s
    else
      match Memory.readRun s.buf0 0 count with
      | none => raiseFault .unwrittenRead s
      | some f =>
        let k := t.map (roundTicks base)
        if 8 * dataLen < renderLength k f ∨ 65535 < renderLength k f then complete .bufferTooSmall s
        else complete .ok
          { s with
            buf1 := Memory.write s.buf1 0 (renderFrame o k f)
            bitcnt := BitVec.ofNat 16 (renderLength k f)
            rtcfg := rawTiming (BitVec.ofNat 16 base) fcount
            res0 := res0 }

/-- RAW.BASETIME (44_raw_engine.md R204). -/
def rawBasetime (acc : Byte) (s : State) : State :=
  withOperands s.tcfg.durations s fun t =>
    if 100 < acc.toNat then complete .illegalOperation s
    else
      match baseTime acc.toNat t.1 t.2 with
      | none => complete .timingUnsupported s
      | some b => complete .ok { s with res0 := BitVec.ofNat 32 b }

/-- RAW.RENDER (44_raw_engine.md R211). -/
def rawRender (s : State) : State :=
  withOperands s.operandsRender s fun o =>
    if s.cfg.bufBytes < o.dataLen.toNat ∨ 8 * s.cfg.bufBytes < o.count.toNat ∨ 0xFFFF < o.base.toNat then
      complete .illegalOperation s
    else
      renderFrom o.tag o.pulses o.fcount o.base.toNat o.count.toNat o.dataLen.toNat s.res0 s

/-- RAW.CONVERT (44_raw_engine.md R212). -/
def rawConvert (acc : Byte) (s : State) : State :=
  withOperands s.operandsConvert s fun o =>
    if 100 < acc.toNat ∨ s.cfg.bufBytes < o.dataLen.toNat ∨ 8 * s.cfg.bufBytes < o.count.toNat then
      complete .illegalOperation s
    else
      match baseTime acc.toNat o.tag o.pulses with
      | none => complete .timingUnsupported s
      | some b =>
        renderFrom o.tag o.pulses o.fcount b o.count.toNat o.dataLen.toNat (BitVec.ofNat 32 b) s

/-- RAW.BASETIME (44_raw_engine.md R204). -/
def execRawBasetime (acc : Byte) (s : State) : Host.Outcome State Fault Refusal :=
  .next (rawBasetime acc s)

/-- RAW.RENDER (44_raw_engine.md R211). -/
def execRawRender (s : State) : Host.Outcome State Fault Refusal :=
  .next (rawRender s)

/-- RAW.CONVERT (44_raw_engine.md R212). -/
def execRawConvert (acc : Byte) (s : State) : Host.Outcome State Fault Refusal :=
  .next (rawConvert acc s)

end Sys2Proof.Machine
end

