-- ==== Sys2Proof/Machine/RollingCodecs.lean ====
section
/-! DEFINITION. The rolling-code codecs Somfy RTS and Blyss (43_codecs_rolling.md R181 to R194), and the
split of their store update when the medium is shared (20_memory.md R74, R76). -/

namespace Sys2Proof.Machine

/-! ### Somfy RTS -/

/-- `SOMFY_CODE[c]` (43_codecs_rolling.md R181); commands outside ACCEPT(SOMFY) reach no encoder. -/
def somfyCode (c : Config) : Command → BitVec 4
  | .off => c.somfyOff
  | .on => c.somfyOn
  | .prog => c.somfyProg
  | .f1 => c.somfyF1
  | .groupOff | .groupOn | .f2 | .f3 => 0

/-- The seven payload bytes with checksum nibble `cks` (43_codecs_rolling.md R181): key, command and
checksum nibbles, counter high byte first, device big-endian. -/
def somfyBytes (c : Config) (r d : Word) (cmd : Command) (v : Half) (cks : BitVec 4) : List Byte :=
  [r.extractLsb' 0 8, somfyCode c cmd ++ cks, v.extractLsb' 8 8, v.extractLsb' 0 8,
    d.extractLsb' 16 8, d.extractLsb' 8 8, d.extractLsb' 0 8]

/-- The XOR of the two nibbles of every byte (43_codecs_rolling.md R182). -/
def xorNibbles (bs : List Byte) : BitVec 4 :=
  bs.foldl (fun acc b => acc ^^^ b.extractLsb' 4 4 ^^^ b.extractLsb' 0 4) 0

/-- `CKS`: over the payload with the checksum nibble taken as 0 (43_codecs_rolling.md R182). -/
def somfyChecksum (c : Config) (r d : Word) (cmd : Command) (v : Half) : BitVec 4 :=
  xorNibbles (somfyBytes c r d cmd v 0)

/-- The plain payload b[0..6] (43_codecs_rolling.md R181). -/
def somfyPlain (c : Config) (r d : Word) (cmd : Command) (v : Half) : List Byte :=
  somfyBytes c r d cmd v (somfyChecksum c r d cmd v)

/-- Whitening from a previous whitened byte on: w[i] = b[i] XOR w[i-1] (43_codecs_rolling.md R183). -/
def whitenFrom : Byte → List Byte → List Byte
  | _, [] => []
  | prev, b :: rest => (b ^^^ prev) :: whitenFrom (b ^^^ prev) rest

/-- `w`: the first byte as it is, each later one chained through the whitened byte before it
(43_codecs_rolling.md R183). -/
def whiten : List Byte → List Byte
  | [] => []
  | b :: rest => b :: whitenFrom b rest

/-- `MANS(W)`: 0 -> edge(HL,1,1), 1 -> edge(LH,1,1) (43_codecs_rolling.md R184). -/
def somfyTicks (bs : List Byte) : Frame :=
  edges (bs.flatMap byteBits) .hl 1 1 .lh 1 1

/-- SHORT (43_codecs_rolling.md R185). -/
def somfyShort (c : Config) : Frame := edge .hl c.somfyShortH c.somfyShortL

/-- SW, the data ticks and GAP: the end of every Somfy frame (43_codecs_rolling.md R185). -/
def somfyTail (c : Config) (data : Frame) : Frame :=
  edge .hl c.somfySwH c.somfySwL ++ data ++ lowRun c.somfyGap

/-- FIRST (43_codecs_rolling.md R185). -/
def somfyFirst (c : Config) (data : Frame) : Frame :=
  edge .hl c.somfyLongH c.somfyLongL ++ (List.replicate 2 (somfyShort c)).flatten ++ somfyTail c data

/-- REPEAT (43_codecs_rolling.md R185). -/
def somfyRepeat (c : Config) (data : Frame) : Frame :=
  (List.replicate 7 (somfyShort c)).flatten ++ somfyTail c data

/-- `ENC_SOMFY`: FIRST, then SOMFY_N - 1 times REPEAT, all with the same payload
(43_codecs_rolling.md R185). -/
def encSomfy (c : Config) (r d : Word) (cmd : Command) (v : Half) : Frame :=
  let data := somfyTicks (whiten (somfyPlain c r d cmd v))
  somfyFirst c data ++ (List.replicate (c.somfyN - 1) (somfyRepeat c data)).flatten

/-! ### Blyss -/

/-- `BLYSS_CODE[c]` (43_codecs_rolling.md R191); commands outside ACCEPT(BLYSS) reach no encoder. -/
def blyssCode (c : Config) : Command → BitVec 4
  | .off => c.blyssOff
  | .on => c.blyssOn
  | .groupOff => c.blyssGroupOff
  | .groupOn => c.blyssGroupOn
  | .prog | .f1 | .f2 | .f3 => 0

/-- `dv`: a group command forces the device to 0 (43_codecs_rolling.md R190). -/
def blyssDevice (cmd : Command) (d : Word) : BitVec 4 :=
  match cmd with
  | .groupOff | .groupOn => 0
  | .off | .on | .prog | .f1 | .f2 | .f3 => d.extractLsb' 0 4

/-- The rolling code: the table entry at `v mod 5` (43_codecs_rolling.md R191). -/
def blyssRolling (c : Config) (v : Half) : Byte :=
  c.blyssRc.get ⟨v.toNat % 5, Nat.mod_lt _ (by decide)⟩

/-- `ENC_BLYSS` (43_codecs_rolling.md R191). -/
def encBlyss (c : Config) (r d : Word) (cmd : Command) (v : Half) : Frame :=
  byteBits c.blyssFrameType
    ++ seqBits 4 (r.extractLsb' 16 4).toNat
    ++ seqBits 16 (r.extractLsb' 0 16).toNat
    ++ seqBits 4 (blyssDevice cmd d).toNat
    ++ seqBits 4 (blyssCode c cmd).toNat
    ++ byteBits (blyssRolling c v)
    ++ byteBits (~~~(blyssRolling c v))

/-! ### The store step -/

/-- The protocol of a stateful codec. -/
def Rolling.protocol : Rolling → Protocol
  | .somfy => .somfy
  | .blyss => .blyss

/-- `NEXT_SOMFY` and `NEXT_BLYSS` (41_codec_common.md R136, 45_replay_store.md R231). -/
def rollNext : Rolling → Half → Half
  | .somfy, v => v + 1
  | .blyss, v => BitVec.ofNat 16 ((v.toNat % 5 + 1) % 5)

/-- The key of a job: the protocol and the operands as given, before any reduction or forcing
(41_codec_common.md R136, 43_codecs_rolling.md R190). -/
def FmtJob.key (j : FmtJob) : StoreKey where
  ns := j.codec.protocol
  remote := j.remote
  device := j.device

/-- The frame of a job, on the value that was read (43_codecs_rolling.md, before R181). -/
def FmtJob.frame (c : Config) (j : FmtJob) : Frame :=
  match j.codec with
  | .somfy => encSomfy c j.remote j.device j.cmd j.value
  | .blyss => encBlyss c j.remote j.device j.cmd j.value

/-- The second half of a stateful FMT: the store write of NEXT(v), then the frame; a failed write ends
STORE_UNAVAILABLE (41_codec_common.md R129). -/
def fmtFinish (j : FmtJob) (s : State) : State :=
  let t := { s.afterStoreWrite j.key (rollNext j.codec j.value) with pending := none }
  if s.nextAnswer then fmtEmit j.codec.protocol (FmtJob.frame s.cfg j) t
  else complete .storeUnavailable t

/-- A stateful FMT after its operand reads: the checks, the store read, and the second half, at once
unless the medium is shared (41_codec_common.md R129, R136; 20_memory.md R74, R76). -/
def fmtRolling (codec : Rolling) (cmd : Command) (r d dataLen : Word) (s : State) : State :=
  match fmtRefusal s.cfg codec.protocol cmd dataLen with
  | some c => complete c s
  | none =>
    let key : StoreKey := { ns := codec.protocol, remote := r, device := d }
    match s.storeReadValue key with
    | none => complete .storeUnavailable (s.afterStoreRead key)
    | some v =>
      let job : FmtJob := { codec, cmd, remote := r, device := d, value := v }
      if s.cfg.storeShared then { s.afterStoreRead key with pending := some job }
      else fmtFinish job (s.afterStoreRead key)

/-- FMT.SOMFY (43_codecs_rolling.md R186). -/
def fmtSomfy (cmd : Command) (s : State) : State :=
  withOperands s.operands012 s fun o => fmtRolling .somfy cmd o.1 o.2.1 o.2.2 s

/-- FMT.BLYSS (43_codecs_rolling.md R192). -/
def fmtBlyss (cmd : Command) (s : State) : State :=
  withOperands s.operands012 s fun o => fmtRolling .blyss cmd o.1 o.2.1 o.2.2 s

/-- FMT.SOMFY (43_codecs_rolling.md R186). -/
def execFmtSomfy (cmd : Command) (s : State) : Host.Outcome State Fault Refusal :=
  .next (fmtSomfy cmd s)

/-- FMT.BLYSS (43_codecs_rolling.md R192). -/
def execFmtBlyss (cmd : Command) (s : State) : Host.Outcome State Fault Refusal :=
  .next (fmtBlyss cmd s)

end Sys2Proof.Machine
end

