-- ==== Sys2Proof/Machine/StoreAccess.lean ====
section
/-! DEFINITION. The replay-store operations ST.LOAD and ST.STORE (45_replay_store.md R228, R229). -/

namespace Sys2Proof.Machine

/-- ST.LOAD: NS above 8 is a reserved value; a failed read ends STORE_UNAVAILABLE
(45_replay_store.md R228). -/
def stLoad (ns : BitVec 4) (s : State) : State :=
  withOperands s.operands01 s fun o =>
    match Protocol.ofId ns with
    | none => complete .illegalOperation s
    | some p =>
      let key : StoreKey := { ns := p, remote := o.1, device := o.2 }
      match s.storeReadValue key with
      | none => complete .storeUnavailable (s.afterStoreRead key)
      | some v => complete .ok { s.afterStoreRead key with res0 := v.setWidth 32 }

/-- ST.STORE: NS above 8 or a value above 0xFFFF is reserved; a failed write ends STORE_UNAVAILABLE
(45_replay_store.md R229). -/
def stStore (ns : BitVec 4) (s : State) : State :=
  withOperands s.operands012 s fun o =>
    match Protocol.ofId ns with
    | none => complete .illegalOperation s
    | some p =>
      if 0xFFFF < o.2.2.toNat then complete .illegalOperation s
      else
        let key : StoreKey := { ns := p, remote := o.1, device := o.2.1 }
        complete (if s.nextAnswer then .ok else .storeUnavailable)
          (s.afterStoreWrite key (o.2.2.setWidth 16))

/-- ST.LOAD (45_replay_store.md R228). -/
def execStLoad (ns : BitVec 4) (s : State) : Host.Outcome State Fault Refusal :=
  .next (stLoad ns s)

/-- ST.STORE (45_replay_store.md R229). -/
def execStStore (ns : BitVec 4) (s : State) : Host.Outcome State Fault Refusal :=
  .next (stStore ns s)

end Sys2Proof.Machine
end

