-- ==== Sys2Proof/Machine/Dispatch.lean ====
section
/-! DEFINITION. The meaning of every operation (30_encoding.md R93), one arm per constructor. -/

namespace Sys2Proof.Machine

/-- What an operation does to the state the host's OPW write left (10_state.md R25). -/
def exec (i : Instr) (s : State) : Host.Outcome State Fault Refusal :=
  match i with
  | .fmtOtax cmd => Sys2Proof.Machine.execFmtOtax cmd s
  | .fmtDio cmd => Sys2Proof.Machine.execFmtDio cmd s
  | .fmtHomeeasy cmd => Sys2Proof.Machine.execFmtHomeeasy cmd s
  | .fmtIdk cmd => Sys2Proof.Machine.execFmtIdk cmd s
  | .fmtSumtech cmd => Sys2Proof.Machine.execFmtSumtech cmd s
  | .fmtAuchan cmd => Sys2Proof.Machine.execFmtAuchan cmd s
  | .fmtAuchan2 cmd => Sys2Proof.Machine.execFmtAuchan2 cmd s
  | .fmtSomfy cmd => Sys2Proof.Machine.execFmtSomfy cmd s
  | .fmtBlyss cmd => Sys2Proof.Machine.execFmtBlyss cmd s
  | .descRead sel => Sys2Proof.Machine.execDescRead sel s
  | .bwLow buf => Sys2Proof.Machine.execBwLow buf s
  | .bwHigh buf => Sys2Proof.Machine.execBwHigh buf s
  | .bwEdge buf order => Sys2Proof.Machine.execBwEdge buf order s
  | .bwBits buf oneOrder zeroOrder => Sys2Proof.Machine.execBwBits buf oneOrder zeroOrder s
  | .rawBasetime acc => Sys2Proof.Machine.execRawBasetime acc s
  | .rawRender => Sys2Proof.Machine.execRawRender s
  | .rawConvert acc => Sys2Proof.Machine.execRawConvert acc s
  | .stLoad ns => Sys2Proof.Machine.execStLoad ns s
  | .stStore ns => Sys2Proof.Machine.execStStore ns s

end Sys2Proof.Machine
end

