-- ==== Sys2Proof/Machine/HostPort.lean ====
section
/-! DEFINITION. What each input does: the host-visible register map (10_state.md R40, R42), the shapes of
host accesses (20_memory.md R65), the start of an operation by a write to OPW (10_state.md R25,
60_exceptions.md R247), RESET, and the environment's own acts. -/

namespace Sys2Proof.Machine

/-- The host-visible registers (10_state.md R40). -/
inductive HostReg where
  | opw
  | a0 | a1 | a2 | a3 | a4 | a5 | a6
  | status | fault | bitcnt
  | res0 | res1 | res2
  | id
  | tcfgFmt | tcfgStart | tcfgEnd | tcfgBit0 | tcfgBit1 | tcfgBase | tcfgFcount
  | rtcfgFmt | rtcfgStart | rtcfgEnd | rtcfgBit0 | rtcfgBit1 | rtcfgBase | rtcfgFcount
deriving DecidableEq, Repr

/-- The register at an offset of the map (10_state.md R40). -/
def regAt (offset : Nat) : Option HostReg :=
  match offset with
  | 0x00 => some .opw
  | 0x04 => some .a0
  | 0x08 => some .a1
  | 0x0C => some .a2
  | 0x10 => some .a3
  | 0x14 => some .a4
  | 0x18 => some .a5
  | 0x1C => some .a6
  | 0x20 => some .status
  | 0x24 => some .fault
  | 0x28 => some .bitcnt
  | 0x2C => some .res0
  | 0x30 => some .res1
  | 0x34 => some .res2
  | 0x38 => some .id
  | 0x40 => some .tcfgFmt
  | 0x44 => some .tcfgStart
  | 0x48 => some .tcfgEnd
  | 0x4C => some .tcfgBit0
  | 0x50 => some .tcfgBit1
  | 0x54 => some .tcfgBase
  | 0x58 => some .tcfgFcount
  | 0x60 => some .rtcfgFmt
  | 0x64 => some .rtcfgStart
  | 0x68 => some .rtcfgEnd
  | 0x6C => some .rtcfgBit0
  | 0x70 => some .rtcfgBit1
  | 0x74 => some .rtcfgBase
  | 0x78 => some .rtcfgFcount
  | _ => none

/-- The offset of OPW (10_state.md R40). -/
def opwOffset : Nat := 0x00

/-- The first offset of a buffer (10_state.md R40). -/
def bufferOffset : BufSel → Nat
  | .buf0 => 0x2000
  | .buf1 => 0x4000

/-- The buffer byte at an offset (10_state.md R40), for a capacity of `bytes`. -/
def bufferAt (bytes offset : Nat) : Option (BufSel × Nat) :=
  if 0x2000 ≤ offset ∧ offset < 0x2000 + bytes then some (.buf0, offset - 0x2000)
  else if 0x4000 ≤ offset ∧ offset < 0x4000 + bytes then some (.buf1, offset - 0x4000)
  else none

/-- What a host access reaches. -/
inductive Target where
  | register (r : HostReg)
  | bufferByte (b : BufSel) (j : Nat)
  /-- A 32-bit access at a reserved offset: reads as 0, writes are ignored (10_state.md R40). -/
  | reservedOffset
deriving DecidableEq, Repr

/-- The target of a host access, none for a shape that is no part of the interface: a misaligned register
access, a 16-bit access, a multi-byte buffer access, a byte access anywhere but at a buffer byte (20_memory.md
R65). A 32-bit access at a multiple of 4 that is no register's and no buffer byte's offset is at a reserved one
(10_state.md R40; log 10). -/
def hostTarget (bytes : Nat) (w : AccessWidth) (offset : Nat) : Option Target :=
  match w with
  | .half => none
  | .byte =>
    match bufferAt bytes offset with
    | some (b, j) => some (.bufferByte b j)
    | none => none
  | .word =>
    if offset % 4 ≠ 0 then none
    else
      match bufferAt bytes offset with
      | some _ => none
      | none =>
        match regAt offset with
        | some r => some (.register r)
        | none => some .reservedOffset

/-- The map offset of an address of the host's address space, the map standing at RFC_BASE
(20_memory.md R69; log 19). -/
def Config.offsetOf (c : Config) (address : Nat) : Option Nat :=
  if c.rfcBase ≤ address then some (address - c.rfcBase) else none

/-! ### Host reads -/

/-- What a register reads as. A ⊥ register reads as an arbitrary value of its width; bits not listed read
as 0 (10_state.md R30, R40, R42; log 6). -/
def State.regWord (s : State) (free : Word) : HostReg → Word
  | .opw => s.opwWord
  | .a0 => s.a0.getD free
  | .a1 => s.a1.getD free
  | .a2 => s.a2.getD free
  | .a3 => s.a3.getD free
  | .a4 => s.a4.getD free
  | .a5 => s.a5.getD free
  | .a6 => s.a6.getD free
  | .status => s.statusWord
  | .fault => s.faultWord
  | .bitcnt => s.bitcntWord
  | .res0 => s.res0
  | .res1 => s.res1
  | .res2 => s.res2
  | .id => idWord
  | .tcfgFmt => (s.tcfg.fmt.getD (free.setWidth 2)).setWidth 32
  | .tcfgStart => s.tcfg.start.getD free
  | .tcfgEnd => s.tcfg.stop.getD free
  | .tcfgBit0 => s.tcfg.bit0.getD free
  | .tcfgBit1 => s.tcfg.bit1.getD free
  | .tcfgBase => (s.tcfg.base.getD (free.setWidth 16)).setWidth 32
  | .tcfgFcount => (s.tcfg.fcount.getD (free.setWidth 16)).setWidth 32
  | .rtcfgFmt => (s.rtcfg.fmt.getD (free.setWidth 2)).setWidth 32
  | .rtcfgStart => s.rtcfg.start.getD free
  | .rtcfgEnd => s.rtcfg.stop.getD free
  | .rtcfgBit0 => s.rtcfg.bit0.getD free
  | .rtcfgBit1 => s.rtcfg.bit1.getD free
  | .rtcfgBase => (s.rtcfg.base.getD (free.setWidth 16)).setWidth 32
  | .rtcfgFcount => (s.rtcfg.fcount.getD (free.setWidth 16)).setWidth 32

/-- What a host read returns, `free` being the arbitrary value behind any ⊥ (10_state.md R42). -/
def State.readValue (s : State) (free : Word) : Target → Word
  | .register r => s.regWord free r
  | .bufferByte b j => (Memory.readByte (s.buffer b) j (free.setWidth 8)).setWidth 32
  | .reservedOffset => 0

/-- A host read: the value goes to the host and nothing of the block changes (20_memory.md R68). Each read
has a free draw of its own. -/
def hostRead (t : Target) (s : State) : State :=
  { s with
    hostData := some (s.readValue (Config.freeWord s.draws) t)
    draws := s.draws + 1 }

/-! ### Host writes -/

/-- A host write to a register other than OPW: the whole register is written, bits not listed are ignored,
and a write to a read-only register is ignored (10_state.md R24, R28, R30, R31, R40). -/
def writeReg (r : HostReg) (v : Word) (s : State) : State :=
  match r with
  | .a0 => { s with a0 := some v }
  | .a1 => { s with a1 := some v }
  | .a2 => { s with a2 := some v }
  | .a3 => { s with a3 := some v }
  | .a4 => { s with a4 := some v }
  | .a5 => { s with a5 := some v }
  | .a6 => { s with a6 := some v }
  | .tcfgFmt => { s with tcfg := { s.tcfg with fmt := some (v.setWidth 2) } }
  | .tcfgStart => { s with tcfg := { s.tcfg with start := some v } }
  | .tcfgEnd => { s with tcfg := { s.tcfg with stop := some v } }
  | .tcfgBit0 => { s with tcfg := { s.tcfg with bit0 := some v } }
  | .tcfgBit1 => { s with tcfg := { s.tcfg with bit1 := some v } }
  | .tcfgBase => { s with tcfg := { s.tcfg with base := some (v.setWidth 16) } }
  | .tcfgFcount => { s with tcfg := { s.tcfg with fcount := some (v.setWidth 16) } }
  | .opw => { s with opw := v.setWidth 16 }
  | .status | .fault | .bitcnt | .res0 | .res1 | .res2 | .id => s
  | .rtcfgFmt | .rtcfgStart | .rtcfgEnd | .rtcfgBit0 | .rtcfgBit1 | .rtcfgBase | .rtcfgFcount => s

/-- A host write to OPW: its low 16 bits are stored; a faulted block starts nothing (60_exceptions.md R247); a
reserved encoding ends ILLEGAL_OPERATION and changes nothing else (30_encoding.md R96); any other word
starts its operation (10_state.md R25). -/
def startOperation (v : Word) (s : State) : Host.Outcome State Fault Refusal :=
  let t := writeReg .opw v s
  if t.faulted then .next t
  else
    match decode v with
    | .instr i => exec i t
    | .reserved _ => .next (complete .illegalOperation t)

/-- A host write (10_state.md R40, 20_memory.md R68): only OPW has a side effect. -/
def hostWrite (t : Target) (v : Word) (s : State) : Host.Outcome State Fault Refusal :=
  match t with
  | .register r => if r = .opw then startOperation v s else .next (writeReg r v s)
  | .bufferByte b j =>
    .next (s.withBuffer b (Memory.writeByte (s.buffer b) j (v.setWidth 8)))
  | .reservedOffset => .next s

/-- What one input does. -/
def act (i : Input) (s : State) : Host.Outcome State Fault Refusal :=
  match i with
  | .write w offset v =>
    match hostTarget s.cfg.bufBytes w offset with
    | none => .refused .accessShape
    | some t => hostWrite t v s
  | .read w offset =>
    match hostTarget s.cfg.bufBytes w offset with
    | none => .refused .accessShape
    | some t => .next (hostRead t s)
  | .reset => .next (resetBlock s)
  | .otherWrite key v =>
    if s.cfg.storeShared then .next { s with store := ReplayStore.insert s.store key v }
    else .fault .mediumNotShared
  | .eraseMedium => .next { s with store := [] }
  | .idle => .next s

/-- The next input to act, if it may act now: with a FMT split between its store read and its store write,
only another writer may act (20_memory.md R76; log 11). -/
def nextInput (s : State) : Option (Input × List Input) :=
  match s.inbox with
  | [] => none
  | i :: rest =>
    match s.pending with
    | none => some (i, rest)
    | some _ =>
      match i with
      | .otherWrite key v => some (.otherWrite key v, rest)
      | .write _ _ _ | .read _ _ | .reset | .eraseMedium | .idle => none

/-- One move of the machine: the next input acts, or else a split FMT ends, or else the block is idle
(60_exceptions.md R258). -/
def move (s : State) : Host.Outcome State Fault Refusal :=
  match nextInput s with
  | some (i, rest) => act i { s with inbox := rest }
  | none =>
    match s.pending with
    | some j => .next (fmtFinish j s)
    | none => .next s

/-- The input by which the host issues the operation word `w` (10_state.md R25). -/
def issueWord (w : Word) : Input := .write .word opwOffset w

end Sys2Proof.Machine
end

