-- ==== Sys2Proof/Machine/Step.lean ====
section
/-! DEFINITION. One step of the machine: the configuration check, then one move. The block fetches no
instruction (10_state.md R23): its operations arrive as the host's writes to OPW, which the state holds as
the inputs not yet acted on (log 1). -/

namespace Sys2Proof.Machine

/-- One step. A parameter set that fails the configuration check is refused (00_scope.md R9; log 15). -/
def step (s : State) : Host.Outcome State Fault Refusal :=
  if s.cfg.wf then move s else .refused .badConfiguration

/-- `s` with the host about to write the operation word `w` (its low `nbits` bits) to OPW as its very next
act (10_state.md R25; log 1). -/
def State.withFetchWord (s : State) (nbits w : Nat) : State :=
  { s with inbox := issueWord (BitVec.ofNat 32 (w % 2 ^ nbits)) :: s.inbox }

end Sys2Proof.Machine
end

