-- ==== Sys2Proof/Machine/Asm.lean ====
section
/-! DEFINITION. The assembler's view of a program (30_encoding.md R99 to R109): the text of each operation,
the disassembly of a reserved word, the parse of a line, and the host writes a pseudo-instruction expands
to. Host code: no operation uses it. -/

namespace Sys2Proof.Machine

/-! ### Printing -/

/-- `<p>` of the syntax (30_encoding.md R100). -/
def protocolText : Protocol → String
  | .otax => "otax"
  | .dio => "dio"
  | .homeeasy => "homeeasy"
  | .idk => "idk"
  | .sumtech => "sumtech"
  | .auchan => "auchan"
  | .auchan2 => "auchan2"
  | .somfy => "somfy"
  | .blyss => "blyss"

/-- `<CMD>` of the syntax (30_encoding.md R100). -/
def commandText : Command → String
  | .off => "OFF"
  | .on => "ON"
  | .groupOff => "GROUP_OFF"
  | .groupOn => "GROUP_ON"
  | .prog => "PROG"
  | .f1 => "F1"
  | .f2 => "F2"
  | .f3 => "F3"

/-- `<buf>` of the syntax (30_encoding.md R102). -/
def bufText : BufSel → String
  | .buf0 => "b0"
  | .buf1 => "b1"

/-- An order of the syntax (30_encoding.md R102). -/
def orderText : Order → String
  | .hl => "HL"
  | .lh => "LH"

/-- One decimal digit. -/
def digitText (n : Nat) : String :=
  match n with
  | 0 => "0"
  | 1 => "1"
  | 2 => "2"
  | 3 => "3"
  | 4 => "4"
  | 5 => "5"
  | 6 => "6"
  | 7 => "7"
  | 8 => "8"
  | 9 => "9"
  | 10 => "A"
  | 11 => "B"
  | 12 => "C"
  | 13 => "D"
  | 14 => "E"
  | _ => "F"

/-- A byte in decimal (30_encoding.md R99, R103). -/
def byteText (n : Nat) : String :=
  if n < 10 then digitText n
  else if n < 100 then digitText (n / 10) ++ digitText (n % 10)
  else digitText (n / 100) ++ digitText (n / 10 % 10) ++ digitText (n % 10)

/-- The namespace of a ST operation: its protocol's name, or the number of a reserved value, which has no
name (30_encoding.md R104; log 27). -/
def namespaceText (ns : BitVec 4) : String :=
  match Protocol.ofId ns with
  | some p => protocolText p
  | none => byteText ns.toNat

/-- The text of a FMT operation (30_encoding.md R100). -/
def fmtText (p : Protocol) (c : Command) : String :=
  "fmt." ++ protocolText p ++ " " ++ commandText c

/-- The source line of an operation (30_encoding.md R100 to R104). -/
def instrText : Instr → String
  | .fmtOtax c => fmtText .otax c
  | .fmtDio c => fmtText .dio c
  | .fmtHomeeasy c => fmtText .homeeasy c
  | .fmtIdk c => fmtText .idk c
  | .fmtSumtech c => fmtText .sumtech c
  | .fmtAuchan c => fmtText .auchan c
  | .fmtAuchan2 c => fmtText .auchan2 c
  | .fmtSomfy c => fmtText .somfy c
  | .fmtBlyss c => fmtText .blyss c
  | .descRead sel => "desc.read " ++ namespaceText sel
  | .bwLow b => "bw.low " ++ bufText b
  | .bwHigh b => "bw.high " ++ bufText b
  | .bwEdge b o => "bw.edge " ++ bufText b ++ ", " ++ orderText o
  | .bwBits b oo zo => "bw.bits " ++ bufText b ++ ", " ++ orderText zo ++ ", " ++ orderText oo
  | .rawBasetime acc => "raw.base " ++ byteText acc.toNat
  | .rawRender => "raw.render"
  | .rawConvert acc => "raw.cvt " ++ byteText acc.toNat
  | .stLoad ns => "st.load " ++ namespaceText ns
  | .stStore ns => "st.store " ++ namespaceText ns

/-- Four hexadecimal digits. -/
def hexText (w : Half) : String :=
  digitText (w.toNat / 4096) ++ digitText (w.toNat / 256 % 16) ++ digitText (w.toNat / 16 % 16)
    ++ digitText (w.toNat % 16)

/-- The disassembly of an operation word; a reserved one prints as `.illegal 0xHHHH`
(30_encoding.md R105). -/
def disassemble (w : Half) : String :=
  match decodeWord w with
  | .instr i => instrText i
  | .reserved _ => ".illegal 0x" ++ hexText w

/-! ### Reading -/

/-- A digit's value, in base 10 or 16. -/
def digitValue (c : Char) : Option Nat :=
  if '0'.toNat ≤ c.toNat ∧ c.toNat ≤ '9'.toNat then some (c.toNat - '0'.toNat)
  else if 'a'.toNat ≤ c.toNat ∧ c.toNat ≤ 'f'.toNat then some (c.toNat - 'a'.toNat + 10)
  else if 'A'.toNat ≤ c.toNat ∧ c.toNat ≤ 'F'.toNat then some (c.toNat - 'A'.toNat + 10)
  else none

/-- The value of a digit string. -/
def digitsValue (radix : Nat) : List Char → Nat → Option Nat
  | [], acc => some acc
  | c :: rest, acc =>
    match digitValue c with
    | none => none
    | some d => if d < radix then digitsValue radix rest (acc * radix + d) else none

/-- A number: decimal, or hexadecimal with `0x` (30_encoding.md R99). -/
def numberOf : List Char → Option Nat
  | [] => none
  | '0' :: 'x' :: c :: rest => digitsValue 16 (c :: rest) 0
  | cs => digitsValue 10 cs 0

/-- A number below a bound. -/
def numberBelow (bound : Nat) (cs : List Char) : Option Nat :=
  match numberOf cs with
  | none => none
  | some n => if n < bound then some n else none

/-- The words of a line: separated by blanks and commas, ended by the comment sign `;`
(30_encoding.md R99). `word` is the word being read, last character first. -/
def wordsOf : List Char → List Char → List (List Char)
  | [], word => if word.isEmpty then [] else [word.reverse]
  | c :: rest, word =>
    if c = ';' then (if word.isEmpty then [] else [word.reverse])
    else if c = ' ' ∨ c = ',' ∨ c = '\t' then
      (if word.isEmpty then wordsOf rest [] else word.reverse :: wordsOf rest [])
    else wordsOf rest (c :: word)

/-- The item of a list whose text is the given word. -/
def named {α : Type} (text : α → String) (all : List α) (w : List Char) : Option α :=
  all.find? fun x => (text x).toList == w

/-- All protocols (00_scope.md R2). -/
def allProtocols : List Protocol :=
  [.otax, .dio, .homeeasy, .idk, .sumtech, .auchan, .auchan2, .somfy, .blyss]

/-- All commands (00_scope.md R15). -/
def allCommands : List Command := [.off, .on, .groupOff, .groupOn, .prog, .f1, .f2, .f3]

/-- Both buffers. -/
def allBuffers : List BufSel := [.buf0, .buf1]

/-- Both orders. -/
def allOrders : List Order := [.hl, .lh]

/-- A register a `set` line writes (30_encoding.md R106). -/
def settable : List (String × HostReg) :=
  [("a0", .a0), ("a1", .a1), ("a2", .a2), ("a3", .a3), ("a4", .a4), ("a5", .a5), ("a6", .a6),
    ("tcfg.fmt", .tcfgFmt), ("tcfg.start", .tcfgStart), ("tcfg.end", .tcfgEnd),
    ("tcfg.bit0", .tcfgBit0), ("tcfg.bit1", .tcfgBit1), ("tcfg.base", .tcfgBase),
    ("tcfg.fcount", .tcfgFcount)]

/-- A source line (30_encoding.md R99): an operation or a pseudo-instruction. -/
inductive AsmLine where
  | op (i : Instr)
  /-- `set <reg>, <value>` (R106). -/
  | set (r : HostReg) (v : Word)
  /-- `set tcfg, ...` (R107). -/
  | setTcfg (fmt : BitVec 2) (d : Durations) (base fcount : Half)
  /-- `setbuf <buf>, <byte index>, <byte>` (R106). -/
  | setbuf (b : BufSel) (j : Nat) (v : Byte)
  /-- `prep <caps>, <force>` (R108). -/
  | prep (caps : BitVec 3) (force : Bool)
  /-- `fmt.<p>.raw <CMD>, <acc>` (R109). -/
  | fmtRaw (p : Protocol) (cmd : Command) (acc : Byte)
deriving DecidableEq, Repr

/-- The operation of a mnemonic and its operand words (30_encoding.md R100 to R104). -/
def parseOp (ws : List (List Char)) : Option Instr :=
  match ws with
  | [m] => if m = "raw.render".toList then some .rawRender else none
  | [m, x] =>
    if m = "desc.read".toList then
      (named protocolText allProtocols x).map fun p => .descRead (BitVec.ofNat 4 p.id)
    else if m = "st.load".toList then
      (named protocolText allProtocols x).map fun p => .stLoad (BitVec.ofNat 4 p.id)
    else if m = "st.store".toList then
      (named protocolText allProtocols x).map fun p => .stStore (BitVec.ofNat 4 p.id)
    else if m = "bw.low".toList then (named bufText allBuffers x).map .bwLow
    else if m = "bw.high".toList then (named bufText allBuffers x).map .bwHigh
    else if m = "raw.base".toList then
      (numberBelow 256 x).map fun n => .rawBasetime (BitVec.ofNat 8 n)
    else if m = "raw.cvt".toList then
      (numberBelow 256 x).map fun n => .rawConvert (BitVec.ofNat 8 n)
    else
      match named (fun p => "fmt." ++ protocolText p) allProtocols m with
      | none => none
      | some p => (named commandText allCommands x).map (Instr.fmt p)
  | [m, x, y] =>
    if m = "bw.edge".toList then do
      let b ← named bufText allBuffers x
      let o ← named orderText allOrders y
      some (.bwEdge b o)
    else none
  | [m, x, y, z] =>
    if m = "bw.bits".toList then do
      let b ← named bufText allBuffers x
      let zo ← named orderText allOrders y
      let oo ← named orderText allOrders z
      some (.bwBits b oo zo)
    else none
  | _ => none

/-- A 16-bit number. -/
def halfOf (cs : List Char) : Option Half := (numberBelow 0x10000 cs).map (BitVec.ofNat 16)

/-- The registers that a `set` line may write as two halves (30_encoding.md R106). -/
def pairSettable : List HostReg := [.tcfgStart, .tcfgEnd, .tcfgBit0, .tcfgBit1]

/-- The pseudo-instruction of a line (30_encoding.md R106 to R109). -/
def parsePseudo (ws : List (List Char)) : Option AsmLine :=
  match ws with
  | [m, x, y] =>
    if m = "set".toList then do
      let r ← named Prod.fst settable x
      let v ← numberBelow 0x100000000 y
      some (.set r.2 (BitVec.ofNat 32 v))
    else if m = "prep".toList then do
      let caps ← numberBelow 8 x
      let force ← numberBelow 2 y
      some (.prep (BitVec.ofNat 3 caps) (force == 1))
    else
      match named (fun p => "fmt." ++ protocolText p ++ ".raw") allProtocols m with
      | none => none
      | some p => do
        let c ← named commandText allCommands x
        let acc ← numberBelow 256 y
        some (.fmtRaw p c (BitVec.ofNat 8 acc))
  | [m, x, y, z] =>
    if m = "set".toList then do
      let r ← named Prod.fst settable x
      let h ← halfOf y
      let l ← halfOf z
      if r.2 ∈ pairSettable then some (.set r.2 (pairWord h l)) else none
    else if m = "setbuf".toList then do
      let b ← named bufText allBuffers x
      let j ← numberBelow 0x2000 y
      let v ← numberBelow 256 z
      some (.setbuf b j (BitVec.ofNat 8 v))
    else none
  | [m, t, f, sh, sl, eh, el, zh, zl, oh, ol, base, fc] =>
    if m = "set".toList ∧ t = "tcfg".toList then do
      let f ← numberBelow 4 f
      let startH ← halfOf sh
      let startL ← halfOf sl
      let endH ← halfOf eh
      let endL ← halfOf el
      let bit0H ← halfOf zh
      let bit0L ← halfOf zl
      let bit1H ← halfOf oh
      let bit1L ← halfOf ol
      let base ← halfOf base
      let fcount ← halfOf fc
      some (.setTcfg (BitVec.ofNat 2 f)
        { startH, startL, endH, endL, bit0H, bit0L, bit1H, bit1L } base fcount)
    else none
  | _ => none

/-- The meaning of a source line (30_encoding.md R99). -/
def parseLine (line : String) : Option AsmLine :=
  let ws := wordsOf line.toList []
  match parseOp ws with
  | some i => some (.op i)
  | none => parsePseudo ws

/-- The operation word a line assembles to (30_encoding.md R99). -/
def assemble (line : String) : Option Half :=
  match parseLine line with
  | some (.op i) => some (encode i)
  | _ => none

/-! ### Expansion into host acts -/

/-- The map offset of a register (10_state.md R40). -/
def regOffset : HostReg → Nat
  | .opw => 0x00
  | .a0 => 0x04
  | .a1 => 0x08
  | .a2 => 0x0C
  | .a3 => 0x10
  | .a4 => 0x14
  | .a5 => 0x18
  | .a6 => 0x1C
  | .status => 0x20
  | .fault => 0x24
  | .bitcnt => 0x28
  | .res0 => 0x2C
  | .res1 => 0x30
  | .res2 => 0x34
  | .id => 0x38
  | .tcfgFmt => 0x40
  | .tcfgStart => 0x44
  | .tcfgEnd => 0x48
  | .tcfgBit0 => 0x4C
  | .tcfgBit1 => 0x50
  | .tcfgBase => 0x54
  | .tcfgFcount => 0x58
  | .rtcfgFmt => 0x60
  | .rtcfgStart => 0x64
  | .rtcfgEnd => 0x68
  | .rtcfgBit0 => 0x6C
  | .rtcfgBit1 => 0x70
  | .rtcfgBase => 0x74
  | .rtcfgFcount => 0x78

/-- A host write of a whole register. -/
def setReg (r : HostReg) (v : Word) : Input := .write .word (regOffset r) v

/-- The host write that issues an operation. -/
def issue (i : Instr) : Input := issueWord ((encode i).setWidth 32)

/-- `setbuf` writes one buffer byte (30_encoding.md R106). -/
def setByte (b : BufSel) (j : Nat) (v : Byte) : Input :=
  .write .byte (bufferOffset b + j) (v.setWidth 32)

/-- `set tcfg`: seven writes, in the order FMT, START, END, BIT0, BIT1, BASE, FCOUNT
(30_encoding.md R107). -/
def setTimingActs (fmt : BitVec 2) (d : Durations) (base fcount : Half) : List Input :=
  [setReg .tcfgFmt (fmt.setWidth 32), setReg .tcfgStart (pairWord d.startH d.startL),
    setReg .tcfgEnd (pairWord d.endH d.endL), setReg .tcfgBit0 (pairWord d.bit0H d.bit0L),
    setReg .tcfgBit1 (pairWord d.bit1H d.bit1L), setReg .tcfgBase (base.setWidth 32),
    setReg .tcfgFcount (fcount.setWidth 32)]

/-- The operands of a conversion: `set a1` to the bit count and `set a2` to BUF_BYTES
(30_encoding.md R108, R109). -/
def convertSetup (c : Config) (bitCount : Word) : List Input :=
  [setReg .a1 bitCount, setReg .a2 (BitVec.ofNat 32 c.bufBytes)]

/-- A conversion: its operands, then `raw.cvt`. It is what `prep` expands to when it converts (30_encoding.md
R108), and what `fmt.<p>.raw` expands to after its `fmt.<p>` (R109). -/
def convertActs (c : Config) (bitCount : Word) (acc : Byte) : List Input :=
  convertSetup c bitCount ++ [issue (.rawConvert acc)]

/-- `prep` once the host has read `f` from TCFG.FMT and `n` from BITCNT: convert if the format is not RAW
and either RAW is forced or the transport lacks the format (30_encoding.md R108). -/
def prepActs (c : Config) (caps : BitVec 3) (force : Bool) (f : BitVec 2) (n : Word) : List Input :=
  if f ≠ rawTag ∧ (force = true ∨ caps.getLsbD f.toNat = false) then
    convertActs c n c.accuracyDefault
  else []

/-- The host may issue the `raw.cvt` of `fmt.<p>.raw`: the `fmt` ended OK and TCFG.FMT is not RAW
(30_encoding.md R109). -/
def mayConvert (s : State) : Bool :=
  decide (s.status = .ok) && s.fault.isNone && decide (s.tcfg.fmt ≠ some rawTag)

/-- The second part of `fmt.<p>.raw` of a host that keeps its duty, in the state after its `fmt.<p>`: the two
operand writes always, and the `raw.cvt` where it may be issued (30_encoding.md R109). A host that does not keep
it goes on with `convertActs`. -/
def fmtRawTail (s : State) (acc : Byte) : List Input :=
  if mayConvert s then convertActs s.cfg s.bitcntWord acc else convertSetup s.cfg s.bitcntWord

/-- The host acts a line begins with. `prep` begins with its two reads and goes on with `prepActs`;
`fmt.<p>.raw` begins with its `fmt.<p>` and goes on with `fmtRawTail`. -/
def AsmLine.acts : AsmLine → List Input
  | .op i => [issue i]
  | .set r v => [setReg r v]
  | .setTcfg fmt d base fcount => setTimingActs fmt d base fcount
  | .setbuf b j v => [setByte b j v]
  | .prep _ _ => [.read .word (regOffset .tcfgFmt), .read .word (regOffset .bitcnt)]
  | .fmtRaw p cmd _ => [issue (Instr.fmt p cmd)]

end Sys2Proof.Machine
end

