-- ==== Sys2Proof/Safety.lean ====
section
/-! DEFINITION. What claims call a legal state, a legal input and a safe outcome. -/

namespace Sys2Proof.Machine

/-- RTCFG is ⊥ as a whole or holds a RAW TimingConfig as a whole: only RAW.RENDER and RAW.CONVERT write it
(10_state.md R31, 44_raw_engine.md R210). -/
def TimingRegs.rawOrUnwritten (t : TimingRegs) : Prop :=
  t = TimingRegs.unwritten ∨ ∃ base fcount : Half, t = rawTiming base fcount

/-- A split FMT is only there when the medium is shared, on a block that has not faulted, for a frame that
fits BUF0, with a command its codec accepts (20_memory.md R76, 60_exceptions.md R247, 41_codec_common.md
R129). -/
def FmtJob.legal (j : FmtJob) (s : State) : Prop :=
  s.cfg.storeShared = true ∧ s.fault = none
    ∧ frameBits s.cfg j.codec.protocol ≤ 8 * s.cfg.bufBytes
    ∧ j.cmd ∈ accepted j.codec.protocol

/-- What holds of the machine at reset and is kept by every step. -/
structure State.Inv (s : State) : Prop where
  /-- The parameters pass the configuration check (00_scope.md R9). -/
  cfg : s.cfg.wf = true
  /-- The buffers are in canonical form and list no bit beyond 8*BUF_BYTES (10_state.md R35). -/
  buf0 : Memory.wf s.cfg.bufBytes s.buf0 = true
  buf1 : Memory.wf s.cfg.bufBytes s.buf1 = true
  /-- The replay store is in canonical form. -/
  store : ReplayStore.wf s.store = true
  /-- BITCNT never exceeds the physical capacity (10_state.md R34). -/
  bitcnt : s.bitcnt.toNat ≤ 8 * s.cfg.bufBytes
  /-- RTCFG is ⊥ or RAW. -/
  rtcfg : s.rtcfg.rawOrUnwritten
  /-- A split FMT is legal. -/
  pending : ∀ j, s.pending = some j → j.legal s

/-- An input of the interface: a host access of one of the two shapes (20_memory.md R65), among the 32-bit ones
those at a reserved offset, to which 10_state.md R40 gives an effect (log 10); RESET; or an act of the environment
the configuration allows (20_memory.md R76). -/
def Input.legal (c : Config) : Input → Bool
  | .write w offset _ => (hostTarget c.bufBytes w offset).isSome
  | .read w offset => (hostTarget c.bufBytes w offset).isSome
  | .reset => true
  | .otherWrite _ _ => c.storeShared
  | .eraseMedium => true
  | .idle => true

/-- An outcome in which the machine goes on. -/
def goesOn (o : Host.Outcome State Fault Refusal) : Bool :=
  match o with
  | .next _ => true
  | .fault _ => false
  | .refused _ => false

/-! ### Terms the statements use -/

/-- A block that takes the host's next operation: configured, not faulted, between operations. -/
def State.ready (s : State) : Bool := s.cfg.wf && s.fault.isNone && s.pending.isNone

/-- The next `n` store accesses succeed (10_state.md R39). -/
def State.grants : Nat → State → Bool
  | 0, _ => true
  | n + 1, s => s.nextAnswer && State.grants n s.takeAnswer

/-- The reserved encodings, field by field (30_encoding.md R87 to R92, R96), for a value written to OPW. -/
def reservedEncoding (v : Word) : Bool :=
  let opClass := v.toNat / 4096 % 16
  let sel := v.toNat / 256 % 16
  let arg := v.toNat % 256
  decide (v.toNat / 65536 ≠ 0)
    || match opClass with
      | 1 => decide (8 < sel) || decide (arg / 8 ≠ 0)
      | 2 => decide (8 < sel) || decide (arg ≠ 0)
      | 3 =>
        match sel with
        | 0 | 1 => decide (arg % 128 ≠ 0)
        | 2 => decide (arg / 2 % 64 ≠ 0)
        | 3 => decide (arg / 4 % 32 ≠ 0)
        | _ => true
      | 4 =>
        match sel with
        | 0 | 2 => false
        | 1 => decide (arg ≠ 0)
        | _ => true
      | 5 => decide (1 < sel) || decide (arg / 16 ≠ 0)
      | _ => true

/-- Every register an operation reads holds a value (30_encoding.md R95, 41_codec_common.md R142). -/
def operandsWritten (s : State) : Instr → Bool
  | .fmtOtax _ | .fmtDio _ | .fmtHomeeasy _ | .fmtSumtech _ | .fmtAuchan _ | .fmtAuchan2 _
  | .fmtSomfy _ | .fmtBlyss _ => s.a0.isSome && s.a1.isSome && s.a2.isSome
  | .fmtIdk _ => s.a1.isSome && s.a2.isSome
  | .descRead _ => true
  | .bwLow _ | .bwHigh _ => s.a0.isSome && s.a1.isSome
  | .bwEdge _ _ => s.a0.isSome && s.a1.isSome && s.a2.isSome
  | .bwBits _ _ _ =>
    s.a0.isSome && s.a1.isSome && s.a2.isSome && s.a3.isSome && s.a4.isSome && s.a5.isSome
      && s.a6.isSome
  | .rawBasetime _ =>
    s.tcfg.fmt.isSome && s.tcfg.start.isSome && s.tcfg.stop.isSome && s.tcfg.bit0.isSome
      && s.tcfg.bit1.isSome
  | .rawRender =>
    s.tcfg.fmt.isSome && s.tcfg.start.isSome && s.tcfg.stop.isSome && s.tcfg.bit0.isSome
      && s.tcfg.bit1.isSome && s.tcfg.fcount.isSome && s.a0.isSome && s.a1.isSome && s.a2.isSome
  | .rawConvert _ =>
    s.tcfg.fmt.isSome && s.tcfg.start.isSome && s.tcfg.stop.isSome && s.tcfg.bit0.isSome
      && s.tcfg.bit1.isSome && s.tcfg.fcount.isSome && s.a1.isSome && s.a2.isSome
  | .stLoad _ => s.a0.isSome && s.a1.isSome
  | .stStore _ => s.a0.isSome && s.a1.isSome && s.a2.isSome

/-- The level at place `q` of an edge pattern (40_bitwriter.md R113): High first with HL, Low first with
LH, each run of its own length. -/
def edgeLevel (o : Order) (h l q : Nat) : Bool :=
  match o with
  | .hl => decide (q < h)
  | .lh => decide (l ≤ q)

/-- The codecs that do not use the store (41_codec_common.md R135). -/
def statelessCodec : Protocol → Bool
  | .otax | .dio | .homeeasy | .idk | .sumtech | .auchan | .auchan2 => true
  | .somfy | .blyss => false

/-- From `s` to `t` a FMT of protocol `p` wrote the `n`-bit frame `f`: BUF0 bits [0, n), BITCNT, TCFG and
STATUS, and nothing else (41_codec_common.md R129, R133). -/
def WritesFrame (s t : State) (p : Protocol) (n : Nat) (f : Nat → Bool) : Prop :=
  t = { s with
    buf0 := t.buf0
    bitcnt := BitVec.ofNat 16 n
    tcfg := timingOf s.cfg p
    status := .ok }
  ∧ (∀ k, k < n → Memory.read t.buf0 k = some (f k))
  ∧ ∀ k, n ≤ k → Memory.read t.buf0 k = Memory.read s.buf0 k

/-- `b` holds the seven plain Somfy bytes: key, command nibble, counter and device big-endian, and the XOR
of all fourteen nibbles is 0, which fixes the checksum nibble (43_codecs_rolling.md R181, R182). -/
def IsSomfyPayload (r d : Word) (code : BitVec 4) (v : Half) (b : Nat → Byte) : Prop :=
  b 0 = r.extractLsb' 0 8
  ∧ (b 1).extractLsb' 4 4 = code
  ∧ b 2 = v.extractLsb' 8 8
  ∧ b 3 = v.extractLsb' 0 8
  ∧ b 4 = d.extractLsb' 16 8
  ∧ b 5 = d.extractLsb' 8 8
  ∧ b 6 = d.extractLsb' 0 8
  ∧ (List.range 7).foldl
      (fun acc i => acc ^^^ (b i).extractLsb' 4 4 ^^^ (b i).extractLsb' 0 4) (0 : BitVec 4) = 0

/-- Bit `k` of the whitened payload: whitened byte i is the XOR of the plain bytes 0 to i
(43_codecs_rolling.md R183). -/
def somfyWhite (b : Nat → Byte) (k : Nat) : Bool :=
  ((List.range (k / 8 + 1)).foldl (fun acc i => acc ^^^ b i) (0 : Byte)).getLsbD (7 - k % 8)

/-- The level at tick `q` of a Somfy frame that carries the whitened bits `w`: the sync bursts, the burst
before the data, two ticks for each bit, and the gap (43_codecs_rolling.md R184, R185). -/
def somfyLevel (c : Config) (first : Bool) (w : Nat → Bool) (q : Nat) : Bool :=
  let long := if first then c.somfyLongH + c.somfyLongL else 0
  let short := c.somfyShortH + c.somfyShortL
  let sw := long + (if first then 2 else 7) * short
  let data := sw + c.somfySwH + c.somfySwL
  if q < long then decide (q < c.somfyLongH)
  else if q < sw then decide ((q - long) % short < c.somfyShortH)
  else if q < data then decide (q - sw < c.somfySwH)
  else if q < data + 112 then (w ((q - data) / 2) == decide ((q - data) % 2 = 1))
  else false

/-- A rendering request: the order, the four duration registers, the frame count, the source bits and their
number, and the data length (44_raw_engine.md R211). -/
structure RenderCase where
  order : Order
  start : Word
  stop : Word
  bit0 : Word
  bit1 : Word
  fcount : Half
  count : Word
  dataLen : Word
  source : Nat → Bool

/-- The High ticks of a duration register at quantum `base`: `RND(x, base)` (44_raw_engine.md R206). -/
def highTicks (base : Nat) (w : Word) : Nat := (w.toNat / 65536 + base / 2) / base

/-- The Low ticks of a duration register at quantum `base` (44_raw_engine.md R206). -/
def lowTicks (base : Nat) (w : Word) : Nat := (w.toNat % 65536 + base / 2) / base

/-- Ticks of a duration register, High and Low together. -/
def pairTicks (base : Nat) (w : Word) : Nat := highTicks base w + lowTicks base w

/-- Neither duration of the register is nonzero and rounds to 0 ticks (44_raw_engine.md R207). -/
def representable (base : Nat) (w : Word) : Prop :=
  (w.toNat / 65536 ≠ 0 → highTicks base w ≠ 0) ∧ (w.toNat % 65536 ≠ 0 → lowTicks base w ≠ 0)

/-- The register that gives source bit `k` its edge pattern. -/
def RenderCase.bitWord (c : RenderCase) (k : Nat) : Word := if c.source k then c.bit1 else c.bit0

/-- Where the pattern of source bit `k` begins; for `k` the number of bits, where the end edge begins
(44_raw_engine.md R209). -/
def RenderCase.place (c : RenderCase) (base k : Nat) : Nat :=
  pairTicks base c.start + ∑ j ∈ Finset.range k, pairTicks base (c.bitWord j)

/-- `L` (44_raw_engine.md R208). -/
def RenderCase.length (c : RenderCase) (base : Nat) : Nat :=
  c.place base c.count.toNat + pairTicks base c.stop

/-- `s` holds the request: TCFG, A1, A2 and the source bits of BUF0. -/
def RenderCase.holds (c : RenderCase) (s : State) : Prop :=
  s.tcfg.fmt = some (tagOfOrder c.order)
  ∧ s.tcfg.start = some c.start
  ∧ s.tcfg.stop = some c.stop
  ∧ s.tcfg.bit0 = some c.bit0
  ∧ s.tcfg.bit1 = some c.bit1
  ∧ s.tcfg.fcount = some c.fcount
  ∧ s.a1 = some c.count
  ∧ s.a2 = some c.dataLen
  ∧ ∀ k, k < c.count.toNat → Memory.read s.buf0 k = some (c.source k)

/-- The request can be rendered at quantum `base`: legal operands, every nonzero duration representable, and
a length that fits (44_raw_engine.md R207, R208, R211). -/
def RenderCase.fits (c : RenderCase) (base : Nat) (s : State) : Prop :=
  0 < base ∧ base ≤ 0xFFFF
  ∧ c.dataLen.toNat ≤ s.cfg.bufBytes
  ∧ c.count.toNat ≤ 8 * s.cfg.bufBytes
  ∧ representable base c.start ∧ representable base c.stop
  ∧ representable base c.bit0 ∧ representable base c.bit1
  ∧ c.length base ≤ 8 * c.dataLen.toNat
  ∧ c.length base ≤ 65535

/-- From `s` to `t` the rendering at quantum `base` was written: BUF1 bits [0, L) hold the start edge, each
source bit's edge pattern and the end edge, all in one order, and BITCNT, RTCFG and STATUS are written; RES0
becomes `res0`; nothing else changes (44_raw_engine.md R209, R210, R211). -/
def RenderCase.rendered (c : RenderCase) (base : Nat) (res0 : Word) (s t : State) : Prop :=
  t = { s with
    buf1 := t.buf1
    bitcnt := BitVec.ofNat 16 (c.length base)
    rtcfg := { fmt := some 2, start := some 0, stop := some 0, bit0 := some 0, bit1 := some 0,
               base := some (BitVec.ofNat 16 base), fcount := some c.fcount }
    res0 := res0
    status := .ok }
  ∧ (∀ q, q < pairTicks base c.start →
      Memory.read t.buf1 q
        = some (edgeLevel c.order (highTicks base c.start) (lowTicks base c.start) q))
  ∧ (∀ k q, k < c.count.toNat → q < pairTicks base (c.bitWord k) →
      Memory.read t.buf1 (c.place base k + q)
        = some (edgeLevel c.order (highTicks base (c.bitWord k)) (lowTicks base (c.bitWord k)) q))
  ∧ (∀ q, q < pairTicks base c.stop →
      Memory.read t.buf1 (c.place base c.count.toNat + q)
        = some (edgeLevel c.order (highTicks base c.stop) (lowTicks base c.stop) q))
  ∧ ∀ k, c.length base ≤ k → Memory.read t.buf1 k = Memory.read s.buf1 k

/-- `s` with the result registers and TCFG of a descriptor read, and status OK (41_codec_common.md R141). -/
def withDescriptor (s : State) (r0 r1 r2 : Word) (timing : TimingRegs) : State :=
  { s with res0 := r0, res1 := r1, res2 := r2, tcfg := timing, status := .ok }

/-- The bits of a register the host can write (10_state.md R30, R40); none of a read-only one. -/
def writableMask : HostReg → Word
  | .a0 | .a1 | .a2 | .a3 | .a4 | .a5 | .a6 => 0xFFFFFFFF
  | .tcfgStart | .tcfgEnd | .tcfgBit0 | .tcfgBit1 => 0xFFFFFFFF
  | .tcfgFmt => 0x3
  | .tcfgBase | .tcfgFcount => 0xFFFF
  | .opw | .status | .fault | .bitcnt | .res0 | .res1 | .res2 | .id => 0
  | .rtcfgFmt | .rtcfgStart | .rtcfgEnd | .rtcfgBit0 | .rtcfgBit1 | .rtcfgBase | .rtcfgFcount => 0

/-- An operand an operation reads holds a reserved value (30_encoding.md R97). -/
def reservedOperand (s : State) : Instr → Bool
  | .fmtOtax _ | .fmtDio _ | .fmtHomeeasy _ | .fmtIdk _ | .fmtSumtech _ | .fmtAuchan _ | .fmtAuchan2 _
  | .fmtSomfy _ | .fmtBlyss _ => s.a2.any fun dl => decide (s.cfg.bufBytes < dl.toNat)
  | .descRead _ | .bwLow _ | .bwHigh _ | .bwEdge _ _ => false
  | .bwBits _ _ _ => s.a2.any fun len => decide (32 < len.toNat)
  | .rawBasetime acc => decide (100 < acc.toNat)
  | .rawRender =>
    (s.a0.any fun base => decide (0xFFFF < base.toNat))
      || (s.a1.any fun n => decide (8 * s.cfg.bufBytes < n.toNat))
      || (s.a2.any fun dl => decide (s.cfg.bufBytes < dl.toNat))
  | .rawConvert acc =>
    decide (100 < acc.toNat)
      || (s.a1.any fun n => decide (8 * s.cfg.bufBytes < n.toNat))
      || (s.a2.any fun dl => decide (s.cfg.bufBytes < dl.toNat))
  | .stLoad ns => decide (8 < ns.toNat)
  | .stStore ns => decide (8 < ns.toNat) || (s.a2.any fun v => decide (0xFFFF < v.toNat))

/-- The units of the block that run operations (30_encoding.md R87). -/
inductive OpUnit where
  | format | descriptor | bitWriter | raw | replay
deriving DecidableEq, Repr

/-- The unit an operation runs on (30_encoding.md R87, R93). -/
def unitOf : Instr → OpUnit
  | .fmtOtax _ | .fmtDio _ | .fmtHomeeasy _ | .fmtIdk _ | .fmtSumtech _ | .fmtAuchan _ | .fmtAuchan2 _
  | .fmtSomfy _ | .fmtBlyss _ => .format
  | .descRead _ => .descriptor
  | .bwLow _ | .bwHigh _ | .bwEdge _ _ | .bwBits _ _ _ => .bitWriter
  | .rawBasetime _ | .rawRender | .rawConvert _ => .raw
  | .stLoad _ | .stStore _ => .replay

/-- The store key an operation names, none if it names none (41_codec_common.md R136, 45_replay_store.md
R228, R229). -/
def storeKeyOf (s : State) : Instr → Option StoreKey
  | .fmtOtax _ | .fmtDio _ | .fmtHomeeasy _ | .fmtIdk _ | .fmtSumtech _ | .fmtAuchan _
  | .fmtAuchan2 _ => none
  | .fmtSomfy _ => (s.operands01).map fun o => ⟨.somfy, o.1, o.2⟩
  | .fmtBlyss _ => (s.operands01).map fun o => ⟨.blyss, o.1, o.2⟩
  | .descRead _ | .bwLow _ | .bwHigh _ | .bwEdge _ _ | .bwBits _ _ _ => none
  | .rawBasetime _ | .rawRender | .rawConvert _ => none
  | .stLoad ns | .stStore ns =>
    match Protocol.ofId ns with
    | none => none
    | some p => (s.operands01).map fun o => ⟨p, o.1, o.2⟩

/-- From `s` to `t` a BW operation wrote `n` bits at `off` of buffer `b`, bit `q` of them `f q`, and RES0 and
STATUS, and nothing else (40_bitwriter.md R111, R118). -/
def WritesRun (s t : State) (b : BufSel) (off n : Nat) (f : Nat → Bool) : Prop :=
  t = { s.withBuffer b (t.buffer b) with res0 := BitVec.ofNat 32 n, status := .ok }
  ∧ (∀ q, q < n → Memory.read (t.buffer b) (off + q) = some (f q))
  ∧ ∀ k, k < off ∨ off + n ≤ k → Memory.read (t.buffer b) k = Memory.read (s.buffer b) k

/-- The operands of BW.BITS: the pattern of a 0 bit and of a 1 bit (40_bitwriter.md R117). -/
structure BitsCase where
  off : Word
  data : Word
  len : Word
  zeroOrder : Order
  zeroH : Word
  zeroL : Word
  oneOrder : Order
  oneH : Word
  oneL : Word

/-- `s` holds the operands in A0 to A6. -/
def BitsCase.holds (c : BitsCase) (s : State) : Prop :=
  s.a0 = some c.off ∧ s.a1 = some c.data ∧ s.a2 = some c.len ∧ s.a3 = some c.zeroH
  ∧ s.a4 = some c.zeroL ∧ s.a5 = some c.oneH ∧ s.a6 = some c.oneL

/-- Data bit `i` in emission order: the most significant of the low `len` bits first. -/
def BitsCase.bit (c : BitsCase) (i : Nat) : Bool := c.data.getLsbD (c.len.toNat - 1 - i)

/-- The length of the pattern of data bit `i`. -/
def BitsCase.size (c : BitsCase) (i : Nat) : Nat :=
  if c.bit i then c.oneH.toNat + c.oneL.toNat else c.zeroH.toNat + c.zeroL.toNat

/-- Where the pattern of data bit `i` begins, relative to `off`; for `i = len`, the total. -/
def BitsCase.place (c : BitsCase) (i : Nat) : Nat := ∑ j ∈ Finset.range i, c.size j

/-- How many bits the operation writes. -/
def BitsCase.total (c : BitsCase) : Nat := c.place c.len.toNat

/-- The level at place `q` of the pattern of data bit `i`. -/
def BitsCase.level (c : BitsCase) (i q : Nat) : Bool :=
  if c.bit i then edgeLevel c.oneOrder c.oneH.toNat c.oneL.toNat q
  else edgeLevel c.zeroOrder c.zeroH.toNat c.zeroL.toNat q

/-- The registers of the map and their offsets (10_state.md R40). -/
def registerMap : List (Nat × HostReg) :=
  [(0x00, .opw), (0x04, .a0), (0x08, .a1), (0x0C, .a2), (0x10, .a3), (0x14, .a4), (0x18, .a5),
   (0x1C, .a6), (0x20, .status), (0x24, .fault), (0x28, .bitcnt), (0x2C, .res0), (0x30, .res1),
   (0x34, .res2), (0x38, .id)]
  ++ [(0x40, .tcfgFmt), (0x44, .tcfgStart), (0x48, .tcfgEnd), (0x4C, .tcfgBit0), (0x50, .tcfgBit1),
   (0x54, .tcfgBase), (0x58, .tcfgFcount)]
  ++ [(0x60, .rtcfgFmt), (0x64, .rtcfgStart), (0x68, .rtcfgEnd), (0x6C, .rtcfgBit0),
   (0x70, .rtcfgBit1), (0x74, .rtcfgBase), (0x78, .rtcfgFcount)]

/-- `d` is what the host reads at the register's offset, for a register that holds a value (10_state.md R24 to
R32, R40, 60_exceptions.md R241, R246) The reserved bits 31 to 16 of OPW's slot read as 0
(log 9). -/
def ReadsAs (s : State) (d : Word) : HostReg → Prop
  | .opw => d.toNat = s.opw.toNat
  | .a0 => ∀ v, s.a0 = some v → d = v
  | .a1 => ∀ v, s.a1 = some v → d = v
  | .a2 => ∀ v, s.a2 = some v → d = v
  | .a3 => ∀ v, s.a3 = some v → d = v
  | .a4 => ∀ v, s.a4 = some v → d = v
  | .a5 => ∀ v, s.a5 = some v → d = v
  | .a6 => ∀ v, s.a6 = some v → d = v
  | .status => (s.status, d) ∈ [(Status.ok, (0 : Word)), (.unsupportedCommand, 1), (.bufferTooSmall, 2),
      (.storeUnavailable, 3), (.timingUnsupported, 4), (.illegalOperation, 5)]
  | .fault => (s.fault, d) ∈ [(none, (0 : Word)), (some .unwrittenRead, 3), (some .outOfBounds, 5)]
  | .bitcnt => d.toNat = s.bitcnt.toNat
  | .res0 => d = s.res0
  | .res1 => d = s.res1
  | .res2 => d = s.res2
  | .id => d = 0x52464307
  | .tcfgFmt => ∀ v, s.tcfg.fmt = some v → d.toNat = v.toNat
  | .tcfgStart => ∀ v, s.tcfg.start = some v → d = v
  | .tcfgEnd => ∀ v, s.tcfg.stop = some v → d = v
  | .tcfgBit0 => ∀ v, s.tcfg.bit0 = some v → d = v
  | .tcfgBit1 => ∀ v, s.tcfg.bit1 = some v → d = v
  | .tcfgBase => ∀ v, s.tcfg.base = some v → d.toNat = v.toNat
  | .tcfgFcount => ∀ v, s.tcfg.fcount = some v → d.toNat = v.toNat
  | .rtcfgFmt => ∀ v, s.rtcfg.fmt = some v → d.toNat = v.toNat
  | .rtcfgStart => ∀ v, s.rtcfg.start = some v → d = v
  | .rtcfgEnd => ∀ v, s.rtcfg.stop = some v → d = v
  | .rtcfgBit0 => ∀ v, s.rtcfg.bit0 = some v → d = v
  | .rtcfgBit1 => ∀ v, s.rtcfg.bit1 = some v → d = v
  | .rtcfgBase => ∀ v, s.rtcfg.base = some v → d.toNat = v.toNat
  | .rtcfgFcount => ∀ v, s.rtcfg.fcount = some v → d.toNat = v.toNat

/-- The quantum of eight durations from their floor: each H/L pair, start with end, bit 0 with bit 1, then
those two (44_raw_engine.md R203). -/
def quantumFrom (start stop bit0 bit1 : Word) (fl : Nat) : Nat :=
  let pair := fun w : Word => tolerantGcd (w.toNat / 65536) (w.toNat % 65536) fl
  tolerantGcd (tolerantGcd (pair start) (pair stop) fl) (tolerantGcd (pair bit0) (pair bit1) fl) fl

/-- The eight durations of four register words (10_state.md R30). -/
def durationList (start stop bit0 bit1 : Word) : List Nat :=
  [start, stop, bit0, bit1].flatMap fun w => [w.toNat / 65536, w.toNat % 65536]

/-- `m` is the smallest nonzero member of `l` (44_raw_engine.md R202). -/
def IsSmallestNonzero (l : List Nat) (m : Nat) : Prop := m ∈ l ∧ m ≠ 0 ∧ ∀ x ∈ l, x ≠ 0 → m ≤ x

end Sys2Proof.Machine
end

