-- ==== Sys2Proof/Certificates/Slice0/Obligations.lean ====
section
/-! DEFINITION. The statements about the model. -/

open Sys2Proof Sys2Proof.Machine

/-! ### Encoding -/

/-- Decoding the word a well-formed operation encodes to gives it back, with every operand at every value
(30_encoding.md R86 to R94). -/
def Obligations.DecodeUndoesEncode : Prop :=
  ∀ i : Instr, i.wellFormed = true → decode ((encode i).setWidth 32) = .instr i

/-- A value the decoder accepts is the word of a well-formed operation, and of that one only: no bit is
dropped (30_encoding.md R86 to R94). -/
def Obligations.EncodeUndoesDecode : Prop :=
  ∀ (v : Word) (i : Instr), decode v = .instr i →
    i.wellFormed = true ∧ (encode i).setWidth 32 = v

/-- 30_encoding.md R93: a word selects the operation of a row exactly when its masked bits are the row's
match value and, for DESC.READ, SEL is at most 8; a word that selects none is a reserved encoding. -/
def Obligations.OpcodeTableSelectsTheOperation : Prop :=
  (∀ (w : Half) (i : Instr),
    (∃ j, decode (w.setWidth 32) = .instr j ∧ j.row = i.row)
      ↔ w &&& i.row.mask = i.row.pattern
        ∧ (w.toNat / 4096 = 2 → w.toNat / 256 % 16 ≤ 8))
  ∧ ∀ w : Half,
    (∀ i : Instr, w &&& i.row.mask = i.row.pattern → w.toNat / 4096 = 2 ∧ 8 < w.toNat / 256 % 16) →
    ∃ why, decode (w.setWidth 32) = .reserved why

/-- Words written out from the encodings decode to the operations they stand for (30_encoding.md R88 to
R92, R100 to R104). -/
def Obligations.WrittenOutWordsDecode : Prop :=
  decode 0x1001 = .instr (.fmtOtax .on)
  ∧ decode 0x1806 = .instr (.fmtBlyss .f2)
  ∧ decode 0x2700 = .instr (.descRead 7)
  ∧ decode 0x3180 = .instr (.bwHigh .buf1)
  ∧ decode 0x3301 = .instr (.bwBits .buf0 .hl .lh)
  ∧ decode 0x3382 = .instr (.bwBits .buf1 .lh .hl)
  ∧ decode 0x405A = .instr (.rawBasetime 90)
  ∧ decode 0x425A = .instr (.rawConvert 90)
  ∧ decode 0x5008 = .instr (.stLoad 8)
  ∧ decode 0x5107 = .instr (.stStore 7)

/-- The examples of the assembler syntax (30_encoding.md R100 to R105). -/
def Obligations.AssemblerExamplesAssemble : Prop :=
  assemble "fmt.otax ON" = some 0x1001
  ∧ assemble "desc.read somfy" = some 0x2700
  ∧ assemble "bw.bits b0, LH, HL" = some 0x3301
  ∧ assemble "raw.cvt 90" = some 0x425A
  ∧ assemble "st.load blyss" = some 0x5008
  ∧ disassemble 0x1900 = ".illegal 0x1900"

/-- 30_encoding.md R96: writing a reserved encoding to OPW ends ILLEGAL_OPERATION; nothing else changes but
OPW, which holds a 16-bit value as written (10_state.md R25), and no operand register need hold one. Every other
value is an operation. -/
def Obligations.ReservedEncodingsEndIllegalOperation : Prop :=
  (∀ (s : State) (v : Word) (rest : List Input),
    s.ready = true → s.inbox = issueWord v :: rest → reservedEncoding v = true →
    ∃ w, step s = .next { s with inbox := rest, opw := w, status := .illegalOperation }
      ∧ (v.toNat < 2 ^ 16 → w.toNat = v.toNat))
  ∧ ∀ v : Word, reservedEncoding v = false → ∃ i, decode v = .instr i

/-! ### Steps -/

/-- A step runs the decoded operation: the host's write of an operation word to OPW, which has 16 bits, stores the
word and then does what the operation does (10_state.md R25). -/
def Obligations.OpwWriteRunsTheDecodedOperation : Prop :=
  ∀ (s : State) (v : Word) (rest : List Input) (i : Instr),
    s.ready = true → s.inbox = issueWord v :: rest → decode v = .instr i →
    v.toNat < 2 ^ 16 ∧ step s = exec i { s with inbox := rest, opw := v.setWidth 16 }

/-- 60_exceptions.md R247: on a faulted block a write to OPW is stored, a 16-bit value as it was written, and starts
nothing, and no step of any kind but RESET clears the fault or writes STATUS, BITCNT, RTCFG or a result register.
That the machine goes on is the model's choice (log 7). -/
def Obligations.FaultedBlockStaysQuiescent : Prop :=
  (∀ (s : State) (v : Word) (rest : List Input),
    s.cfg.wf = true → s.fault ≠ none → s.pending = none → s.inbox = issueWord v :: rest →
    ∃ w, step s = .next { s with inbox := rest, opw := w } ∧ (v.toNat < 2 ^ 16 → w.toNat = v.toNat))
  ∧ ∀ s t : State, s.fault ≠ none → s.pending = none → step s = .next t →
    (∃ rest, s.inbox = .reset :: rest)
    ∨ (t.fault = s.fault ∧ t.status = s.status ∧ t.bitcnt = s.bitcnt ∧ t.rtcfg = s.rtcfg
      ∧ t.res0 = s.res0 ∧ t.res1 = s.res1 ∧ t.res2 = s.res2)

/-- 70_reset_and_hazards.md R271: RESET sets every piece of block state as the table says in one step, leaves
the replay store and the parameters, and is the only way out of the fault state. -/
def Obligations.ResetSetsTheTable : Prop :=
  (∀ (s : State) (rest : List Input),
    s.cfg.wf = true → s.pending = none → s.inbox = .reset :: rest →
    ∃ t, step s = .next t ∧ t.opw = 0
      ∧ t.a0 = none ∧ t.a1 = none ∧ t.a2 = none ∧ t.a3 = none ∧ t.a4 = none ∧ t.a5 = none ∧ t.a6 = none
      ∧ t.statusWord = 0 ∧ t.faultWord = 0 ∧ t.bitcnt = 0 ∧ t.res0 = 0 ∧ t.res1 = 0 ∧ t.res2 = 0
      ∧ (∀ free, t.regWord free .id = 0x52464307)
      ∧ t.tcfg = TimingRegs.unwritten ∧ t.rtcfg = TimingRegs.unwritten
      ∧ (∀ k, Memory.read t.buf0 k = none) ∧ (∀ k, Memory.read t.buf1 k = none)
      ∧ t.store = s.store ∧ t.cfg = s.cfg)
  ∧ ∀ s t : State, s.fault ≠ none → t.fault = none → step s = .next t →
    ∃ rest, s.inbox = .reset :: rest

/-- The invariant holds of the machine right after reset (10_state.md R35, 70_reset_and_hazards.md R271). The
canonical forms and the configuration check are the model's choices, and the parameters at reset are the spec's
defaults (logs 4, 15, 18). -/
def Obligations.InvariantHoldsAtReset : Prop := State.reset.Inv

/-- Every step keeps the invariant: buffers and store in canonical form and inside their bounds, BITCNT
within the capacity, RTCFG ⊥ or RAW, a split FMT legal (10_state.md R31, R34, R35, R36; logs 15, 18). -/
def Obligations.StepKeepsInvariant : Prop :=
  ∀ s t : State, s.Inv → step s = .next t → t.Inv

/-- On a legal configuration and legal inputs the machine never stops, whatever the host asks of it
(60_exceptions.md R249, 70_reset_and_hazards.md R284). That a fault of the block is a next state, that a 32-bit
access at a reserved offset is legal, and the environment's acts are the model's choices (logs 7, 10, 11, 13). -/
def Obligations.LegalInputsNeverStopTheMachine : Prop :=
  ∀ (n : Nat) (s : State), s.cfg.wf = true → (∀ i ∈ s.inbox, i.legal s.cfg = true) →
    ∃ t, Host.Core.run Sys2Proof.core n s = .next t

/-- 00_scope.md R9: a parameter set that breaks either Somfy equation is refused by the configuration
check. -/
def Obligations.BrokenSomfyEquationsAreRefused : Prop :=
  ∀ s : State,
    (s.cfg.somfyLongH + s.cfg.somfyLongL + 2 * (s.cfg.somfyShortH + s.cfg.somfyShortL)
        + s.cfg.somfySwH + s.cfg.somfySwL + 112 + s.cfg.somfyGap ≠ 213
      ∨ 7 * (s.cfg.somfyShortH + s.cfg.somfyShortL) + s.cfg.somfySwH + s.cfg.somfySwL + 112
        + s.cfg.somfyGap ≠ 225) →
    step s = .refused .badConfiguration

/-! ### The host's accesses -/

/-- 20_memory.md R65: a 32-bit access at a register and a byte access at a buffer byte are the interface; a
misaligned 32-bit access, a 16-bit access, a multi-byte buffer access and a byte access anywhere but at a buffer
byte are refused. The one access this leaves out, an aligned 32-bit one at a reserved offset, has the effect
10_state.md R40 gives it, in `ReservedOffsetsReadZero` (log 10). -/
def Obligations.OtherAccessShapesAreRefused : Prop :=
  (∀ (s : State) (w : AccessWidth) (offset : Nat) (v : Word) (rest : List Input) (i : Input),
    s.cfg.wf = true → s.pending = none → s.inbox = i :: rest →
    i = .write w offset v ∨ i = .read w offset →
    w = .half
      ∨ (w = .word ∧ offset % 4 ≠ 0)
      ∨ (w = .word ∧ ∃ b j, j < s.cfg.bufBytes ∧ offset = bufferOffset b + j)
      ∨ (w = .byte ∧ ∀ b j, j < s.cfg.bufBytes → offset ≠ bufferOffset b + j) →
    step s = .refused .accessShape)
  ∧ ∀ (s : State) (offset : Nat) (v : Word) (rest : List Input) (i : Input),
    s.cfg.wf = true → s.pending = none → s.inbox = i :: rest →
    ((i = .write .word offset v ∨ i = .read .word offset) ∧ ∃ p ∈ registerMap, offset = p.1)
      ∨ ((i = .write .byte offset v ∨ i = .read .byte offset)
        ∧ ∃ b j, j < s.cfg.bufBytes ∧ offset = bufferOffset b + j) →
    ∃ t, step s = .next t

/-- What the host reads at each offset of the map, and what writing there first changes (10_state.md R24 to R32,
R40, 60_exceptions.md R241, R246). A read returns the register's value, each STATUS and FAULT code as its number,
ID as its constant, OPW its 16 bits zero-extended: that the reserved bits 31 to 16 of OPW's slot read as 0, also
after a write with a nonzero upper half, is the model's choice (log 9). A write then a read returns what was
written, in the bits a writable register holds, and changes no other register; a write to a read-only register is
ignored. OPW, whose write starts an operation, reads back the operation word, on a medium that is not shared (on a
shared one a split FMT stands between, log 11). -/
def Obligations.HostRegisterWriteThenRead : Prop :=
  (∀ (s : State) (p : Nat × HostReg) (rest : List Input),
    s.cfg.wf = true → s.pending = none → p ∈ registerMap → s.inbox = .read .word p.1 :: rest →
    ∃ d, step s = .next { s with inbox := rest, hostData := some d, draws := s.draws + 1 }
      ∧ ReadsAs s d p.2)
  ∧ (∀ (s : State) (p : Nat × HostReg) (v : Word) (rest : List Input),
    s.cfg.wf = true → s.pending = none → p ∈ registerMap → p.2 ≠ .opw →
    s.inbox = .write .word p.1 v :: .read .word p.1 :: rest →
    ∃ t d, Host.Core.run Sys2Proof.core 2 s = .next t
      ∧ t.hostData = some d
      ∧ (writableMask p.2 ≠ 0 → d = v &&& writableMask p.2)
      ∧ (writableMask p.2 = 0 →
          ReadsAs s d p.2
          ∧ t = { s with inbox := rest, hostData := some d, draws := s.draws + 1 })
      ∧ (∀ (free : Word) (q : HostReg), q ≠ p.2 → t.regWord free q = s.regWord free q)
      ∧ t.buf0 = s.buf0 ∧ t.buf1 = s.buf1 ∧ t.store = s.store)
  ∧ ∀ (s : State) (v : Word) (rest : List Input),
    s.cfg.wf = true → s.pending = none → s.cfg.storeShared = false → v.toNat < 2 ^ 16 →
    s.inbox = .write .word 0x00 v :: .read .word 0x00 :: rest →
    ∃ t, Host.Core.run Sys2Proof.core 2 s = .next t ∧ t.hostData = some v

/-- 10_state.md R40: a 32-bit access at a multiple of 4 that is no register's and no buffer byte's offset reads as 0
and ignores what is written. That such an access is one of the interface's shapes is read from R40 (log 10). -/
def Obligations.ReservedOffsetsReadZero : Prop :=
  ∀ (s : State) (offset : Nat) (v : Word) (rest : List Input),
    s.cfg.wf = true → s.pending = none → offset % 4 = 0 →
    (∀ p ∈ registerMap, offset ≠ p.1) →
    (∀ b j, j < s.cfg.bufBytes → offset ≠ bufferOffset b + j) →
    (s.inbox = .write .word offset v :: rest → step s = .next { s with inbox := rest })
    ∧ (s.inbox = .read .word offset :: rest →
        step s = .next { s with inbox := rest, hostData := some 0, draws := s.draws + 1 })

/-- 20_memory.md R61: a host byte read of byte j returns the sum of f[8j+i] * 2^(7-i), for bits that hold a
value. -/
def Obligations.HostByteReadIsMsbFirst : Prop :=
  ∀ (s : State) (b : BufSel) (j : Nat) (f : Nat → Bool) (rest : List Input),
    s.cfg.wf = true → s.pending = none → j < s.cfg.bufBytes →
    s.inbox = .read .byte (bufferOffset b + j) :: rest →
    (∀ i, i < 8 → Memory.read (s.buffer b) (8 * j + i) = some (f i)) →
    step s = .next { s with
      inbox := rest
      hostData := some (BitVec.ofNat 32 (∑ i ∈ Finset.range 8, (f i).toNat * 2 ^ (7 - i)))
      draws := s.draws + 1 }

/-- 10_state.md R42, 20_memory.md R61: a host byte write sets all 8 bits of that byte, most significant
first, and no other bit. -/
def Obligations.HostByteWriteSetsEightBits : Prop :=
  ∀ (s : State) (b : BufSel) (j : Nat) (v : Word) (rest : List Input),
    s.cfg.wf = true → s.pending = none → j < s.cfg.bufBytes →
    s.inbox = .write .byte (bufferOffset b + j) v :: rest →
    ∃ t, step s = .next t
      ∧ t = { s.withBuffer b (t.buffer b) with inbox := rest }
      ∧ (∀ i, i < 8 → Memory.read (t.buffer b) (8 * j + i) = some (v.getLsbD (7 - i)))
      ∧ ∀ k, k < 8 * j ∨ 8 * j + 8 ≤ k →
          Memory.read (t.buffer b) k = Memory.read (s.buffer b) k

/-- 20_memory.md R68: a host read changes nothing of the block and gives the host a value. The count of free draws
is the model's own (log 6); that a 32-bit read at a reserved offset is served is read from 10_state.md R40
(log 10). -/
def Obligations.HostReadHasNoSideEffect : Prop :=
  ∀ (s : State) (w : AccessWidth) (offset : Nat) (rest : List Input),
    s.cfg.wf = true → s.pending = none → s.inbox = .read w offset :: rest →
    (Input.read w offset).legal s.cfg = true →
    ∃ d, step s = .next { s with inbox := rest, hostData := some d, draws := s.draws + 1 }

/-! ### Operands, faults and statuses common to all operations -/

/-- 10_state.md R22, 30_encoding.md R95: an operation that reads a register holding ⊥ ends in
FAULT(UNWRITTEN_READ) before any other check. -/
def Obligations.UnwrittenOperandFaults : Prop :=
  ∀ (i : Instr) (s : State), operandsWritten s i = false →
    exec i s = .next { s with fault := some .unwrittenRead }

/-- 30_encoding.md R97: a reserved operand value ends ILLEGAL_OPERATION, after the operand reads. -/
def Obligations.ReservedOperandsEndIllegalOperation : Prop :=
  ∀ (i : Instr) (s : State), operandsWritten s i = true → reservedOperand s i = true →
    exec i s = .next { s with status := .illegalOperation }

/-- 60_exceptions.md R246: an operation that faults writes the reason and FLT to FAULT and nothing else;
UNWRITTEN_READ is a read of ⊥, OUT_OF_BOUNDS a BitWriter write. -/
def Obligations.FaultEntryIsPrecise : Prop :=
  ∀ (i : Instr) (s t : State) (r : FaultReason),
    exec i s = .next t → s.fault = none → t.fault = some r →
    t = { s with fault := some r }
    ∧ t.faultWord = (match r with | .unwrittenRead => 3 | .outOfBounds => 5)
    ∧ (r = .unwrittenRead →
        operandsWritten s i = false
        ∨ (unitOf i = .raw ∧ ∃ k, k < 8 * s.cfg.bufBytes ∧ Memory.read s.buf0 k = none))
    ∧ (r = .outOfBounds → unitOf i = .bitWriter ∧ operandsWritten s i = true)

/-- 60_exceptions.md R245: an operation that ends with a status other than OK writes STATUS and nothing else,
but for the record with value 0 that the store read of a Somfy or Blyss FMT created before its write failed.
(`answers` and `draws` record what the medium was asked.) -/
def Obligations.ErrorStatusWritesNothingElse : Prop :=
  (∀ (i : Instr) (s t : State),
    exec i s = .next t → s.pending = none → t.pending = none → t.fault = none → t.status ≠ .ok →
    t = { s with status := t.status, store := t.store, answers := t.answers, draws := t.draws }
    ∧ ∀ key, ReplayStore.find t.store key = ReplayStore.find s.store key
        ∨ (unitOf i = .format ∧ storeKeyOf s i = some key ∧ ReplayStore.find s.store key = none
          ∧ ReplayStore.find t.store key = some 0))
  ∧ ∀ (s : State) (j : FmtJob), s.nextAnswer = false →
    fmtFinish j s = { s.takeAnswer with pending := none, status := .storeUnavailable }

/-- 10_state.md R22, R25, 20_memory.md R67, 30_encoding.md R95: what the operations of each unit leave
unchanged. -/
def Obligations.OperationsWriteOnlyTheirResults : Prop :=
  ∀ (i : Instr) (s t : State), exec i s = .next t →
    (t.a0 = s.a0 ∧ t.a1 = s.a1 ∧ t.a2 = s.a2 ∧ t.a3 = s.a3 ∧ t.a4 = s.a4 ∧ t.a5 = s.a5 ∧ t.a6 = s.a6
      ∧ t.opw = s.opw ∧ t.cfg = s.cfg ∧ t.inbox = s.inbox ∧ t.hostData = s.hostData)
    ∧ (unitOf i ≠ .format → unitOf i ≠ .descriptor → t.tcfg = s.tcfg)
    ∧ (unitOf i ≠ .raw → t.rtcfg = s.rtcfg)
    ∧ (unitOf i ≠ .format → unitOf i ≠ .raw → t.bitcnt = s.bitcnt)
    ∧ (unitOf i ≠ .format → unitOf i ≠ .bitWriter → t.buf0 = s.buf0)
    ∧ (unitOf i ≠ .raw → unitOf i ≠ .bitWriter → t.buf1 = s.buf1)
    ∧ (unitOf i = .format → t.res0 = s.res0)
    ∧ (unitOf i ≠ .descriptor → t.res1 = s.res1 ∧ t.res2 = s.res2)
    ∧ (unitOf i ≠ .format → unitOf i ≠ .replay →
        t.store = s.store ∧ t.answers = s.answers ∧ t.draws = s.draws ∧ t.pending = s.pending)

/-! ### BitWriter -/

/-- 40_bitwriter.md R114, R115: BW.LOW and BW.HIGH write a run of `n` equal bits at `off`. -/
def Obligations.RunsWriteTheirBits : Prop :=
  ∀ (buf : BufSel) (s : State) (off n : Word),
    s.a0 = some off → s.a1 = some n → off.toNat + n.toNat ≤ 8 * s.cfg.bufBytes →
    (∃ t, exec (.bwLow buf) s = .next t
      ∧ WritesRun s t buf off.toNat n.toNat fun _ => false)
    ∧ ∃ t, exec (.bwHigh buf) s = .next t
      ∧ WritesRun s t buf off.toNat n.toNat fun _ => true

/-- 40_bitwriter.md R113, R116: BW.EDGE writes a High run of `h` and a Low run of `l` bits at `off`, High
first under HL and Low first under LH. -/
def Obligations.EdgeWritesItsPattern : Prop :=
  ∀ (buf : BufSel) (order : Order) (s : State) (off h l : Word),
    s.a0 = some off → s.a1 = some h → s.a2 = some l →
    off.toNat + h.toNat + l.toNat ≤ 8 * s.cfg.bufBytes →
    ∃ t, exec (.bwEdge buf order) s = .next t
      ∧ WritesRun s t buf off.toNat (h.toNat + l.toNat) (edgeLevel order h.toNat l.toNat)

/-- 40_bitwriter.md R113, R117: BW.BITS writes the low `bit_len` bits of the data, most significant first,
each as the edge pattern of its value. -/
def Obligations.DataBitsWriteTheirPatterns : Prop :=
  ∀ (buf : BufSel) (s : State) (c : BitsCase),
    c.holds s → c.len.toNat ≤ 32 → c.off.toNat + c.total ≤ 8 * s.cfg.bufBytes →
    ∃ t f, exec (.bwBits buf c.oneOrder c.zeroOrder) s = .next t
      ∧ WritesRun s t buf c.off.toNat c.total f
      ∧ ∀ i q, i < c.len.toNat → q < c.size i → f (c.place i + q) = c.level i q

/-- 40_bitwriter.md R112: a BW operation whose bits would cross 8*BUF_BYTES, sums taken as unbounded
integers, ends in FAULT(OUT_OF_BOUNDS) and writes no bit. -/
def Obligations.OutOfBoundsFaultsBeforeWriting : Prop :=
  (∀ (buf : BufSel) (s : State) (off n : Word),
    s.a0 = some off → s.a1 = some n → 8 * s.cfg.bufBytes < off.toNat + n.toNat →
    exec (.bwLow buf) s = .next { s with fault := some .outOfBounds }
    ∧ exec (.bwHigh buf) s = .next { s with fault := some .outOfBounds })
  ∧ (∀ (buf : BufSel) (order : Order) (s : State) (off h l : Word),
    s.a0 = some off → s.a1 = some h → s.a2 = some l →
    8 * s.cfg.bufBytes < off.toNat + h.toNat + l.toNat →
    exec (.bwEdge buf order) s = .next { s with fault := some .outOfBounds })
  ∧ ∀ (buf : BufSel) (s : State) (c : BitsCase),
    c.holds s → c.len.toNat ≤ 32 → 8 * s.cfg.bufBytes < c.off.toNat + c.total →
    exec (.bwBits buf c.oneOrder c.zeroOrder) s = .next { s with fault := some .outOfBounds }

/-! ### Codecs -/

/-- The constants of the codecs: frame lengths (41_codec_common.md R127), accepted commands (R128) and the timing
of each codec but Somfy (R137), whose own stands in `DescReadWritesTheDescriptor`. -/
def Obligations.CodecConstantsAreTheTables : Prop :=
  ∀ c : Config,
    (∀ row ∈ [(Protocol.otax, 25), (.dio, 64), (.homeeasy, 57), (.idk, 25), (.sumtech, 32), (.auchan, 25),
        (.auchan2, 21), (.somfy, 213 + 225 * (c.somfyN - 1)), (.blyss, 52)],
      frameBits c row.1 = row.2)
    ∧ (∀ row ∈ [(Protocol.otax, [Command.off, .on, .groupOff, .groupOn]),
        (.dio, [.off, .on, .groupOff, .groupOn]), (.auchan2, [.off, .on, .groupOff, .groupOn]),
        (.auchan, [.off, .on]), (.sumtech, [.off, .on]), (.homeeasy, [.off, .on]), (.idk, [.on]),
        (.somfy, [.off, .on, .prog, .f1]), (.blyss, [.off, .on, .groupOff, .groupOn])],
      ∀ cmd, cmd ∈ accepted row.1 ↔ cmd ∈ row.2)
    ∧ ∀ row ∈ [(Protocol.otax, c.timingOtax), (.dio, ⟨c.dioOrder, c.dioDurations, c.frameCountDio⟩),
        (.homeeasy, c.timingHomeeasy), (.idk, c.timingIdk),
        (.sumtech, c.timingSumtech), (.auchan, c.timingAuchan), (.auchan2, c.timingAuchan2),
        (.blyss, c.timingBlyss)],
      timingOf c row.1 = ⟨some (match row.2.order with | .hl => 0 | .lh => 1),
        some (row.2.durations.startH ++ row.2.durations.startL),
        some (row.2.durations.endH ++ row.2.durations.endL),
        some (row.2.durations.bit0H ++ row.2.durations.bit0L),
        some (row.2.durations.bit1H ++ row.2.durations.bit1L), some 0, some row.2.frameCount⟩

/-- 41_codec_common.md R130, R131, R132: the checks of a FMT operation, in order: data_len beyond BUF_BYTES,
data_len too small for the frame, a command the codec does not accept. Each writes STATUS alone. -/
def Obligations.FormatChecksInOrder : Prop :=
  ∀ (p : Protocol) (cmd : Command) (s : State) (dl : Word),
    operandsWritten s (Instr.fmt p cmd) = true → s.a2 = some dl →
    (s.cfg.bufBytes < dl.toNat →
      exec (Instr.fmt p cmd) s = .next { s with status := .illegalOperation })
    ∧ (dl.toNat ≤ s.cfg.bufBytes → 8 * dl.toNat < frameBits s.cfg p →
      exec (Instr.fmt p cmd) s = .next { s with status := .bufferTooSmall })
    ∧ (dl.toNat ≤ s.cfg.bufBytes → frameBits s.cfg p ≤ 8 * dl.toNat → cmd ∉ accepted p →
      exec (Instr.fmt p cmd) s = .next { s with status := .unsupportedCommand })

/-- 42_codecs_fixed.md R147: the OTAX frame, on the codes OTAX_CODE of the parameter set, in which 00_scope.md R8
gives ON the code 0x4. -/
def Obligations.OtaxFrame : Prop :=
  Config.standard.otaxOn = 0x4
  ∧ ∀ (s : State) (r d dl : Word) (cmd : Command) (code : BitVec 4),
    s.a0 = some r → s.a1 = some d → s.a2 = some dl →
    dl.toNat ≤ s.cfg.bufBytes → 25 ≤ 8 * dl.toNat →
    (cmd, code) ∈ [(Command.off, s.cfg.otaxOff), (.on, s.cfg.otaxOn), (.groupOff, s.cfg.otaxGroupOff),
      (.groupOn, s.cfg.otaxGroupOn)] →
    ∃ t, exec (.fmtOtax cmd) s = .next t
      ∧ WritesFrame s t .otax 25 fun k =>
          if k < 10 then (if k % 2 = 0 then r.getLsbD (4 - k / 2) else true)
          else if k < 20 then (if k % 2 = 0 then false else !d.getLsbD (4 - (k - 10) / 2))
          else if k < 24 then code.getLsbD (23 - k)
          else false

/-- 42_codecs_fixed.md R151, R152: the DI-O frame, each raw bit from bit 31 down as a Manchester pair, on
the codes DIO_CMD of the parameter set, which are 0 to 3 by R151. -/
def Obligations.DioFrame : Prop :=
  Config.standard.dioCmd = ⟨0, 1, 2, 3⟩
  ∧ ∀ (s : State) (r d dl : Word) (cmd : Command) (code : BitVec 2),
    s.a0 = some r → s.a1 = some d → s.a2 = some dl →
    dl.toNat ≤ s.cfg.bufBytes → 64 ≤ 8 * dl.toNat →
    (cmd, code) ∈ [(Command.off, s.cfg.dioCmd.off), (.on, s.cfg.dioCmd.on),
      (.groupOff, s.cfg.dioCmd.groupOff), (.groupOn, s.cfg.dioCmd.groupOn)] →
    ∃ t, exec (.fmtDio cmd) s = .next t
      ∧ WritesFrame s t .dio 64 fun k =>
          let raw := r.toNat % 2 ^ 26 * 2 ^ 6 + code.toNat * 2 ^ 4 + d.toNat % 2 ^ 4
          (raw.testBit (31 - k / 2) ^^ s.cfg.dioInverted) ^^ decide (k % 2 = 1)

/-- 42_codecs_fixed.md R157: the Home Easy frame on the payload `HE_PAYLOAD(r, d, c)` of the parameter set, a
leading 1 and eight 7-bit symbols. -/
def Obligations.HomeeasyFrame : Prop :=
  ∀ (s : State) (r d dl : Word) (cmd : Command),
    s.a0 = some r → s.a1 = some d → s.a2 = some dl →
    dl.toNat ≤ s.cfg.bufBytes → 57 ≤ 8 * dl.toNat → cmd ∈ [Command.off, .on] →
    ∃ (t : State) (sym : Nat → BitVec 7), exec (.fmtHomeeasy cmd) s = .next t
      ∧ (∀ j, j < 8 → ∃ e : BitVec 7,
          s.cfg.heTbFx.toList[(hePayload s.cfg r d cmd).toNat / 2 ^ (28 - 4 * j) % 16]? = some e
          ∧ sym j = e ||| (0x40 : BitVec 7))
      ∧ WritesFrame s t .homeeasy 57 fun k =>
          if k = 0 then true else (sym ((k - 1) / 7)).getLsbD (6 - (k - 1) % 7)

/-- 42_codecs_fixed.md R161: the Idk frame. A0 plays no part (41_codec_common.md R142). -/
def Obligations.IdkFrame : Prop :=
  ∀ (s : State) (d dl : Word),
    s.a1 = some d → s.a2 = some dl → dl.toNat ≤ s.cfg.bufBytes → 25 ≤ 8 * dl.toNat →
    ∃ t, exec (.fmtIdk .on) s = .next t
      ∧ WritesFrame s t .idk 25 fun k =>
          if k < 8 then (if k % 2 = 0 then d.getLsbD (3 - k / 2) else true)
          else if k < 24 then decide (k % 2 = 1)
          else false

/-- 42_codecs_fixed.md R165, R168: the Sumtech and the Auchan frame, on the codes SUMTECH_CMD and AUCHAN_CMD of the
parameter set, which are OFF 0 and ON 1 by those rules. -/
def Obligations.SumtechAndAuchanFrames : Prop :=
  Config.standard.sumtechCmd = ⟨false, true⟩ ∧ Config.standard.auchanCmd = ⟨false, true⟩
  ∧ ∀ (s : State) (r d dl : Word) (cmd : Command) (sumtech auchan : Bool),
    s.a0 = some r → s.a1 = some d → s.a2 = some dl →
    dl.toNat ≤ s.cfg.bufBytes →
    (cmd, sumtech, auchan) ∈ [(Command.off, s.cfg.sumtechCmd.off, s.cfg.auchanCmd.off),
      (.on, s.cfg.sumtechCmd.on, s.cfg.auchanCmd.on)] →
    (32 ≤ 8 * dl.toNat → ∃ t, exec (.fmtSumtech cmd) s = .next t
      ∧ WritesFrame s t .sumtech 32 fun k =>
          if k < 24 then r.getLsbD (23 - k)
          else if k = 24 then sumtech
          else d.getLsbD (31 - k))
    ∧ (25 ≤ 8 * dl.toNat → ∃ t, exec (.fmtAuchan cmd) s = .next t
      ∧ WritesFrame s t .auchan 25 fun k =>
          if k < 20 then r.getLsbD (19 - k)
          else if k < 23 then d.getLsbD (22 - k)
          else if k = 23 then auchan
          else false)

/-- 42_codecs_fixed.md R172: the Auchan 2 frame: bit 19 is the XOR of the preceding bits at odd places, bit
20 that of those at even places. The codes are AUCHAN2_CMD of the parameter set, which are 0 to 3 by R172. -/
def Obligations.AuchanTwoFrame : Prop :=
  Config.standard.auchan2Cmd = ⟨0, 1, 2, 3⟩
  ∧ ∀ (s : State) (r d dl : Word) (cmd : Command) (code : BitVec 2),
    s.a0 = some r → s.a1 = some d → s.a2 = some dl →
    dl.toNat ≤ s.cfg.bufBytes → 21 ≤ 8 * dl.toNat →
    (cmd, code) ∈ [(Command.off, s.cfg.auchan2Cmd.off), (.on, s.cfg.auchan2Cmd.on),
      (.groupOff, s.cfg.auchan2Cmd.groupOff), (.groupOn, s.cfg.auchan2Cmd.groupOn)] →
    ∃ t, exec (.fmtAuchan2 cmd) s = .next t
      ∧ WritesFrame s t .auchan2 21 fun k =>
          let pre := fun j =>
            if j < 2 then false
            else if j < 15 then r.getLsbD (14 - j)
            else if j < 17 then d.getLsbD (16 - j)
            else code.getLsbD (18 - j)
          if k < 19 then pre k
          else ((List.range 19).filter fun j => j % 2 = 20 - k).foldl (fun x j => x ^^ pre j) false

/-- 43_codecs_rolling.md R181 to R185: the Somfy burst on the counter `v` that was read, and the record
becoming `v + 1` (41_codec_common.md R136), when the medium is not shared and answers. -/
def Obligations.SomfyBurst : Prop :=
  ∀ (s : State) (r d dl : Word) (cmd : Command) (code : BitVec 4) (v : Half),
    s.cfg.wf = true → s.cfg.storeShared = false → State.grants 2 s = true →
    s.a0 = some r → s.a1 = some d → s.a2 = some dl →
    dl.toNat ≤ s.cfg.bufBytes → 213 + 225 * (s.cfg.somfyN - 1) ≤ 8 * dl.toNat →
    (cmd, code) ∈ [(Command.off, s.cfg.somfyOff), (.on, s.cfg.somfyOn), (.prog, s.cfg.somfyProg),
      (.f1, s.cfg.somfyF1)] →
    v = (ReplayStore.find s.store ⟨.somfy, r, d⟩).getD 0 →
    ∃ t b, exec (.fmtSomfy cmd) s = .next t
      ∧ IsSomfyPayload r d code v b
      ∧ WritesFrame { s.takeAnswer.takeAnswer with store := t.store, pending := none } t .somfy
          (213 + 225 * (s.cfg.somfyN - 1)) (fun k =>
            if k < 213 then somfyLevel s.cfg true (somfyWhite b) k
            else somfyLevel s.cfg false (somfyWhite b) ((k - 213) % 225))
      ∧ ∀ key, ReplayStore.find t.store key
          = if key = ⟨.somfy, r, d⟩ then some (v + 1) else ReplayStore.find s.store key

/-- 43_codecs_rolling.md R190, R191: the Blyss frame on the index `v` that was read, and the record becoming
its successor mod 5 (41_codec_common.md R136), when the medium is not shared and answers. -/
def Obligations.BlyssFrame : Prop :=
  ∀ (s : State) (r d dl : Word) (cmd : Command) (code : BitVec 4) (v : Half),
    s.cfg.storeShared = false → State.grants 2 s = true →
    s.a0 = some r → s.a1 = some d → s.a2 = some dl →
    dl.toNat ≤ s.cfg.bufBytes → 52 ≤ 8 * dl.toNat →
    (cmd, code) ∈ [(Command.off, s.cfg.blyssOff), (.on, s.cfg.blyssOn),
      (.groupOff, s.cfg.blyssGroupOff), (.groupOn, s.cfg.blyssGroupOn)] →
    v = (ReplayStore.find s.store ⟨.blyss, r, d⟩).getD 0 →
    ∃ t rc, exec (.fmtBlyss cmd) s = .next t
      ∧ s.cfg.blyssRc.toList[v.toNat % 5]? = some rc
      ∧ WritesFrame { s.takeAnswer.takeAnswer with store := t.store, pending := none } t .blyss 52
          (fun k =>
            if k < 8 then s.cfg.blyssFrameType.getLsbD (7 - k)
            else if k < 28 then r.getLsbD (27 - k)
            else if k < 32 then
              (if cmd = .groupOff ∨ cmd = .groupOn then false else d.getLsbD (31 - k))
            else if k < 36 then code.getLsbD (35 - k)
            else if k < 44 then rc.getLsbD (43 - k)
            else !rc.getLsbD (51 - k))
      ∧ ∀ key, ReplayStore.find t.store key
          = if key = ⟨.blyss, r, d⟩ then some (BitVec.ofNat 16 ((v.toNat % 5 + 1) % 5))
            else ReplayStore.find s.store key

/-- STORE_UNAVAILABLE comes only from an operation that accesses the store; a stateless codec neither asks
the medium nor changes a record. The spec derives it in 60_exceptions.md R242. -/
def Obligations.StatelessFormatsIgnoreTheStore : Prop :=
  (∀ (p : Protocol) (cmd : Command) (s t : State),
    statelessCodec p = true → exec (Instr.fmt p cmd) s = .next t →
    t.store = s.store ∧ t.answers = s.answers ∧ t.draws = s.draws ∧ t.pending = s.pending)
  ∧ ∀ (i : Instr) (s t : State),
    exec i s = .next t → t.fault = none → t.status = .storeUnavailable →
    (∃ cmd, i = .fmtSomfy cmd) ∨ (∃ cmd, i = .fmtBlyss cmd) ∨ (∃ ns, i = .stLoad ns)
      ∨ ∃ ns, i = .stStore ns

/-- Two FMT operations of one stateless codec with equal operands and command, on any two states of one
configuration, write equal frames, the remote operand playing no part in Idk. The spec derives it in
41_codec_common.md R135. -/
def Obligations.StatelessFormatsDependOnOperandsOnly : Prop :=
  ∀ (p : Protocol) (cmd : Command) (s s' t t' : State),
    statelessCodec p = true → s.cfg = s'.cfg → (p = .idk ∨ s.a0 = s'.a0) → s.a1 = s'.a1 →
    exec (Instr.fmt p cmd) s = .next t → exec (Instr.fmt p cmd) s' = .next t' →
    t.fault = none → t.status = .ok → t'.fault = none → t'.status = .ok →
    ∀ k, k < frameBits s.cfg p → Memory.read t.buf0 k = Memory.read t'.buf0 k

/-- 41_codec_common.md R136: a Somfy or Blyss FMT whose store read or store write fails ends
STORE_UNAVAILABLE; a record the read created stays, holding 0 (45_replay_store.md R226), and the codec's
other state is unchanged. -/
def Obligations.FormatStoreFailures : Prop :=
  ∀ (codec : Rolling) (s : State) (r d dl : Word) (cmd : Command),
    s.cfg.storeShared = false → s.pending = none →
    s.a0 = some r → s.a1 = some d → s.a2 = some dl →
    dl.toNat ≤ s.cfg.bufBytes → frameBits s.cfg codec.protocol ≤ 8 * dl.toNat →
    cmd ∈ accepted codec.protocol →
    (s.nextAnswer = false →
      exec (Instr.fmt codec.protocol cmd) s
        = .next { s.takeAnswer with status := .storeUnavailable })
    ∧ (s.nextAnswer = true → s.takeAnswer.nextAnswer = false →
      ∃ t, exec (Instr.fmt codec.protocol cmd) s = .next t
        ∧ t = { s.takeAnswer.takeAnswer with store := t.store, status := .storeUnavailable }
        ∧ ∀ key, ReplayStore.find t.store key
            = if key = ⟨codec.protocol, r, d⟩ then some ((ReplayStore.find s.store key).getD 0)
              else ReplayStore.find s.store key)

/-- 20_memory.md R76: on a shared medium a Somfy or Blyss FMT reads the store in one step and writes it in a
later one; between them another writer may store any value under any key. The record of the split in the
state is the model's choice (log 11). -/
def Obligations.SharedFormatSplits : Prop :=
  (∀ (codec : Rolling) (s : State) (r d dl : Word) (cmd : Command),
    s.cfg.storeShared = true → s.nextAnswer = true →
    s.a0 = some r → s.a1 = some d → s.a2 = some dl →
    dl.toNat ≤ s.cfg.bufBytes → frameBits s.cfg codec.protocol ≤ 8 * dl.toNat →
    cmd ∈ accepted codec.protocol →
    ∃ t v, exec (Instr.fmt codec.protocol cmd) s = .next t
      ∧ v = (ReplayStore.find s.store ⟨codec.protocol, r, d⟩).getD 0
      ∧ t = { s.takeAnswer with store := t.store, pending := some ⟨codec, cmd, r, d, v⟩ }
      ∧ ∀ key, ReplayStore.find t.store key
          = if key = ⟨codec.protocol, r, d⟩ then some v else ReplayStore.find s.store key)
  ∧ (∀ (s : State) (j : FmtJob) (key : StoreKey) (x : Half) (rest : List Input),
    s.cfg.wf = true → s.cfg.storeShared = true → s.pending = some j →
    s.inbox = .otherWrite key x :: rest →
    ∃ t, step s = .next t ∧ t = { s with inbox := rest, store := t.store }
      ∧ ∀ k, ReplayStore.find t.store k = if k = key then some x else ReplayStore.find s.store k)
  ∧ ∀ (s : State) (j : FmtJob),
    s.cfg.wf = true → s.pending = some j → (∀ key x rest, s.inbox ≠ .otherWrite key x :: rest) →
    s.nextAnswer = true →
    ∃ t, step s = .next t
      ∧ WritesFrame { s.takeAnswer with store := t.store, pending := none } t j.codec.protocol
          (frameBits s.cfg j.codec.protocol) (fun k => (FmtJob.frame s.cfg j)[k]?.getD false)
      ∧ ∀ k, ReplayStore.find t.store k
          = if k = ⟨j.codec.protocol, j.remote, j.device⟩ then some (rollNext j.codec j.value)
            else ReplayStore.find s.store k

/-- 20_memory.md R76: the lost update of a shared medium. Whatever another writer stores under the key
between the read and the write, the Somfy FMT leaves the value it read plus one. -/
def Obligations.SharedMediumLosesUpdates : Prop :=
  ∀ (s : State) (j : FmtJob) (x : Half) (rest : List Input),
    s.cfg.wf = true → s.cfg.storeShared = true → s.pending = some j → j.codec = .somfy →
    s.inbox = .otherWrite ⟨.somfy, j.remote, j.device⟩ x :: .idle :: rest → s.nextAnswer = true →
    ∃ t, Host.Core.run Sys2Proof.core 2 s = .next t
      ∧ ReplayStore.find t.store ⟨.somfy, j.remote, j.device⟩ = some (j.value + 1)

/-- Two FMT.SOMFY with equal operands and no store access between them write different frames; with the
record put back, equal ones. The spec derives it in 43_codecs_rolling.md R189. -/
def Obligations.SomfyCounterChangesTheFrame : Prop :=
  ∀ (s : State) (r d dl : Word) (cmd : Command),
    s.cfg.wf = true → s.cfg.storeShared = false → State.grants 4 s = true →
    s.a0 = some r → s.a1 = some d → s.a2 = some dl →
    dl.toNat ≤ s.cfg.bufBytes → 213 + 225 * (s.cfg.somfyN - 1) ≤ 8 * dl.toNat →
    cmd ∈ [Command.off, .on, .prog, .f1] →
    let key : StoreKey := ⟨.somfy, r, d⟩
    let v := (ReplayStore.find s.store key).getD 0
    ∃ t u w, exec (.fmtSomfy cmd) s = .next t
      ∧ exec (.fmtSomfy cmd) t = .next u
      ∧ exec (.fmtSomfy cmd) { t with store := ReplayStore.insert t.store key v } = .next w
      ∧ (∃ k, k < 213 + 225 * (s.cfg.somfyN - 1) ∧ Memory.read u.buf0 k ≠ Memory.read t.buf0 k)
      ∧ ∀ k, k < 213 + 225 * (s.cfg.somfyN - 1) → Memory.read w.buf0 k = Memory.read t.buf0 k

/-! ### Descriptors -/

/-- DESC.READ writes the descriptor of the selected codec to RES0, RES1, RES2 and its timing to TCFG
(41_codec_common.md R127, R137, R140, R141). The DI-O timing is the parameter TIMING_DIO, and under its default
the one R137 writes out. The Somfy word under another SOMFY_N than 10 is the model's reading of R140's formula
(log 20), and so is the end of the meaning on a SEL above 8, which no word decodes to, as ILLEGAL_OPERATION
(log 25). -/
def Obligations.DescReadWritesTheDescriptor : Prop :=
  ∀ s : State,
    exec (.descRead 0) s = .next (withDescriptor s 0x1F 0x1F 0x00190F07 (timingOf s.cfg .otax))
    ∧ exec (.descRead 1) s = .next (withDescriptor s 0x3FFFFFF 0xF 0x00400F07 (timingOf s.cfg .dio))
    ∧ (s.cfg.dioOrder = Config.standard.dioOrder → s.cfg.dioDurations = Config.standard.dioDurations →
        exec (.descRead 1) s = .next (withDescriptor s 0x3FFFFFF 0xF 0x00400F07
          ⟨some 0, some 0x01040A78, some 0x01042328, some 0x01040104, some 0x01040514, some 0,
            some s.cfg.frameCountDio⟩))
    ∧ exec (.descRead 2) s = .next (withDescriptor s s.cfg.heRemoteMax s.cfg.heDeviceMax 0x00390307
        (timingOf s.cfg .homeeasy))
    ∧ exec (.descRead 3) s = .next (withDescriptor s 0 0xF 0x00190206 (timingOf s.cfg .idk))
    ∧ exec (.descRead 4) s = .next (withDescriptor s 0xFFFFFF 0x7F 0x00200307
        (timingOf s.cfg .sumtech))
    ∧ exec (.descRead 5) s = .next (withDescriptor s 0xFFFFF 0x7 0x00190307 (timingOf s.cfg .auchan))
    ∧ exec (.descRead 6) s = .next (withDescriptor s 0x1FFF 0x3 0x00150F07 (timingOf s.cfg .auchan2))
    ∧ exec (.descRead 7) s = .next (withDescriptor s 0xFF 0xFFFFFF
        (BitVec.ofNat 32 ((213 + 225 * (s.cfg.somfyN - 1)) * 2 ^ 16 + 0x3307))
        ⟨some 2, some 0, some 0, some 0, some 0, some s.cfg.somfyBaseTime,
          some s.cfg.somfyFrameCount⟩)
    ∧ (s.cfg.somfyN = 10 →
        BitVec.ofNat 32 ((213 + 225 * (s.cfg.somfyN - 1)) * 2 ^ 16 + 0x3307) = 0x08BE3307)
    ∧ exec (.descRead 8) s = .next (withDescriptor s 0xFFFFF 0xF 0x00340F07 (timingOf s.cfg .blyss))
    ∧ ∀ sel : BitVec 4, 8 < sel.toNat →
      exec (.descRead sel) s = .next { s with status := .illegalOperation }

/-! ### RAW engine -/

/-- 44_raw_engine.md R201: the tolerant gcd is Euclid's algorithm ended once `a` is at or below the floor; it
never exceeds its larger argument, is the exact gcd with a floor of 0, and takes at most 34 passes on 16-bit
inputs. -/
def Obligations.TolerantGcdIsEarlyEuclid : Prop :=
  ∀ a b fl : Nat,
    tolerantGcd a b fl = (if a ≤ fl then b else tolerantGcd (b % a) a fl)
    ∧ tolerantGcd a b fl ≤ max a b
    ∧ tolerantGcd a b 0 = Nat.gcd a b
    ∧ (a < 2 ^ 16 → b < 2 ^ 16 → gcdLoop 34 a b fl = tolerantGcd a b fl)

/-- 44_raw_engine.md R202: the accuracy floor of eight durations. -/
def Obligations.AccuracyFloorOfTheSmallestDuration : Prop :=
  ∀ (acc m : Nat) (t : Pulses),
    acc ≤ 100 → IsSmallestNonzero t.toList m →
    quantum acc t = combine t (m * (100 - acc) / 100)
    ∧ m * (100 - acc) / 100 ≤ m
    ∧ (acc = 100 → m * (100 - acc) / 100 = 0)
    ∧ (acc = 0 → m * (100 - acc) / 100 = m)

/-- Rounding is to the nearest multiple of the quantum, a half going up (44_raw_engine.md R206); so a tick count
times the quantum is within half a quantum of the duration, which the spec derives in R213. -/
def Obligations.RoundingIsHalfUp : Prop :=
  ∀ base x : Nat, 0 < base →
    2 * (roundTicks base x * base) ≤ 2 * x + base
    ∧ 2 * x < 2 * (roundTicks base x * base) + base

/-- 44_raw_engine.md R203, R204, R205: RAW.BASETIME, on every path: ⊥ faults, a reserved accuracy is illegal,
a tag that is not HIGH_LOW or LOW_HIGH, all durations 0 and a quantum of 0 are unsupported, and otherwise RES0
becomes the quantum, at most 65535. -/
def Obligations.BasetimeComputesTheQuantum : Prop :=
  ∀ (acc : Byte) (s : State),
    (operandsWritten s (.rawBasetime acc) = false →
      exec (.rawBasetime acc) s = .next { s with fault := some .unwrittenRead })
    ∧ ∀ (fmt : BitVec 2) (start stop bit0 bit1 : Word),
      s.tcfg.fmt = some fmt → s.tcfg.start = some start → s.tcfg.stop = some stop →
      s.tcfg.bit0 = some bit0 → s.tcfg.bit1 = some bit1 →
      (100 < acc.toNat → exec (.rawBasetime acc) s = .next { s with status := .illegalOperation })
      ∧ (acc.toNat ≤ 100 → (fmt ≠ 0 ∧ fmt ≠ 1) ∨ (∀ x ∈ durationList start stop bit0 bit1, x = 0) →
        exec (.rawBasetime acc) s = .next { s with status := .timingUnsupported })
      ∧ ∀ m base, acc.toNat ≤ 100 → (fmt = 0 ∨ fmt = 1) →
        IsSmallestNonzero (durationList start stop bit0 bit1) m →
        base = quantumFrom start stop bit0 bit1 (m * (100 - acc.toNat) / 100) →
        (base = 0 → exec (.rawBasetime acc) s = .next { s with status := .timingUnsupported })
        ∧ (base ≠ 0 → base ≤ 65535
          ∧ exec (.rawBasetime acc) s
            = .next { s with res0 := BitVec.ofNat 32 base, status := .ok })

/-- 44_raw_engine.md R209, R210: RAW.RENDER on a request that can be rendered writes the start edge, each
source bit as its edge pattern and the end edge to BUF1, and the new timing to RTCFG. -/
def Obligations.RenderWritesThePulseTrain : Prop :=
  ∀ (s : State) (c : RenderCase) (base : Word),
    s.a0 = some base → c.holds s → c.fits base.toNat s →
    ∃ t, exec .rawRender s = .next t ∧ c.rendered base.toNat s.res0 s t

/-- The checks of RAW.RENDER in their order (44_raw_engine.md R205, R207, R208, R211): reserved operands, format
and quantum, a duration that vanishes, a ⊥ source bit, and the length. -/
def Obligations.RenderChecksInOrder : Prop :=
  ∀ (s : State) (fmt : BitVec 2) (start stop bit0 bit1 base n dl : Word) (fc : Half),
    s.tcfg.fmt = some fmt → s.tcfg.start = some start → s.tcfg.stop = some stop →
    s.tcfg.bit0 = some bit0 → s.tcfg.bit1 = some bit1 → s.tcfg.fcount = some fc →
    s.a0 = some base → s.a1 = some n → s.a2 = some dl →
    let legal := dl.toNat ≤ s.cfg.bufBytes ∧ n.toNat ≤ 8 * s.cfg.bufBytes ∧ base.toNat ≤ 0xFFFF
    let timed := (fmt = 0 ∨ fmt = 1) ∧ base ≠ 0
      ∧ ∀ w ∈ [start, stop, bit0, bit1], representable base.toNat w
    (¬legal → exec .rawRender s = .next { s with status := .illegalOperation })
    ∧ (legal → ¬timed → exec .rawRender s = .next { s with status := .timingUnsupported })
    ∧ (legal → timed → (∃ k, k < n.toNat ∧ Memory.read s.buf0 k = none) →
        exec .rawRender s = .next { s with fault := some .unwrittenRead })
    ∧ ∀ (o : Order) (source : Nat → Bool), legal → timed → fmt = tagOfOrder o →
        (∀ k, k < n.toNat → Memory.read s.buf0 k = some (source k)) →
        (8 * dl.toNat < RenderCase.length ⟨o, start, stop, bit0, bit1, fc, n, dl, source⟩ base.toNat
          ∨ 65535 < RenderCase.length ⟨o, start, stop, bit0, bit1, fc, n, dl, source⟩ base.toNat) →
        exec .rawRender s = .next { s with status := .bufferTooSmall }

/-- 44_raw_engine.md R212: RAW.CONVERT on a request that can be rendered at the quantum RAW.BASETIME computes
writes what RAW.RENDER writes, and the quantum to RES0. -/
def Obligations.ConvertWritesThePulseTrain : Prop :=
  ∀ (s : State) (c : RenderCase) (acc : Byte) (m base : Nat),
    acc.toNat ≤ 100 → c.holds s →
    IsSmallestNonzero (durationList c.start c.stop c.bit0 c.bit1) m →
    base = quantumFrom c.start c.stop c.bit0 c.bit1 (m * (100 - acc.toNat) / 100) →
    c.fits base s →
    ∃ t, exec (.rawConvert acc) s = .next t ∧ c.rendered base (BitVec.ofNat 32 base) s t

/-- 44_raw_engine.md R212: RAW.CONVERT is RAW.BASETIME and then RAW.RENDER from its format check on: a ⊥
operand faults, its reserved values are illegal, what BASETIME cannot support it does not, and otherwise it does
what RENDER does with that quantum in A0, RES0 being written only on OK. -/
def Obligations.ConvertIsBasetimeThenRender : Prop :=
  ∀ (s : State) (acc : Byte), s.fault = none →
    (operandsWritten s (.rawConvert acc) = false →
      exec (.rawConvert acc) s = .next { s with fault := some .unwrittenRead })
    ∧ ∀ n dl : Word, operandsWritten s (.rawConvert acc) = true → s.a1 = some n → s.a2 = some dl →
      let legal := acc.toNat ≤ 100 ∧ dl.toNat ≤ s.cfg.bufBytes ∧ n.toNat ≤ 8 * s.cfg.bufBytes
      (¬legal → exec (.rawConvert acc) s = .next { s with status := .illegalOperation })
      ∧ ∀ u, legal → exec (.rawBasetime acc) s = .next u →
        (u.status = .timingUnsupported →
          exec (.rawConvert acc) s = .next { s with status := .timingUnsupported })
        ∧ ∀ t, u.status = .ok → exec .rawRender { s with a0 := some u.res0 } = .next t →
          exec (.rawConvert acc) s = .next { t with
            a0 := s.a0
            res0 := if t.fault = none ∧ t.status = .ok then u.res0 else s.res0 }

/-! ### Replay store -/

/-- 45_replay_store.md R228: ST.LOAD on every path. -/
def Obligations.LoadReadsTheRecord : Prop :=
  ∀ (ns : BitVec 4) (s : State),
    ((s.a0 = none ∨ s.a1 = none) →
      exec (.stLoad ns) s = .next { s with fault := some .unwrittenRead })
    ∧ ∀ r d : Word, s.a0 = some r → s.a1 = some d →
      (8 < ns.toNat → exec (.stLoad ns) s = .next { s with status := .illegalOperation })
      ∧ (ns.toNat ≤ 8 → s.nextAnswer = false →
        exec (.stLoad ns) s = .next { s.takeAnswer with status := .storeUnavailable })
      ∧ ∀ p : Protocol, p.id = ns.toNat → s.nextAnswer = true →
        ∃ t v, exec (.stLoad ns) s = .next t
          ∧ v = (ReplayStore.find s.store ⟨p, r, d⟩).getD 0
          ∧ t = { s.takeAnswer with store := t.store, res0 := v.setWidth 32, status := .ok }
          ∧ ∀ key, ReplayStore.find t.store key
              = if key = ⟨p, r, d⟩ then some v else ReplayStore.find s.store key

/-- 45_replay_store.md R229: ST.STORE on every path. -/
def Obligations.StoreWritesTheRecord : Prop :=
  ∀ (ns : BitVec 4) (s : State),
    ((s.a0 = none ∨ s.a1 = none ∨ s.a2 = none) →
      exec (.stStore ns) s = .next { s with fault := some .unwrittenRead })
    ∧ ∀ r d v : Word, s.a0 = some r → s.a1 = some d → s.a2 = some v →
      (8 < ns.toNat ∨ 0xFFFF < v.toNat →
        exec (.stStore ns) s = .next { s with status := .illegalOperation })
      ∧ (ns.toNat ≤ 8 → v.toNat ≤ 0xFFFF → s.nextAnswer = false →
        exec (.stStore ns) s = .next { s.takeAnswer with status := .storeUnavailable })
      ∧ ∀ p : Protocol, p.id = ns.toNat → v.toNat ≤ 0xFFFF → s.nextAnswer = true →
        ∃ t, exec (.stStore ns) s = .next t
          ∧ t = { s.takeAnswer with store := t.store, status := .ok }
          ∧ ∀ key, ReplayStore.find t.store key
              = if key = ⟨p, r, d⟩ then some (v.setWidth 16) else ReplayStore.find s.store key

/-- A value stored is the value a load of the key that follows at once returns (20_memory.md R72,
45_replay_store.md R229). -/
def Obligations.StoreThenLoadReturnsTheValue : Prop :=
  ∀ (ns : BitVec 4) (s : State) (r d v : Word),
    s.a0 = some r → s.a1 = some d → s.a2 = some v → ns.toNat ≤ 8 → v.toNat ≤ 0xFFFF →
    State.grants 2 s = true →
    ∃ t u, exec (.stStore ns) s = .next t ∧ exec (.stLoad ns) t = .next u
      ∧ u.res0 = v ∧ u.status = .ok ∧ u.store = t.store

/-- 45_replay_store.md R232: an access to one key never changes another key's record, for every operation and
for the second half of a split FMT. -/
def Obligations.OnlyTheNamedRecordChanges : Prop :=
  (∀ (i : Instr) (s t : State) (key : StoreKey),
    exec i s = .next t → storeKeyOf s i ≠ some key →
    ReplayStore.find t.store key = ReplayStore.find s.store key)
  ∧ ∀ (j : FmtJob) (s : State) (key : StoreKey),
    key ≠ ⟨j.codec.protocol, j.remote, j.device⟩ →
    ReplayStore.find (fmtFinish j s).store key = ReplayStore.find s.store key

/-! ### Properties of the data -/

/-- After a FMT, RAW.RENDER or RAW.CONVERT that ended OK, BITCNT is at most 8 times the data length, which is
at most the capacity. The spec derives it in 10_state.md R34. -/
def Obligations.BitCountFitsTheDataLength : Prop :=
  ∀ (i : Instr) (s t : State) (dl : Word),
    unitOf i = .format ∨ i = .rawRender ∨ (∃ acc, i = .rawConvert acc) →
    s.a2 = some dl → exec i s = .next t → t.fault = none → t.pending = none → t.status = .ok →
    t.bitcnt.toNat ≤ 8 * dl.toNat ∧ 8 * dl.toNat ≤ 8 * s.cfg.bufBytes

/-- `seq_N(v)` has N bits, bit i of it is bit N-1-i of v, and read most significant bit first its value is
v mod 2^N (00_scope.md R11). -/
def Obligations.SequenceHoldsTheValueMsbFirst : Prop :=
  ∀ n v : Nat,
    (seqBits n v).length = n
    ∧ (∀ i, i < n → (seqBits n v)[i]? = some (v.testBit (n - 1 - i)))
    ∧ bitsValue (seqBits n v) = v % 2 ^ n

/-- Buffers in canonical form that read alike are equal data, and so are stores in canonical form (10_state.md
R35, R36). The canonical forms are the model's choice (log 18). -/
def Obligations.EqualReadsMeanEqualData : Prop :=
  (∀ (bytes : Nat) (m m' : Memory), Memory.wf bytes m = true → Memory.wf bytes m' = true →
    (∀ k, Memory.read m k = Memory.read m' k) → m = m')
  ∧ ∀ m m' : ReplayStore, ReplayStore.wf m = true → ReplayStore.wf m' = true →
    (∀ key, ReplayStore.find m key = ReplayStore.find m' key) → m = m'
end

