-- ==== Sys2Proof/Laws/Memory.lean ====
section
/-! SUPPORT. The laws of buffer bits: what a read gives after a write, and that every memory operation
keeps the canonical form. -/

namespace Sys2Proof.Laws

open Sys2Proof Sys2Proof.Machine

/-! ### Bit sequences -/

@[simp] theorem seqBits_length (n v : Nat) : (seqBits n v).length = n := by
  induction n with
  | zero => rfl
  | succ n ih => simp [seqBits, ih]

/-- Bit `i` of `seq_N(v)` is bit `N-1-i` of `v`. -/
theorem seqBits_getElem? (n v i : Nat) (h : i < n) :
    (seqBits n v)[i]? = some (v.testBit (n - 1 - i)) := by
  induction n generalizing i with
  | zero => omega
  | succ n ih =>
    cases i with
    | zero => simp [seqBits]
    | succ i =>
      simp only [seqBits, List.getElem?_cons_succ, ih i (by omega)]
      congr 2
      omega

@[simp] theorem byteBits_length (b : Byte) : (byteBits b).length = 8 := by simp [byteBits]

@[simp] theorem highRun_length (n : Nat) : (highRun n).length = n := by simp [highRun]

@[simp] theorem lowRun_length (n : Nat) : (lowRun n).length = n := by simp [lowRun]

/-- Either order has length h + l (40_bitwriter.md R113). -/
@[simp] theorem edge_length (o : Order) (h l : Nat) : (edge o h l).length = h + l := by
  cases o <;> simp [edge]
  omega

@[simp] theorem edges_nil (zo : Order) (zh zl : Nat) (oo : Order) (oh ol : Nat) :
    edges [] zo zh zl oo oh ol = [] := rfl

theorem edges_cons (b : Bool) (f : Frame) (zo : Order) (zh zl : Nat) (oo : Order) (oh ol : Nat) :
    edges (b :: f) zo zh zl oo oh ol
      = (if b then edge oo oh ol else edge zo zh zl) ++ edges f zo zh zl oo oh ol := by
  simp [edges]

/-- The length formula of 40_bitwriter.md R117 and 44_raw_engine.md R208 counts the bits emitted. -/
theorem edges_length (f : Frame) (zo : Order) (zh zl : Nat) (oo : Order) (oh ol : Nat) :
    (edges f zo zh zl oo oh ol).length = edgesLength f zh zl oh ol := by
  induction f with
  | nil => simp [edgesLength]
  | cons b f ih =>
    have hc : f.count true ≤ f.length := List.count_le_length
    cases b
    · simp only [edges_cons, Bool.false_eq_true, if_false, List.length_append, edge_length, ih]
      simp only [edgesLength, List.count_cons, List.length_cons]
      simp only [beq_true, Bool.false_eq_true, if_false, Nat.add_zero]
      rw [show f.length + 1 - f.count true = (f.length - f.count true) + 1 by omega]
      ring
    · simp only [edges_cons, if_true, List.length_append, edge_length, ih]
      simp only [edgesLength, List.count_cons, List.length_cons]
      simp only [beq_self_eq_true, if_true]
      rw [show f.length + 1 - (f.count true + 1) = f.length - f.count true by omega]
      ring

/-! ### One read after one write -/

theorem read_append (m m' : Memory) (k : Nat) :
    Memory.read (m ++ m') k = (Memory.read m k).or (Memory.read m' k) := by
  induction m with
  | nil => simp [Memory.read]
  | cons c m ih =>
    obtain ⟨i, b⟩ := c
    by_cases h : i = k <;> simp [Memory.read, h, ih]

theorem read_runCells (k : Nat) (f : Frame) (i : Nat) :
    Memory.read (runCells k f) i = if k ≤ i then f[i - k]? else none := by
  induction f generalizing k with
  | nil => simp [runCells, Memory.read]
  | cons b f ih =>
    simp only [runCells, Memory.read, ih]
    rcases Nat.lt_trichotomy i k with h | h | h
    · simp [show ¬k = i by omega, show ¬k ≤ i by omega, show ¬k + 1 ≤ i by omega]
    · simp [h]
    · rw [if_neg (by omega), if_pos (by omega), if_pos (by omega),
        show i - k = (i - (k + 1)) + 1 by omega, List.getElem?_cons_succ]

theorem read_filter (m : Memory) (p : Nat → Bool) (k : Nat) :
    Memory.read (m.filter fun c => p c.1) k = if p k then Memory.read m k else none := by
  induction m with
  | nil => simp [Memory.read]
  | cons c m ih =>
    obtain ⟨i, b⟩ := c
    by_cases hp : p i = true
    · rw [List.filter_cons_of_pos (by simpa using hp)]
      by_cases h : i = k
      · subst h; simp [Memory.read, hp]
      · simp [Memory.read, h, ih]
    · rw [List.filter_cons_of_neg (by simpa using hp), ih]
      by_cases h : i = k
      · subst h; simp [hp]
      · simp [Memory.read, h]

/-- Everything a write does: the run holds the written bits, every other bit reads as before
(00_scope.md R13, 40_bitwriter.md R111). -/
theorem read_write (m : Memory) (k : Nat) (f : Frame) (i : Nat) :
    Memory.read (Memory.write m k f) i
      = if k ≤ i ∧ i < k + f.length then f[i - k]? else Memory.read m i := by
  have hlow := read_filter m (fun j => decide (j < k)) i
  have hhigh := read_filter m (fun j => decide (k + f.length ≤ j)) i
  simp only [Memory.write, read_append, hlow, hhigh, read_runCells]
  by_cases h1 : i < k
  · simp [h1, show ¬k ≤ i by omega, show ¬k + f.length ≤ i by omega]
  · by_cases h2 : k + f.length ≤ i
    · have : f[i - k]? = none := List.getElem?_eq_none (by omega)
      simp [h1, h2, this, show ¬i < k + f.length by omega]
    · have : i - k < f.length := by omega
      simp [h1, h2, show k ≤ i by omega, show i < k + f.length by omega,
        List.getElem?_eq_getElem this]

/-- A bit of the run reads as the bit written. -/
theorem read_write_self (m : Memory) (k : Nat) (f : Frame) (i : Nat) (h : i < f.length) :
    Memory.read (Memory.write m k f) (k + i) = f[i]? := by
  rw [read_write, if_pos ⟨by omega, by omega⟩, Nat.add_sub_cancel_left]

/-- A bit outside the run reads as before. -/
theorem read_write_other (m : Memory) (k : Nat) (f : Frame) (i : Nat)
    (h : i < k ∨ k + f.length ≤ i) :
    Memory.read (Memory.write m k f) i = Memory.read m i := by
  rw [read_write, if_neg (by omega)]

/-- A successful run read gives the bits it names. -/
theorem readRun_eq_some (m : Memory) (k n : Nat) (f : Frame) :
    Memory.readRun m k n = some f ↔
      f.length = n ∧ ∀ i, i < n → Memory.read m (k + i) = f[i]? := by
  induction n generalizing k f with
  | zero => simp [Memory.readRun, eq_comm]
  | succ n ih =>
    simp only [Memory.readRun]
    constructor
    · intro h
      cases hb : Memory.read m k with
      | none => simp [hb] at h
      | some b =>
        cases hr : Memory.readRun m (k + 1) n with
        | none => simp [hb, hr] at h
        | some rest =>
          simp only [hb, hr, Option.some.injEq] at h
          subst h
          obtain ⟨hl, hi⟩ := (ih (k + 1) rest).1 hr
          refine ⟨by simp [hl], fun i hin => ?_⟩
          cases i with
          | zero => simpa using hb
          | succ i =>
            rw [List.getElem?_cons_succ, ← hi i (by omega)]
            congr 1; omega
    · rintro ⟨hl, hi⟩
      cases f with
      | nil => simp at hl
      | cons b rest =>
        have hb : Memory.read m k = some b := by simpa using hi 0 (by omega)
        have hr : Memory.readRun m (k + 1) n = some rest := by
          refine (ih (k + 1) rest).2 ⟨by simpa using hl, fun i hin => ?_⟩
          have := hi (i + 1) (by omega)
          rw [List.getElem?_cons_succ] at this
          rw [← this]
          congr 1; omega
        simp [hb, hr]

/-- A run read fails exactly where one of its bits is ⊥. -/
theorem readRun_eq_none (m : Memory) (k n : Nat) :
    Memory.readRun m k n = none ↔ ∃ i, i < n ∧ Memory.read m (k + i) = none := by
  induction n generalizing k with
  | zero => simp [Memory.readRun]
  | succ n ih =>
    simp only [Memory.readRun]
    cases hb : Memory.read m k with
    | none => simp only [true_iff]; exact ⟨0, by omega, by simpa using hb⟩
    | some b =>
      have hrec : Memory.readRun m (k + 1) n = none ↔
          ∃ i, i < n + 1 ∧ Memory.read m (k + i) = none := by
        rw [ih]
        constructor
        · rintro ⟨i, hi, h⟩
          exact ⟨i + 1, by omega, by rw [← h]; congr 1; omega⟩
        · rintro ⟨i, hi, h⟩
          cases i with
          | zero => simp [hb] at h
          | succ i => exact ⟨i, by omega, by rw [← h]; congr 1; omega⟩
      rw [← hrec]
      cases Memory.readRun m (k + 1) n <;> simp

/-! ### The canonical form -/

/-- The canonical form as a pairwise order. -/
theorem sorted_iff (m : Memory) :
    Memory.sorted m = true ↔ m.Pairwise (fun a b => a.1 < b.1) := by
  induction m with
  | nil => simp [Memory.sorted]
  | cons a m ih =>
    cases m with
    | nil => simp [Memory.sorted]
    | cons b m =>
      simp only [Memory.sorted, Bool.and_eq_true, decide_eq_true_eq, ih]
      constructor
      · rintro ⟨hab, hm⟩
        refine List.pairwise_cons.2 ⟨fun c hc => ?_, hm⟩
        rcases List.mem_cons.1 hc with rfl | hc
        · exact hab
        · exact lt_trans hab ((List.pairwise_cons.1 hm).1 c hc)
      · intro h
        obtain ⟨h1, h2⟩ := List.pairwise_cons.1 h
        exact ⟨h1 b (by simp), h2⟩

/-- What `Memory.wf` says. -/
theorem wf_iff (bytes : Nat) (m : Memory) :
    Memory.wf bytes m = true ↔
      m.Pairwise (fun a b => a.1 < b.1) ∧ ∀ c ∈ m, c.1 < 8 * bytes := by
  simp [Memory.wf, sorted_iff]

theorem runCells_bounds (k : Nat) (f : Frame) :
    ∀ c ∈ runCells k f, k ≤ c.1 ∧ c.1 < k + f.length := by
  induction f generalizing k with
  | nil => simp [runCells]
  | cons b f ih =>
    intro c hc
    rcases List.mem_cons.1 hc with rfl | hc
    · simp
    · have := ih (k + 1) c hc
      simp only [List.length_cons]
      omega

theorem runCells_pairwise (k : Nat) (f : Frame) :
    (runCells k f).Pairwise (fun a b => a.1 < b.1) := by
  induction f generalizing k with
  | nil => simp [runCells]
  | cons b f ih =>
    exact List.pairwise_cons.2
      ⟨fun c hc => by have := runCells_bounds (k + 1) f c hc; simp only; omega, ih (k + 1)⟩

/-- A write inside the buffer keeps its canonical form. -/
theorem write_wf (bytes : Nat) (m : Memory) (k : Nat) (f : Frame)
    (h : Memory.wf bytes m = true) (hk : k + f.length ≤ 8 * bytes) :
    Memory.wf bytes (Memory.write m k f) = true := by
  rw [wf_iff] at h ⊢
  obtain ⟨hp, hb⟩ := h
  constructor
  · simp only [Memory.write]
    refine List.pairwise_append.2 ⟨List.pairwise_append.2
      ⟨hp.filter _, runCells_pairwise k f, ?_⟩, hp.filter _, ?_⟩
    · intro a ha b hb'
      have h1 : a.1 < k := by simpa using (List.mem_filter.1 ha).2
      have h2 := (runCells_bounds k f b hb').1
      omega
    · intro a ha b hb'
      have h2 : k + f.length ≤ b.1 := by simpa using (List.mem_filter.1 hb').2
      rcases List.mem_append.1 ha with ha | ha
      · have h1 : a.1 < k := by simpa using (List.mem_filter.1 ha).2
        omega
      · have h1 := (runCells_bounds k f a ha).2
        omega
  · intro c hc
    simp only [Memory.write, List.mem_append] at hc
    rcases hc with (hc | hc) | hc
    · exact hb c (List.mem_filter.1 hc).1
    · have := (runCells_bounds k f c hc).2
      omega
    · exact hb c (List.mem_filter.1 hc).1

/-- A host byte write inside the buffer keeps its canonical form. -/
theorem writeByte_wf (bytes : Nat) (m : Memory) (j : Nat) (v : Byte)
    (h : Memory.wf bytes m = true) (hj : j < bytes) :
    Memory.wf bytes (Memory.writeByte m j v) = true :=
  write_wf bytes m (8 * j) (byteBits v) h (by simp; omega)

/-- The empty buffer, every bit ⊥, is in canonical form. -/
theorem wf_nil (bytes : Nat) : Memory.wf bytes [] = true := rfl

/-- Both buffers of the reset state are in canonical form. -/
theorem reset_buffers_wf :
    Memory.wf State.reset.cfg.bufBytes State.reset.buf0 = true
      ∧ Memory.wf State.reset.cfg.bufBytes State.reset.buf1 = true := ⟨rfl, rfl⟩

end Sys2Proof.Laws
end

