-- ==== Sys2Proof/Laws/Codec.lean ====
section
/-! SUPPORT. The length of every encoder's frame (41_codec_common.md R127). -/

namespace Sys2Proof.Laws

open Sys2Proof Sys2Proof.Machine

/-- A flatMap whose pieces all have one length. -/
theorem flatMap_length_const {α : Type} (f : α → Frame) (n : Nat) (h : ∀ a, (f a).length = n)
    (l : List α) : (l.flatMap f).length = l.length * n := by
  induction l with
  | nil => simp
  | cons a l ih => simp [ih, h, Nat.add_mul, Nat.add_comm]

theorem replicate_flatten_length (n : Nat) (f : Frame) :
    (List.replicate n f).flatten.length = n * f.length := by
  induction n with
  | zero => simp
  | succ n ih => simp [List.replicate_succ, ih, Nat.add_mul, Nat.add_comm]

@[simp] theorem encOtax_length (c : Config) (r d : Word) (cmd : Command) :
    (encOtax c r d cmd).length = 25 := by
  simp [encOtax, flatMap_length_const _ 2]

@[simp] theorem encDio_length (c : Config) (r d : Word) (cmd : Command) :
    (encDio c r d cmd).length = 64 := by
  rw [encDio, flatMap_length_const _ 2 (fun _ => rfl)]
  simp

/-- What `HE_PAYLOAD` can be: the payload of a row of the table for these operands, or, where there is none, the
free value (42_codecs_fixed.md R156). -/
theorem hePayload_cases (c : Config) (r d : Word) (cmd : Command) :
    (∃ row ∈ c.hePayloadTable, row.remote = r ∧ row.device = d ∧ row.cmd = cmd
        ∧ hePayload c r d cmd = row.payload)
      ∨ ((∀ row ∈ c.hePayloadTable, ¬(row.remote = r ∧ row.device = d ∧ row.cmd = cmd))
        ∧ hePayload c r d cmd = Config.openHePayload r d cmd) := by
  unfold hePayload
  split
  · next row h =>
    have hp := List.find?_some h
    simp only [Bool.and_eq_true, beq_iff_eq] at hp
    exact .inl ⟨row, List.mem_of_find?_eq_some h, hp.1.1, hp.1.2, hp.2, rfl⟩
  · next h =>
    refine .inr ⟨fun row hm hp => ?_, rfl⟩
    have := List.find?_eq_none.1 h row hm
    simp [hp.1, hp.2.1, hp.2.2] at this

@[simp] theorem packHomeeasy_length (c : Config) (payload : Word) :
    (packHomeeasy c payload).length = 57 := by
  rw [packHomeeasy, List.length_cons, flatMap_length_const _ 7 (fun _ => by simp)]
  simp

@[simp] theorem encHomeeasy_length (c : Config) (r d : Word) (cmd : Command) :
    (encHomeeasy c r d cmd).length = 57 := packHomeeasy_length _ _

@[simp] theorem encIdk_length (d : Word) : (encIdk d).length = 25 := by
  simp [encIdk, flatMap_length_const _ 2]

@[simp] theorem encSumtech_length (c : Config) (r d : Word) (cmd : Command) :
    (encSumtech c r d cmd).length = 32 := by
  simp [encSumtech]

@[simp] theorem encAuchan_length (c : Config) (r d : Word) (cmd : Command) :
    (encAuchan c r d cmd).length = 25 := by
  simp [encAuchan]

@[simp] theorem preAuchan2_length (c : Config) (r d : Word) (cmd : Command) :
    (preAuchan2 c r d cmd).length = 19 := by
  simp [preAuchan2]

@[simp] theorem encAuchan2_length (c : Config) (r d : Word) (cmd : Command) :
    (encAuchan2 c r d cmd).length = 21 := by
  simp [encAuchan2]

@[simp] theorem encBlyss_length (c : Config) (r d : Word) (cmd : Command) (v : Half) :
    (encBlyss c r d cmd v).length = 52 := by
  simp [encBlyss]

@[simp] theorem whitenFrom_length (p : Byte) (bs : List Byte) :
    (whitenFrom p bs).length = bs.length := by
  induction bs generalizing p with
  | nil => rfl
  | cons b bs ih => simp [whitenFrom, ih]

@[simp] theorem whiten_length (bs : List Byte) : (whiten bs).length = bs.length := by
  cases bs <;> simp [whiten]

/-- Every data bit is two ticks (43_codecs_rolling.md R184). -/
@[simp] theorem somfyTicks_length (bs : List Byte) : (somfyTicks bs).length = 16 * bs.length := by
  rw [somfyTicks, edges, flatMap_length_const _ 2 (by intro a; cases a <;> simp),
    flatMap_length_const _ 8 (by simp)]
  omega

/-- The whitened payload is 112 ticks (43_codecs_rolling.md R184). -/
theorem somfyData_length (c : Config) (r d : Word) (cmd : Command) (v : Half) :
    (somfyTicks (whiten (somfyPlain c r d cmd v))).length = 112 := by
  simp [somfyPlain, somfyBytes]

theorem somfyFirst_length (c : Config) (data : Frame) (h : data.length = 112) :
    (somfyFirst c data).length = c.somfyFirstLen := by
  simp only [somfyFirst, somfyTail, somfyShort, List.length_append, edge_length, lowRun_length,
    replicate_flatten_length, h, Config.somfyFirstLen]
  omega

theorem somfyRepeat_length (c : Config) (data : Frame) (h : data.length = 112) :
    (somfyRepeat c data).length = c.somfyRepeatLen := by
  simp only [somfyRepeat, somfyTail, somfyShort, List.length_append, edge_length, lowRun_length,
    replicate_flatten_length, h, Config.somfyRepeatLen]
  omega

/-- What the configuration check says. -/
theorem cfg_wf_iff (c : Config) :
    c.wf = true ↔ 1 ≤ c.bufBytes ∧ c.bufBytes ≤ 8192 ∧ c.somfyFirstLen = 213 ∧ c.somfyRepeatLen = 225
      ∧ 1 ≤ c.somfyN ∧ 213 + 225 * (c.somfyN - 1) ≤ 65535 := by
  simp [Config.wf, and_assoc]

/-- Under the two equations of 00_scope.md R9 the burst has the length of 41_codec_common.md R127. -/
theorem encSomfy_length (c : Config) (hc : c.wf = true) (r d : Word) (cmd : Command) (v : Half) :
    (encSomfy c r d cmd v).length = frameBits c .somfy := by
  obtain ⟨-, -, h1, h2, -, -⟩ := (cfg_wf_iff c).1 hc
  have hd := somfyData_length c r d cmd v
  simp only [encSomfy, List.length_append, replicate_flatten_length, somfyFirst_length c _ hd,
    somfyRepeat_length c _ hd, h1, h2, frameBits]
  omega

/-- A stateful frame has its codec's length. -/
theorem job_frame_length (c : Config) (hc : c.wf = true) (j : FmtJob) :
    (FmtJob.frame c j).length = frameBits c j.codec.protocol := by
  obtain ⟨codec, cmd, r, d, v⟩ := j
  cases codec
  · exact encSomfy_length c hc r d cmd v
  · simp [FmtJob.frame, frameBits, Rolling.protocol]

/-- Every frame length fits BITCNT. -/
theorem frameBits_le (c : Config) (hc : c.wf = true) (p : Protocol) : frameBits c p ≤ 65535 := by
  obtain ⟨-, -, -, -, -, h⟩ := (cfg_wf_iff c).1 hc
  cases p <;> simp only [frameBits] <;> omega

end Sys2Proof.Laws
end

