-- ==== Sys2Proof/Laws/State.lean ====
section
/-! SUPPORT. What every update of the state does to every field, one lemma each, so that no later proof
unfolds a record update. -/

namespace Sys2Proof.Laws

open Sys2Proof Sys2Proof.Machine

/-! ### `complete` -/

@[simp] theorem complete_opw (c : Status) (s : State) :
    (complete c s).opw = s.opw := rfl

@[simp] theorem complete_a0 (c : Status) (s : State) :
    (complete c s).a0 = s.a0 := rfl

@[simp] theorem complete_a1 (c : Status) (s : State) :
    (complete c s).a1 = s.a1 := rfl

@[simp] theorem complete_a2 (c : Status) (s : State) :
    (complete c s).a2 = s.a2 := rfl

@[simp] theorem complete_a3 (c : Status) (s : State) :
    (complete c s).a3 = s.a3 := rfl

@[simp] theorem complete_a4 (c : Status) (s : State) :
    (complete c s).a4 = s.a4 := rfl

@[simp] theorem complete_a5 (c : Status) (s : State) :
    (complete c s).a5 = s.a5 := rfl

@[simp] theorem complete_a6 (c : Status) (s : State) :
    (complete c s).a6 = s.a6 := rfl

@[simp] theorem complete_status (c : Status) (s : State) :
    (complete c s).status = c := rfl

@[simp] theorem complete_fault (c : Status) (s : State) :
    (complete c s).fault = s.fault := rfl

@[simp] theorem complete_bitcnt (c : Status) (s : State) :
    (complete c s).bitcnt = s.bitcnt := rfl

@[simp] theorem complete_res0 (c : Status) (s : State) :
    (complete c s).res0 = s.res0 := rfl

@[simp] theorem complete_res1 (c : Status) (s : State) :
    (complete c s).res1 = s.res1 := rfl

@[simp] theorem complete_res2 (c : Status) (s : State) :
    (complete c s).res2 = s.res2 := rfl

@[simp] theorem complete_tcfg (c : Status) (s : State) :
    (complete c s).tcfg = s.tcfg := rfl

@[simp] theorem complete_rtcfg (c : Status) (s : State) :
    (complete c s).rtcfg = s.rtcfg := rfl

@[simp] theorem complete_buf0 (c : Status) (s : State) :
    (complete c s).buf0 = s.buf0 := rfl

@[simp] theorem complete_buf1 (c : Status) (s : State) :
    (complete c s).buf1 = s.buf1 := rfl

@[simp] theorem complete_store (c : Status) (s : State) :
    (complete c s).store = s.store := rfl

@[simp] theorem complete_cfg (c : Status) (s : State) :
    (complete c s).cfg = s.cfg := rfl

@[simp] theorem complete_pending (c : Status) (s : State) :
    (complete c s).pending = s.pending := rfl

@[simp] theorem complete_inbox (c : Status) (s : State) :
    (complete c s).inbox = s.inbox := rfl

@[simp] theorem complete_answers (c : Status) (s : State) :
    (complete c s).answers = s.answers := rfl

@[simp] theorem complete_draws (c : Status) (s : State) :
    (complete c s).draws = s.draws := rfl

@[simp] theorem complete_hostData (c : Status) (s : State) :
    (complete c s).hostData = s.hostData := rfl

/-! ### `raiseFault` -/

@[simp] theorem raiseFault_opw (r : FaultReason) (s : State) :
    (raiseFault r s).opw = s.opw := rfl

@[simp] theorem raiseFault_a0 (r : FaultReason) (s : State) :
    (raiseFault r s).a0 = s.a0 := rfl

@[simp] theorem raiseFault_a1 (r : FaultReason) (s : State) :
    (raiseFault r s).a1 = s.a1 := rfl

@[simp] theorem raiseFault_a2 (r : FaultReason) (s : State) :
    (raiseFault r s).a2 = s.a2 := rfl

@[simp] theorem raiseFault_a3 (r : FaultReason) (s : State) :
    (raiseFault r s).a3 = s.a3 := rfl

@[simp] theorem raiseFault_a4 (r : FaultReason) (s : State) :
    (raiseFault r s).a4 = s.a4 := rfl

@[simp] theorem raiseFault_a5 (r : FaultReason) (s : State) :
    (raiseFault r s).a5 = s.a5 := rfl

@[simp] theorem raiseFault_a6 (r : FaultReason) (s : State) :
    (raiseFault r s).a6 = s.a6 := rfl

@[simp] theorem raiseFault_status (r : FaultReason) (s : State) :
    (raiseFault r s).status = s.status := rfl

@[simp] theorem raiseFault_fault (r : FaultReason) (s : State) :
    (raiseFault r s).fault = some r := rfl

@[simp] theorem raiseFault_bitcnt (r : FaultReason) (s : State) :
    (raiseFault r s).bitcnt = s.bitcnt := rfl

@[simp] theorem raiseFault_res0 (r : FaultReason) (s : State) :
    (raiseFault r s).res0 = s.res0 := rfl

@[simp] theorem raiseFault_res1 (r : FaultReason) (s : State) :
    (raiseFault r s).res1 = s.res1 := rfl

@[simp] theorem raiseFault_res2 (r : FaultReason) (s : State) :
    (raiseFault r s).res2 = s.res2 := rfl

@[simp] theorem raiseFault_tcfg (r : FaultReason) (s : State) :
    (raiseFault r s).tcfg = s.tcfg := rfl

@[simp] theorem raiseFault_rtcfg (r : FaultReason) (s : State) :
    (raiseFault r s).rtcfg = s.rtcfg := rfl

@[simp] theorem raiseFault_buf0 (r : FaultReason) (s : State) :
    (raiseFault r s).buf0 = s.buf0 := rfl

@[simp] theorem raiseFault_buf1 (r : FaultReason) (s : State) :
    (raiseFault r s).buf1 = s.buf1 := rfl

@[simp] theorem raiseFault_store (r : FaultReason) (s : State) :
    (raiseFault r s).store = s.store := rfl

@[simp] theorem raiseFault_cfg (r : FaultReason) (s : State) :
    (raiseFault r s).cfg = s.cfg := rfl

@[simp] theorem raiseFault_pending (r : FaultReason) (s : State) :
    (raiseFault r s).pending = s.pending := rfl

@[simp] theorem raiseFault_inbox (r : FaultReason) (s : State) :
    (raiseFault r s).inbox = s.inbox := rfl

@[simp] theorem raiseFault_answers (r : FaultReason) (s : State) :
    (raiseFault r s).answers = s.answers := rfl

@[simp] theorem raiseFault_draws (r : FaultReason) (s : State) :
    (raiseFault r s).draws = s.draws := rfl

@[simp] theorem raiseFault_hostData (r : FaultReason) (s : State) :
    (raiseFault r s).hostData = s.hostData := rfl

/-! ### `resetBlock` -/

@[simp] theorem resetBlock_opw (s : State) :
    (resetBlock s).opw = State.reset.opw := rfl

@[simp] theorem resetBlock_a0 (s : State) :
    (resetBlock s).a0 = State.reset.a0 := rfl

@[simp] theorem resetBlock_a1 (s : State) :
    (resetBlock s).a1 = State.reset.a1 := rfl

@[simp] theorem resetBlock_a2 (s : State) :
    (resetBlock s).a2 = State.reset.a2 := rfl

@[simp] theorem resetBlock_a3 (s : State) :
    (resetBlock s).a3 = State.reset.a3 := rfl

@[simp] theorem resetBlock_a4 (s : State) :
    (resetBlock s).a4 = State.reset.a4 := rfl

@[simp] theorem resetBlock_a5 (s : State) :
    (resetBlock s).a5 = State.reset.a5 := rfl

@[simp] theorem resetBlock_a6 (s : State) :
    (resetBlock s).a6 = State.reset.a6 := rfl

@[simp] theorem resetBlock_status (s : State) :
    (resetBlock s).status = State.reset.status := rfl

@[simp] theorem resetBlock_fault (s : State) :
    (resetBlock s).fault = State.reset.fault := rfl

@[simp] theorem resetBlock_bitcnt (s : State) :
    (resetBlock s).bitcnt = State.reset.bitcnt := rfl

@[simp] theorem resetBlock_res0 (s : State) :
    (resetBlock s).res0 = State.reset.res0 := rfl

@[simp] theorem resetBlock_res1 (s : State) :
    (resetBlock s).res1 = State.reset.res1 := rfl

@[simp] theorem resetBlock_res2 (s : State) :
    (resetBlock s).res2 = State.reset.res2 := rfl

@[simp] theorem resetBlock_tcfg (s : State) :
    (resetBlock s).tcfg = State.reset.tcfg := rfl

@[simp] theorem resetBlock_rtcfg (s : State) :
    (resetBlock s).rtcfg = State.reset.rtcfg := rfl

@[simp] theorem resetBlock_buf0 (s : State) :
    (resetBlock s).buf0 = State.reset.buf0 := rfl

@[simp] theorem resetBlock_buf1 (s : State) :
    (resetBlock s).buf1 = State.reset.buf1 := rfl

@[simp] theorem resetBlock_store (s : State) :
    (resetBlock s).store = s.store := rfl

@[simp] theorem resetBlock_cfg (s : State) :
    (resetBlock s).cfg = s.cfg := rfl

@[simp] theorem resetBlock_pending (s : State) :
    (resetBlock s).pending = State.reset.pending := rfl

@[simp] theorem resetBlock_inbox (s : State) :
    (resetBlock s).inbox = s.inbox := rfl

@[simp] theorem resetBlock_answers (s : State) :
    (resetBlock s).answers = s.answers := rfl

@[simp] theorem resetBlock_draws (s : State) :
    (resetBlock s).draws = s.draws := rfl

@[simp] theorem resetBlock_hostData (s : State) :
    (resetBlock s).hostData = s.hostData := rfl

/-! ### `hostRead` -/

@[simp] theorem hostRead_opw (t : Target) (s : State) :
    (hostRead t s).opw = s.opw := rfl

@[simp] theorem hostRead_a0 (t : Target) (s : State) :
    (hostRead t s).a0 = s.a0 := rfl

@[simp] theorem hostRead_a1 (t : Target) (s : State) :
    (hostRead t s).a1 = s.a1 := rfl

@[simp] theorem hostRead_a2 (t : Target) (s : State) :
    (hostRead t s).a2 = s.a2 := rfl

@[simp] theorem hostRead_a3 (t : Target) (s : State) :
    (hostRead t s).a3 = s.a3 := rfl

@[simp] theorem hostRead_a4 (t : Target) (s : State) :
    (hostRead t s).a4 = s.a4 := rfl

@[simp] theorem hostRead_a5 (t : Target) (s : State) :
    (hostRead t s).a5 = s.a5 := rfl

@[simp] theorem hostRead_a6 (t : Target) (s : State) :
    (hostRead t s).a6 = s.a6 := rfl

@[simp] theorem hostRead_status (t : Target) (s : State) :
    (hostRead t s).status = s.status := rfl

@[simp] theorem hostRead_fault (t : Target) (s : State) :
    (hostRead t s).fault = s.fault := rfl

@[simp] theorem hostRead_bitcnt (t : Target) (s : State) :
    (hostRead t s).bitcnt = s.bitcnt := rfl

@[simp] theorem hostRead_res0 (t : Target) (s : State) :
    (hostRead t s).res0 = s.res0 := rfl

@[simp] theorem hostRead_res1 (t : Target) (s : State) :
    (hostRead t s).res1 = s.res1 := rfl

@[simp] theorem hostRead_res2 (t : Target) (s : State) :
    (hostRead t s).res2 = s.res2 := rfl

@[simp] theorem hostRead_tcfg (t : Target) (s : State) :
    (hostRead t s).tcfg = s.tcfg := rfl

@[simp] theorem hostRead_rtcfg (t : Target) (s : State) :
    (hostRead t s).rtcfg = s.rtcfg := rfl

@[simp] theorem hostRead_buf0 (t : Target) (s : State) :
    (hostRead t s).buf0 = s.buf0 := rfl

@[simp] theorem hostRead_buf1 (t : Target) (s : State) :
    (hostRead t s).buf1 = s.buf1 := rfl

@[simp] theorem hostRead_store (t : Target) (s : State) :
    (hostRead t s).store = s.store := rfl

@[simp] theorem hostRead_cfg (t : Target) (s : State) :
    (hostRead t s).cfg = s.cfg := rfl

@[simp] theorem hostRead_pending (t : Target) (s : State) :
    (hostRead t s).pending = s.pending := rfl

@[simp] theorem hostRead_inbox (t : Target) (s : State) :
    (hostRead t s).inbox = s.inbox := rfl

@[simp] theorem hostRead_answers (t : Target) (s : State) :
    (hostRead t s).answers = s.answers := rfl

@[simp] theorem hostRead_draws (t : Target) (s : State) :
    (hostRead t s).draws = s.draws + 1 := rfl

@[simp] theorem hostRead_hostData (t : Target) (s : State) :
    (hostRead t s).hostData = some (s.readValue (Config.freeWord s.draws) t) := rfl

/-! ### `fmtEmit` -/

@[simp] theorem fmtEmit_opw (p : Protocol) (f : Frame) (s : State) :
    (fmtEmit p f s).opw = s.opw := rfl

@[simp] theorem fmtEmit_a0 (p : Protocol) (f : Frame) (s : State) :
    (fmtEmit p f s).a0 = s.a0 := rfl

@[simp] theorem fmtEmit_a1 (p : Protocol) (f : Frame) (s : State) :
    (fmtEmit p f s).a1 = s.a1 := rfl

@[simp] theorem fmtEmit_a2 (p : Protocol) (f : Frame) (s : State) :
    (fmtEmit p f s).a2 = s.a2 := rfl

@[simp] theorem fmtEmit_a3 (p : Protocol) (f : Frame) (s : State) :
    (fmtEmit p f s).a3 = s.a3 := rfl

@[simp] theorem fmtEmit_a4 (p : Protocol) (f : Frame) (s : State) :
    (fmtEmit p f s).a4 = s.a4 := rfl

@[simp] theorem fmtEmit_a5 (p : Protocol) (f : Frame) (s : State) :
    (fmtEmit p f s).a5 = s.a5 := rfl

@[simp] theorem fmtEmit_a6 (p : Protocol) (f : Frame) (s : State) :
    (fmtEmit p f s).a6 = s.a6 := rfl

@[simp] theorem fmtEmit_status (p : Protocol) (f : Frame) (s : State) :
    (fmtEmit p f s).status = .ok := rfl

@[simp] theorem fmtEmit_fault (p : Protocol) (f : Frame) (s : State) :
    (fmtEmit p f s).fault = s.fault := rfl

@[simp] theorem fmtEmit_bitcnt (p : Protocol) (f : Frame) (s : State) :
    (fmtEmit p f s).bitcnt = BitVec.ofNat 16 (frameBits s.cfg p) := rfl

@[simp] theorem fmtEmit_res0 (p : Protocol) (f : Frame) (s : State) :
    (fmtEmit p f s).res0 = s.res0 := rfl

@[simp] theorem fmtEmit_res1 (p : Protocol) (f : Frame) (s : State) :
    (fmtEmit p f s).res1 = s.res1 := rfl

@[simp] theorem fmtEmit_res2 (p : Protocol) (f : Frame) (s : State) :
    (fmtEmit p f s).res2 = s.res2 := rfl

@[simp] theorem fmtEmit_tcfg (p : Protocol) (f : Frame) (s : State) :
    (fmtEmit p f s).tcfg = timingOf s.cfg p := rfl

@[simp] theorem fmtEmit_rtcfg (p : Protocol) (f : Frame) (s : State) :
    (fmtEmit p f s).rtcfg = s.rtcfg := rfl

@[simp] theorem fmtEmit_buf0 (p : Protocol) (f : Frame) (s : State) :
    (fmtEmit p f s).buf0 = Memory.write s.buf0 0 f := rfl

@[simp] theorem fmtEmit_buf1 (p : Protocol) (f : Frame) (s : State) :
    (fmtEmit p f s).buf1 = s.buf1 := rfl

@[simp] theorem fmtEmit_store (p : Protocol) (f : Frame) (s : State) :
    (fmtEmit p f s).store = s.store := rfl

@[simp] theorem fmtEmit_cfg (p : Protocol) (f : Frame) (s : State) :
    (fmtEmit p f s).cfg = s.cfg := rfl

@[simp] theorem fmtEmit_pending (p : Protocol) (f : Frame) (s : State) :
    (fmtEmit p f s).pending = s.pending := rfl

@[simp] theorem fmtEmit_inbox (p : Protocol) (f : Frame) (s : State) :
    (fmtEmit p f s).inbox = s.inbox := rfl

@[simp] theorem fmtEmit_answers (p : Protocol) (f : Frame) (s : State) :
    (fmtEmit p f s).answers = s.answers := rfl

@[simp] theorem fmtEmit_draws (p : Protocol) (f : Frame) (s : State) :
    (fmtEmit p f s).draws = s.draws := rfl

@[simp] theorem fmtEmit_hostData (p : Protocol) (f : Frame) (s : State) :
    (fmtEmit p f s).hostData = s.hostData := rfl

/-! ### `State.withBuffer` -/

@[simp] theorem withBuffer_opw (b : BufSel) (m : Memory) (s : State) :
    (s.withBuffer b m).opw = s.opw := by
  cases b <;> rfl

@[simp] theorem withBuffer_a0 (b : BufSel) (m : Memory) (s : State) :
    (s.withBuffer b m).a0 = s.a0 := by
  cases b <;> rfl

@[simp] theorem withBuffer_a1 (b : BufSel) (m : Memory) (s : State) :
    (s.withBuffer b m).a1 = s.a1 := by
  cases b <;> rfl

@[simp] theorem withBuffer_a2 (b : BufSel) (m : Memory) (s : State) :
    (s.withBuffer b m).a2 = s.a2 := by
  cases b <;> rfl

@[simp] theorem withBuffer_a3 (b : BufSel) (m : Memory) (s : State) :
    (s.withBuffer b m).a3 = s.a3 := by
  cases b <;> rfl

@[simp] theorem withBuffer_a4 (b : BufSel) (m : Memory) (s : State) :
    (s.withBuffer b m).a4 = s.a4 := by
  cases b <;> rfl

@[simp] theorem withBuffer_a5 (b : BufSel) (m : Memory) (s : State) :
    (s.withBuffer b m).a5 = s.a5 := by
  cases b <;> rfl

@[simp] theorem withBuffer_a6 (b : BufSel) (m : Memory) (s : State) :
    (s.withBuffer b m).a6 = s.a6 := by
  cases b <;> rfl

@[simp] theorem withBuffer_status (b : BufSel) (m : Memory) (s : State) :
    (s.withBuffer b m).status = s.status := by
  cases b <;> rfl

@[simp] theorem withBuffer_fault (b : BufSel) (m : Memory) (s : State) :
    (s.withBuffer b m).fault = s.fault := by
  cases b <;> rfl

@[simp] theorem withBuffer_bitcnt (b : BufSel) (m : Memory) (s : State) :
    (s.withBuffer b m).bitcnt = s.bitcnt := by
  cases b <;> rfl

@[simp] theorem withBuffer_res0 (b : BufSel) (m : Memory) (s : State) :
    (s.withBuffer b m).res0 = s.res0 := by
  cases b <;> rfl

@[simp] theorem withBuffer_res1 (b : BufSel) (m : Memory) (s : State) :
    (s.withBuffer b m).res1 = s.res1 := by
  cases b <;> rfl

@[simp] theorem withBuffer_res2 (b : BufSel) (m : Memory) (s : State) :
    (s.withBuffer b m).res2 = s.res2 := by
  cases b <;> rfl

@[simp] theorem withBuffer_tcfg (b : BufSel) (m : Memory) (s : State) :
    (s.withBuffer b m).tcfg = s.tcfg := by
  cases b <;> rfl

@[simp] theorem withBuffer_rtcfg (b : BufSel) (m : Memory) (s : State) :
    (s.withBuffer b m).rtcfg = s.rtcfg := by
  cases b <;> rfl

@[simp] theorem withBuffer_store (b : BufSel) (m : Memory) (s : State) :
    (s.withBuffer b m).store = s.store := by
  cases b <;> rfl

@[simp] theorem withBuffer_cfg (b : BufSel) (m : Memory) (s : State) :
    (s.withBuffer b m).cfg = s.cfg := by
  cases b <;> rfl

@[simp] theorem withBuffer_pending (b : BufSel) (m : Memory) (s : State) :
    (s.withBuffer b m).pending = s.pending := by
  cases b <;> rfl

@[simp] theorem withBuffer_inbox (b : BufSel) (m : Memory) (s : State) :
    (s.withBuffer b m).inbox = s.inbox := by
  cases b <;> rfl

@[simp] theorem withBuffer_answers (b : BufSel) (m : Memory) (s : State) :
    (s.withBuffer b m).answers = s.answers := by
  cases b <;> rfl

@[simp] theorem withBuffer_draws (b : BufSel) (m : Memory) (s : State) :
    (s.withBuffer b m).draws = s.draws := by
  cases b <;> rfl

@[simp] theorem withBuffer_hostData (b : BufSel) (m : Memory) (s : State) :
    (s.withBuffer b m).hostData = s.hostData := by
  cases b <;> rfl

@[simp] theorem withBuffer_buffer (b : BufSel) (m : Memory) (s : State) :
    (s.withBuffer b m).buffer b = m := by
  cases b <;> rfl

@[simp] theorem withBuffer_buf0_buf0 (m : Memory) (s : State) : (s.withBuffer .buf0 m).buf0 = m := rfl

@[simp] theorem withBuffer_buf0_buf1 (m : Memory) (s : State) : (s.withBuffer .buf0 m).buf1 = s.buf1 := rfl

@[simp] theorem withBuffer_buf1_buf0 (m : Memory) (s : State) : (s.withBuffer .buf1 m).buf0 = s.buf0 := rfl

@[simp] theorem withBuffer_buf1_buf1 (m : Memory) (s : State) : (s.withBuffer .buf1 m).buf1 = m := rfl

/-! ### `State.takeAnswer` -/

@[simp] theorem takeAnswer_opw (s : State) :
    (s.takeAnswer).opw = s.opw := by
  cases h : s.answers <;> simp [State.takeAnswer, h]

@[simp] theorem takeAnswer_a0 (s : State) :
    (s.takeAnswer).a0 = s.a0 := by
  cases h : s.answers <;> simp [State.takeAnswer, h]

@[simp] theorem takeAnswer_a1 (s : State) :
    (s.takeAnswer).a1 = s.a1 := by
  cases h : s.answers <;> simp [State.takeAnswer, h]

@[simp] theorem takeAnswer_a2 (s : State) :
    (s.takeAnswer).a2 = s.a2 := by
  cases h : s.answers <;> simp [State.takeAnswer, h]

@[simp] theorem takeAnswer_a3 (s : State) :
    (s.takeAnswer).a3 = s.a3 := by
  cases h : s.answers <;> simp [State.takeAnswer, h]

@[simp] theorem takeAnswer_a4 (s : State) :
    (s.takeAnswer).a4 = s.a4 := by
  cases h : s.answers <;> simp [State.takeAnswer, h]

@[simp] theorem takeAnswer_a5 (s : State) :
    (s.takeAnswer).a5 = s.a5 := by
  cases h : s.answers <;> simp [State.takeAnswer, h]

@[simp] theorem takeAnswer_a6 (s : State) :
    (s.takeAnswer).a6 = s.a6 := by
  cases h : s.answers <;> simp [State.takeAnswer, h]

@[simp] theorem takeAnswer_status (s : State) :
    (s.takeAnswer).status = s.status := by
  cases h : s.answers <;> simp [State.takeAnswer, h]

@[simp] theorem takeAnswer_fault (s : State) :
    (s.takeAnswer).fault = s.fault := by
  cases h : s.answers <;> simp [State.takeAnswer, h]

@[simp] theorem takeAnswer_bitcnt (s : State) :
    (s.takeAnswer).bitcnt = s.bitcnt := by
  cases h : s.answers <;> simp [State.takeAnswer, h]

@[simp] theorem takeAnswer_res0 (s : State) :
    (s.takeAnswer).res0 = s.res0 := by
  cases h : s.answers <;> simp [State.takeAnswer, h]

@[simp] theorem takeAnswer_res1 (s : State) :
    (s.takeAnswer).res1 = s.res1 := by
  cases h : s.answers <;> simp [State.takeAnswer, h]

@[simp] theorem takeAnswer_res2 (s : State) :
    (s.takeAnswer).res2 = s.res2 := by
  cases h : s.answers <;> simp [State.takeAnswer, h]

@[simp] theorem takeAnswer_tcfg (s : State) :
    (s.takeAnswer).tcfg = s.tcfg := by
  cases h : s.answers <;> simp [State.takeAnswer, h]

@[simp] theorem takeAnswer_rtcfg (s : State) :
    (s.takeAnswer).rtcfg = s.rtcfg := by
  cases h : s.answers <;> simp [State.takeAnswer, h]

@[simp] theorem takeAnswer_buf0 (s : State) :
    (s.takeAnswer).buf0 = s.buf0 := by
  cases h : s.answers <;> simp [State.takeAnswer, h]

@[simp] theorem takeAnswer_buf1 (s : State) :
    (s.takeAnswer).buf1 = s.buf1 := by
  cases h : s.answers <;> simp [State.takeAnswer, h]

@[simp] theorem takeAnswer_store (s : State) :
    (s.takeAnswer).store = s.store := by
  cases h : s.answers <;> simp [State.takeAnswer, h]

@[simp] theorem takeAnswer_cfg (s : State) :
    (s.takeAnswer).cfg = s.cfg := by
  cases h : s.answers <;> simp [State.takeAnswer, h]

@[simp] theorem takeAnswer_pending (s : State) :
    (s.takeAnswer).pending = s.pending := by
  cases h : s.answers <;> simp [State.takeAnswer, h]

@[simp] theorem takeAnswer_inbox (s : State) :
    (s.takeAnswer).inbox = s.inbox := by
  cases h : s.answers <;> simp [State.takeAnswer, h]

@[simp] theorem takeAnswer_answers (s : State) :
    (s.takeAnswer).answers = s.answers.tail := by
  cases h : s.answers <;> simp [State.takeAnswer, h]

@[simp] theorem takeAnswer_draws (s : State) :
    (s.takeAnswer).draws = if s.answers = [] then s.draws + 1 else s.draws := by
  cases h : s.answers <;> simp [State.takeAnswer, h]

@[simp] theorem takeAnswer_hostData (s : State) :
    (s.takeAnswer).hostData = s.hostData := by
  cases h : s.answers <;> simp [State.takeAnswer, h]

/-! ### `State.afterStoreRead` -/

@[simp] theorem afterStoreRead_opw (key : StoreKey) (s : State) :
    (s.afterStoreRead key).opw = s.opw := by
  cases h : s.nextAnswer <;> simp [State.afterStoreRead, h]

@[simp] theorem afterStoreRead_a0 (key : StoreKey) (s : State) :
    (s.afterStoreRead key).a0 = s.a0 := by
  cases h : s.nextAnswer <;> simp [State.afterStoreRead, h]

@[simp] theorem afterStoreRead_a1 (key : StoreKey) (s : State) :
    (s.afterStoreRead key).a1 = s.a1 := by
  cases h : s.nextAnswer <;> simp [State.afterStoreRead, h]

@[simp] theorem afterStoreRead_a2 (key : StoreKey) (s : State) :
    (s.afterStoreRead key).a2 = s.a2 := by
  cases h : s.nextAnswer <;> simp [State.afterStoreRead, h]

@[simp] theorem afterStoreRead_a3 (key : StoreKey) (s : State) :
    (s.afterStoreRead key).a3 = s.a3 := by
  cases h : s.nextAnswer <;> simp [State.afterStoreRead, h]

@[simp] theorem afterStoreRead_a4 (key : StoreKey) (s : State) :
    (s.afterStoreRead key).a4 = s.a4 := by
  cases h : s.nextAnswer <;> simp [State.afterStoreRead, h]

@[simp] theorem afterStoreRead_a5 (key : StoreKey) (s : State) :
    (s.afterStoreRead key).a5 = s.a5 := by
  cases h : s.nextAnswer <;> simp [State.afterStoreRead, h]

@[simp] theorem afterStoreRead_a6 (key : StoreKey) (s : State) :
    (s.afterStoreRead key).a6 = s.a6 := by
  cases h : s.nextAnswer <;> simp [State.afterStoreRead, h]

@[simp] theorem afterStoreRead_status (key : StoreKey) (s : State) :
    (s.afterStoreRead key).status = s.status := by
  cases h : s.nextAnswer <;> simp [State.afterStoreRead, h]

@[simp] theorem afterStoreRead_fault (key : StoreKey) (s : State) :
    (s.afterStoreRead key).fault = s.fault := by
  cases h : s.nextAnswer <;> simp [State.afterStoreRead, h]

@[simp] theorem afterStoreRead_bitcnt (key : StoreKey) (s : State) :
    (s.afterStoreRead key).bitcnt = s.bitcnt := by
  cases h : s.nextAnswer <;> simp [State.afterStoreRead, h]

@[simp] theorem afterStoreRead_res0 (key : StoreKey) (s : State) :
    (s.afterStoreRead key).res0 = s.res0 := by
  cases h : s.nextAnswer <;> simp [State.afterStoreRead, h]

@[simp] theorem afterStoreRead_res1 (key : StoreKey) (s : State) :
    (s.afterStoreRead key).res1 = s.res1 := by
  cases h : s.nextAnswer <;> simp [State.afterStoreRead, h]

@[simp] theorem afterStoreRead_res2 (key : StoreKey) (s : State) :
    (s.afterStoreRead key).res2 = s.res2 := by
  cases h : s.nextAnswer <;> simp [State.afterStoreRead, h]

@[simp] theorem afterStoreRead_tcfg (key : StoreKey) (s : State) :
    (s.afterStoreRead key).tcfg = s.tcfg := by
  cases h : s.nextAnswer <;> simp [State.afterStoreRead, h]

@[simp] theorem afterStoreRead_rtcfg (key : StoreKey) (s : State) :
    (s.afterStoreRead key).rtcfg = s.rtcfg := by
  cases h : s.nextAnswer <;> simp [State.afterStoreRead, h]

@[simp] theorem afterStoreRead_buf0 (key : StoreKey) (s : State) :
    (s.afterStoreRead key).buf0 = s.buf0 := by
  cases h : s.nextAnswer <;> simp [State.afterStoreRead, h]

@[simp] theorem afterStoreRead_buf1 (key : StoreKey) (s : State) :
    (s.afterStoreRead key).buf1 = s.buf1 := by
  cases h : s.nextAnswer <;> simp [State.afterStoreRead, h]

@[simp] theorem afterStoreRead_store (key : StoreKey) (s : State) :
    (s.afterStoreRead key).store = if s.nextAnswer then ReplayStore.touch s.store key else s.store := by
  cases h : s.nextAnswer <;> simp [State.afterStoreRead, h]

@[simp] theorem afterStoreRead_cfg (key : StoreKey) (s : State) :
    (s.afterStoreRead key).cfg = s.cfg := by
  cases h : s.nextAnswer <;> simp [State.afterStoreRead, h]

@[simp] theorem afterStoreRead_pending (key : StoreKey) (s : State) :
    (s.afterStoreRead key).pending = s.pending := by
  cases h : s.nextAnswer <;> simp [State.afterStoreRead, h]

@[simp] theorem afterStoreRead_inbox (key : StoreKey) (s : State) :
    (s.afterStoreRead key).inbox = s.inbox := by
  cases h : s.nextAnswer <;> simp [State.afterStoreRead, h]

@[simp] theorem afterStoreRead_answers (key : StoreKey) (s : State) :
    (s.afterStoreRead key).answers = s.answers.tail := by
  cases h : s.nextAnswer <;> simp [State.afterStoreRead, h]

@[simp] theorem afterStoreRead_draws (key : StoreKey) (s : State) :
    (s.afterStoreRead key).draws = if s.answers = [] then s.draws + 1 else s.draws := by
  cases h : s.nextAnswer <;> simp [State.afterStoreRead, h]

@[simp] theorem afterStoreRead_hostData (key : StoreKey) (s : State) :
    (s.afterStoreRead key).hostData = s.hostData := by
  cases h : s.nextAnswer <;> simp [State.afterStoreRead, h]

/-! ### `State.afterStoreWrite` -/

@[simp] theorem afterStoreWrite_opw (key : StoreKey) (v : Half) (s : State) :
    (s.afterStoreWrite key v).opw = s.opw := by
  cases h : s.nextAnswer <;> simp [State.afterStoreWrite, h]

@[simp] theorem afterStoreWrite_a0 (key : StoreKey) (v : Half) (s : State) :
    (s.afterStoreWrite key v).a0 = s.a0 := by
  cases h : s.nextAnswer <;> simp [State.afterStoreWrite, h]

@[simp] theorem afterStoreWrite_a1 (key : StoreKey) (v : Half) (s : State) :
    (s.afterStoreWrite key v).a1 = s.a1 := by
  cases h : s.nextAnswer <;> simp [State.afterStoreWrite, h]

@[simp] theorem afterStoreWrite_a2 (key : StoreKey) (v : Half) (s : State) :
    (s.afterStoreWrite key v).a2 = s.a2 := by
  cases h : s.nextAnswer <;> simp [State.afterStoreWrite, h]

@[simp] theorem afterStoreWrite_a3 (key : StoreKey) (v : Half) (s : State) :
    (s.afterStoreWrite key v).a3 = s.a3 := by
  cases h : s.nextAnswer <;> simp [State.afterStoreWrite, h]

@[simp] theorem afterStoreWrite_a4 (key : StoreKey) (v : Half) (s : State) :
    (s.afterStoreWrite key v).a4 = s.a4 := by
  cases h : s.nextAnswer <;> simp [State.afterStoreWrite, h]

@[simp] theorem afterStoreWrite_a5 (key : StoreKey) (v : Half) (s : State) :
    (s.afterStoreWrite key v).a5 = s.a5 := by
  cases h : s.nextAnswer <;> simp [State.afterStoreWrite, h]

@[simp] theorem afterStoreWrite_a6 (key : StoreKey) (v : Half) (s : State) :
    (s.afterStoreWrite key v).a6 = s.a6 := by
  cases h : s.nextAnswer <;> simp [State.afterStoreWrite, h]

@[simp] theorem afterStoreWrite_status (key : StoreKey) (v : Half) (s : State) :
    (s.afterStoreWrite key v).status = s.status := by
  cases h : s.nextAnswer <;> simp [State.afterStoreWrite, h]

@[simp] theorem afterStoreWrite_fault (key : StoreKey) (v : Half) (s : State) :
    (s.afterStoreWrite key v).fault = s.fault := by
  cases h : s.nextAnswer <;> simp [State.afterStoreWrite, h]

@[simp] theorem afterStoreWrite_bitcnt (key : StoreKey) (v : Half) (s : State) :
    (s.afterStoreWrite key v).bitcnt = s.bitcnt := by
  cases h : s.nextAnswer <;> simp [State.afterStoreWrite, h]

@[simp] theorem afterStoreWrite_res0 (key : StoreKey) (v : Half) (s : State) :
    (s.afterStoreWrite key v).res0 = s.res0 := by
  cases h : s.nextAnswer <;> simp [State.afterStoreWrite, h]

@[simp] theorem afterStoreWrite_res1 (key : StoreKey) (v : Half) (s : State) :
    (s.afterStoreWrite key v).res1 = s.res1 := by
  cases h : s.nextAnswer <;> simp [State.afterStoreWrite, h]

@[simp] theorem afterStoreWrite_res2 (key : StoreKey) (v : Half) (s : State) :
    (s.afterStoreWrite key v).res2 = s.res2 := by
  cases h : s.nextAnswer <;> simp [State.afterStoreWrite, h]

@[simp] theorem afterStoreWrite_tcfg (key : StoreKey) (v : Half) (s : State) :
    (s.afterStoreWrite key v).tcfg = s.tcfg := by
  cases h : s.nextAnswer <;> simp [State.afterStoreWrite, h]

@[simp] theorem afterStoreWrite_rtcfg (key : StoreKey) (v : Half) (s : State) :
    (s.afterStoreWrite key v).rtcfg = s.rtcfg := by
  cases h : s.nextAnswer <;> simp [State.afterStoreWrite, h]

@[simp] theorem afterStoreWrite_buf0 (key : StoreKey) (v : Half) (s : State) :
    (s.afterStoreWrite key v).buf0 = s.buf0 := by
  cases h : s.nextAnswer <;> simp [State.afterStoreWrite, h]

@[simp] theorem afterStoreWrite_buf1 (key : StoreKey) (v : Half) (s : State) :
    (s.afterStoreWrite key v).buf1 = s.buf1 := by
  cases h : s.nextAnswer <;> simp [State.afterStoreWrite, h]

@[simp] theorem afterStoreWrite_store (key : StoreKey) (v : Half) (s : State) :
    (s.afterStoreWrite key v).store = if s.nextAnswer then ReplayStore.insert s.store key v else s.store := by
  cases h : s.nextAnswer <;> simp [State.afterStoreWrite, h]

@[simp] theorem afterStoreWrite_cfg (key : StoreKey) (v : Half) (s : State) :
    (s.afterStoreWrite key v).cfg = s.cfg := by
  cases h : s.nextAnswer <;> simp [State.afterStoreWrite, h]

@[simp] theorem afterStoreWrite_pending (key : StoreKey) (v : Half) (s : State) :
    (s.afterStoreWrite key v).pending = s.pending := by
  cases h : s.nextAnswer <;> simp [State.afterStoreWrite, h]

@[simp] theorem afterStoreWrite_inbox (key : StoreKey) (v : Half) (s : State) :
    (s.afterStoreWrite key v).inbox = s.inbox := by
  cases h : s.nextAnswer <;> simp [State.afterStoreWrite, h]

@[simp] theorem afterStoreWrite_answers (key : StoreKey) (v : Half) (s : State) :
    (s.afterStoreWrite key v).answers = s.answers.tail := by
  cases h : s.nextAnswer <;> simp [State.afterStoreWrite, h]

@[simp] theorem afterStoreWrite_draws (key : StoreKey) (v : Half) (s : State) :
    (s.afterStoreWrite key v).draws = if s.answers = [] then s.draws + 1 else s.draws := by
  cases h : s.nextAnswer <;> simp [State.afterStoreWrite, h]

@[simp] theorem afterStoreWrite_hostData (key : StoreKey) (v : Half) (s : State) :
    (s.afterStoreWrite key v).hostData = s.hostData := by
  cases h : s.nextAnswer <;> simp [State.afterStoreWrite, h]

end Sys2Proof.Laws
end

