-- ==== Sys2Proof/Laws/Ops.lean ====
section
/-! SUPPORT. For each shared operation, once, everything it can do. -/

namespace Sys2Proof.Laws

open Sys2Proof Sys2Proof.Machine

/-! ### Operands and endings -/

/-- Operand reads either fault or go on with their values. -/
theorem withOperands_cases {α : Type} (o : Option α) (s : State) (k : α → State) :
    (o = none ∧ withOperands o s k = raiseFault .unwrittenRead s)
      ∨ ∃ x, o = some x ∧ withOperands o s k = k x := by
  cases o with
  | none => exact .inl ⟨rfl, rfl⟩
  | some x => exact .inr ⟨x, rfl, rfl⟩

@[simp] theorem withOperands_none {α : Type} (s : State) (k : α → State) :
    withOperands none s k = raiseFault .unwrittenRead s := rfl

@[simp] theorem withOperands_some {α : Type} (x : α) (s : State) (k : α → State) :
    withOperands (some x) s k = k x := rfl

theorem operands01_eq_some (s : State) (o : Word × Word) :
    s.operands01 = some o ↔ s.a0 = some o.1 ∧ s.a1 = some o.2 := by
  obtain ⟨x, y⟩ := o
  cases h0 : s.a0 <;> cases h1 : s.a1 <;> simp [State.operands01, h0, h1]

theorem operands12_eq_some (s : State) (o : Word × Word) :
    s.operands12 = some o ↔ s.a1 = some o.1 ∧ s.a2 = some o.2 := by
  obtain ⟨x, y⟩ := o
  cases h0 : s.a1 <;> cases h1 : s.a2 <;> simp [State.operands12, h0, h1]

theorem operands012_eq_some (s : State) (o : Word × Word × Word) :
    s.operands012 = some o ↔ s.a0 = some o.1 ∧ s.a1 = some o.2.1 ∧ s.a2 = some o.2.2 := by
  obtain ⟨x, y, z⟩ := o
  cases h0 : s.a0 <;> cases h1 : s.a1 <;> cases h2 : s.a2 <;>
    simp [State.operands012, h0, h1, h2]

theorem operandsBits_eq_some (s : State) (o : BitsOperands) :
    s.operandsBits = some o ↔ s.a0 = some o.off ∧ s.a1 = some o.data ∧ s.a2 = some o.len
      ∧ s.a3 = some o.zeroH ∧ s.a4 = some o.zeroL ∧ s.a5 = some o.oneH ∧ s.a6 = some o.oneL := by
  obtain ⟨off, data, len, zh, zl, oh, ol⟩ := o
  cases h0 : s.a0 <;> cases h1 : s.a1 <;> cases h2 : s.a2 <;> cases h3 : s.a3 <;>
    cases h4 : s.a4 <;> cases h5 : s.a5 <;> cases h6 : s.a6 <;>
    simp [State.operandsBits, h0, h1, h2, h3, h4, h5, h6]

theorem durations_eq_some (t : TimingRegs) (o : BitVec 2 × Pulses) :
    t.durations = some o ↔ ∃ a b c d, t.fmt = some o.1 ∧ t.start = some a ∧ t.stop = some b
      ∧ t.bit0 = some c ∧ t.bit1 = some d ∧ o.2 = pulsesOf a b c d := by
  obtain ⟨f, p⟩ := o
  cases h0 : t.fmt <;> cases h1 : t.start <;> cases h2 : t.stop <;> cases h3 : t.bit0 <;>
    cases h4 : t.bit1 <;> simp [TimingRegs.durations, h0, h1, h2, h3, h4, eq_comm]

/-! ### BitWriter -/

/-- A BitWriter write either faults on the physical capacity or writes its bits, RES0 and STATUS. -/
theorem bwWrite_cases (b : BufSel) (off total : Nat) (f : Frame) (s : State) :
    (8 * s.cfg.bufBytes < off + total ∧ bwWrite b off total f s = raiseFault .outOfBounds s)
      ∨ (off + total ≤ 8 * s.cfg.bufBytes ∧ bwWrite b off total f s = complete .ok
          { s.withBuffer b (Memory.write (s.buffer b) off f) with res0 := BitVec.ofNat 32 total }) := by
  by_cases h : 8 * s.cfg.bufBytes < off + total
  · exact .inl ⟨h, by simp [bwWrite, h]⟩
  · exact .inr ⟨by omega, by simp [bwWrite, h]⟩

/-- The total of BW.BITS is the number of bits it writes (40_bitwriter.md R117). -/
theorem bitsFrame_length (o : BitsOperands) (oo zo : Order) : (o.frame oo zo).length = o.total := by
  simp [BitsOperands.frame, dataEdges, edges_length, BitsOperands.total]

/-! ### The FMT pipeline -/

/-- When the FMT checks pass. -/
theorem fmtRefusal_eq_none (c : Config) (p : Protocol) (cmd : Command) (dl : Word) :
    fmtRefusal c p cmd dl = none ↔
      dl.toNat ≤ c.bufBytes ∧ frameBits c p ≤ 8 * dl.toNat ∧ cmd ∈ accepted p := by
  unfold fmtRefusal
  split
  · simp; omega
  · split
    · simp; omega
    · split
      · simp [*]; omega
      · simp [*]

/-- A refusing FMT check never answers OK. -/
theorem fmtRefusal_ne_ok (c : Config) (p : Protocol) (cmd : Command) (dl : Word) :
    fmtRefusal c p cmd dl ≠ some .ok := by
  unfold fmtRefusal
  split
  · simp
  · split
    · simp
    · split <;> simp

/-- A FMT without the store ends with a check's status or writes its frame. -/
theorem fmtFixed_cases (p : Protocol) (cmd : Command) (dl : Word) (f : Frame) (s : State) :
    (∃ c, fmtRefusal s.cfg p cmd dl = some c ∧ fmtFixed p cmd dl f s = complete c s)
      ∨ (fmtRefusal s.cfg p cmd dl = none ∧ fmtFixed p cmd dl f s = fmtEmit p f s) := by
  cases h : fmtRefusal s.cfg p cmd dl with
  | none => exact .inr ⟨rfl, by simp [fmtFixed, h]⟩
  | some c => exact .inl ⟨c, rfl, by simp [fmtFixed, h]⟩

/-- The second half of a stateful FMT writes the record and the frame, or ends STORE_UNAVAILABLE. -/
theorem fmtFinish_cases (j : FmtJob) (s : State) :
    (s.nextAnswer = true ∧ fmtFinish j s = fmtEmit j.codec.protocol (FmtJob.frame s.cfg j)
        { s.afterStoreWrite j.key (rollNext j.codec j.value) with pending := none })
      ∨ (s.nextAnswer = false ∧ fmtFinish j s = complete .storeUnavailable
        { s.afterStoreWrite j.key (rollNext j.codec j.value) with pending := none }) := by
  cases h : s.nextAnswer with
  | true => exact .inl ⟨rfl, by simp [fmtFinish, h]⟩
  | false => exact .inr ⟨rfl, by simp [fmtFinish, h]⟩

/-- A stateful FMT ends at a check, at a failed read, waits for its second half (only on a shared
medium), or runs it at once. -/
theorem fmtRolling_cases (codec : Rolling) (cmd : Command) (r d dl : Word) (s : State) :
    (∃ c, fmtRefusal s.cfg codec.protocol cmd dl = some c
        ∧ fmtRolling codec cmd r d dl s = complete c s)
      ∨ (fmtRefusal s.cfg codec.protocol cmd dl = none ∧ s.nextAnswer = false
        ∧ fmtRolling codec cmd r d dl s
          = complete .storeUnavailable (s.afterStoreRead ⟨codec.protocol, r, d⟩))
      ∨ (fmtRefusal s.cfg codec.protocol cmd dl = none ∧ s.nextAnswer = true
        ∧ ∃ v, v = (ReplayStore.find s.store ⟨codec.protocol, r, d⟩).getD 0
          ∧ ((s.cfg.storeShared = true ∧ fmtRolling codec cmd r d dl s
                = { s.afterStoreRead ⟨codec.protocol, r, d⟩ with pending := some ⟨codec, cmd, r, d, v⟩ })
            ∨ (s.cfg.storeShared = false ∧ fmtRolling codec cmd r d dl s
                = fmtFinish ⟨codec, cmd, r, d, v⟩ (s.afterStoreRead ⟨codec.protocol, r, d⟩)))) := by
  cases h : fmtRefusal s.cfg codec.protocol cmd dl with
  | some c => exact .inl ⟨c, rfl, by simp [fmtRolling, h]⟩
  | none =>
    cases ha : s.nextAnswer with
    | false => exact .inr (.inl ⟨rfl, rfl, by simp [fmtRolling, h, State.storeReadValue, ha]⟩)
    | true =>
      refine .inr (.inr ⟨rfl, rfl, _, rfl, ?_⟩)
      cases hs : s.cfg.storeShared with
      | true => exact .inl ⟨rfl, by simp [fmtRolling, h, State.storeReadValue, ha, hs]⟩
      | false => exact .inr ⟨rfl, by simp [fmtRolling, h, State.storeReadValue, ha, hs]⟩

/-! ### The RAW engine -/

/-- A rendering has the length of 44_raw_engine.md R208. -/
theorem renderFrame_length (o : Order) (k : Pulses) (f : Frame) :
    (renderFrame o k f).length = renderLength k f := by
  simp only [renderFrame, renderLength, List.length_append, edge_length, edges_length]
  omega

/-- RAW.RENDER from its format check on ends with an error status, or faults on a ⊥ bit of BUF0, or
writes BUF1, BITCNT, RTCFG, RES0 and STATUS. -/
theorem renderFrom_cases (tag : BitVec 2) (t : Pulses) (fc : Half) (base n dl : Nat) (res0 : Word)
    (s : State) :
    ((orderOfTag tag = none ∨ base = 0 ∨ vanishes base t = true)
        ∧ renderFrom tag t fc base n dl res0 s = complete .timingUnsupported s)
      ∨ (∃ o, orderOfTag tag = some o ∧ base ≠ 0 ∧ vanishes base t = false
        ∧ ((Memory.readRun s.buf0 0 n = none
              ∧ renderFrom tag t fc base n dl res0 s = raiseFault .unwrittenRead s)
          ∨ ∃ f, Memory.readRun s.buf0 0 n = some f
            ∧ ((8 * dl < renderLength (t.map (roundTicks base)) f
                  ∨ 65535 < renderLength (t.map (roundTicks base)) f)
                ∧ renderFrom tag t fc base n dl res0 s = complete .bufferTooSmall s
              ∨ renderLength (t.map (roundTicks base)) f ≤ 8 * dl
                ∧ renderLength (t.map (roundTicks base)) f ≤ 65535
                ∧ renderFrom tag t fc base n dl res0 s = complete .ok
                  { s with
                    buf1 := Memory.write s.buf1 0 (renderFrame o (t.map (roundTicks base)) f)
                    bitcnt := BitVec.ofNat 16 (renderLength (t.map (roundTicks base)) f)
                    rtcfg := rawTiming (BitVec.ofNat 16 base) fc
                    res0 := res0 }))) := by
  cases ho : orderOfTag tag with
  | none => exact .inl ⟨.inl rfl, by simp [renderFrom, ho]⟩
  | some o =>
    by_cases hb : base = 0
    · exact .inl ⟨.inr (.inl hb), by simp [renderFrom, ho, hb]⟩
    · cases hv : vanishes base t with
      | true => exact .inl ⟨.inr (.inr rfl), by simp [renderFrom, ho, hb, hv]⟩
      | false =>
        refine .inr ⟨o, rfl, hb, rfl, ?_⟩
        cases hr : Memory.readRun s.buf0 0 n with
        | none => exact .inl ⟨rfl, by simp [renderFrom, ho, hb, hv, hr]⟩
        | some f =>
          refine .inr ⟨f, rfl, ?_⟩
          by_cases hl : 8 * dl < renderLength (t.map (roundTicks base)) f
              ∨ 65535 < renderLength (t.map (roundTicks base)) f
          · exact .inl ⟨hl, by simp only [renderFrom, ho, hv, hr, if_neg hb, if_pos hl]; simp⟩
          · refine .inr ⟨by omega, by omega, ?_⟩
            simp only [renderFrom, ho, hv, hr, if_neg hb, if_neg hl]
            simp

/-- When RAW.BASETIME finds a quantum, and which. -/
theorem baseTime_eq_some (acc : Nat) (tag : BitVec 2) (t : Pulses) (b : Nat) :
    baseTime acc tag t = some b ↔
      (tag = 0 ∨ tag = 1) ∧ (∃ x ∈ t.toList, x ≠ 0) ∧ quantum acc t ≠ 0 ∧ b = quantum acc t := by
  have hz : t.toList.all (· == 0) = true ↔ ¬∃ x ∈ t.toList, x ≠ 0 := by
    simp [List.all_eq_true]
  unfold baseTime orderOfTag
  by_cases h0 : tag = 0
  · simp only [h0, if_true, true_or, true_and]
    by_cases hz' : ∃ x ∈ t.toList, x ≠ 0
    · rw [if_neg (fun h => hz.1 h hz')]
      by_cases hq : quantum acc t = 0 <;> simp [hq, hz', eq_comm]
    · rw [if_pos (hz.2 hz')]
      simp [hz']
  · by_cases h1 : tag = 1
    · simp only [h1, if_true, or_true, true_and]
      by_cases hz' : ∃ x ∈ t.toList, x ≠ 0
      · rw [if_neg (by decide), if_neg (fun h => hz.1 h hz')]
        by_cases hq : quantum acc t = 0 <;> simp [hq, hz', eq_comm]
      · rw [if_neg (by decide), if_pos (hz.2 hz')]
        simp [hz']
    · rw [if_neg h0, if_neg h1]
      constructor
      · intro h; cases h
      · rintro ⟨h | h, -⟩
        · exact absurd h h0
        · exact absurd h h1

/-! ### Inputs and steps -/

/-- OPW holds the low 16 bits of what is written to its slot (10_state.md R25). -/
@[simp] theorem writeReg_opw (v : Word) (s : State) :
    writeReg .opw v s = { s with opw := v.setWidth 16 } := rfl

/-- A 16-bit value written to OPW reads back as it was written (10_state.md R25). -/
theorem opwWord_of_write (v : Word) (s : State) (h : v.toNat < 2 ^ 16) :
    ({ s with opw := v.setWidth 16 } : State).opwWord = v := by
  apply BitVec.eq_of_toNat_eq
  simp [State.opwWord]
  omega

/-- What a host access reaches: a byte access only a buffer byte, a 32-bit access only at a multiple of 4
outside the buffers, a 16-bit access nothing (20_memory.md R65, 10_state.md R40). -/
theorem hostTarget_eq_some (bytes : Nat) (w : AccessWidth) (offset : Nat) (t : Target) :
    hostTarget bytes w offset = some t ↔
      (w = .byte ∧ ∃ b j, bufferAt bytes offset = some (b, j) ∧ t = .bufferByte b j)
      ∨ (w = .word ∧ offset % 4 = 0 ∧ bufferAt bytes offset = none
        ∧ ((∃ r, regAt offset = some r ∧ t = .register r)
          ∨ (regAt offset = none ∧ t = .reservedOffset))) := by
  cases w with
  | half => simp [hostTarget]
  | byte =>
    cases hb : bufferAt bytes offset with
    | none => simp [hostTarget, hb]
    | some p => obtain ⟨b, j⟩ := p; simp [hostTarget, hb, eq_comm]
  | word =>
    by_cases h4 : offset % 4 = 0
    · cases hb : bufferAt bytes offset with
      | some p => simp [hostTarget, hb]
      | none => cases hr : regAt offset <;> simp [hostTarget, hb, hr, h4, eq_comm]
    · simp [hostTarget, h4]

/-- A write to OPW stores the low 16 bits of the value; it then starts nothing on a faulted block, ends ILLEGAL_OPERATION on
a reserved encoding, and runs the operation otherwise. -/
theorem startOperation_cases (v : Word) (s : State) :
    (s.faulted = true ∧ startOperation v s = .next { s with opw := v.setWidth 16 })
      ∨ (s.faulted = false ∧ ∃ why, decode v = .reserved why
          ∧ startOperation v s = .next (complete .illegalOperation { s with opw := v.setWidth 16 }))
      ∨ (s.faulted = false ∧ ∃ i, decode v = .instr i
          ∧ startOperation v s = exec i { s with opw := v.setWidth 16 }) := by
  have hf : ({ s with opw := v.setWidth 16 } : State).faulted = s.faulted := rfl
  cases h : s.faulted with
  | true => exact .inl ⟨rfl, by simp [startOperation, writeReg, hf, h]⟩
  | false =>
    cases hd : decode v with
    | reserved why =>
      exact .inr (.inl ⟨rfl, why, rfl, by simp [startOperation, writeReg, hf, h, hd]⟩)
    | instr i => exact .inr (.inr ⟨rfl, i, rfl, by simp [startOperation, writeReg, hf, h, hd]⟩)

/-- A step that answers a next state: the next input acted, or a split FMT ended, or the block was idle. -/
theorem step_cases (s t : State) (h : step s = .next t) :
    s.cfg.wf = true
      ∧ ((∃ i rest, nextInput s = some (i, rest) ∧ act i { s with inbox := rest } = .next t)
        ∨ (nextInput s = none ∧ ∃ j, s.pending = some j ∧ t = fmtFinish j s)
        ∨ (nextInput s = none ∧ s.pending = none ∧ t = s)) := by
  unfold step at h
  split at h
  · rename_i hw
    refine ⟨hw, ?_⟩
    unfold move at h
    split at h
    · rename_i i rest hn
      exact .inl ⟨i, rest, hn, h⟩
    · rename_i hn
      split at h
      · rename_i j hp
        exact .inr (.inl ⟨hn, j, hp, by cases h; rfl⟩)
      · rename_i hp
        exact .inr (.inr ⟨hn, hp, by cases h; rfl⟩)
  · cases h

/-- On a block with no split FMT and a passing configuration check, the first input acts. -/
theorem step_input (s : State) (i : Input) (rest : List Input) (hw : s.cfg.wf = true)
    (hp : s.pending = none) (hi : s.inbox = i :: rest) :
    step s = act i { s with inbox := rest } := by
  simp [step, hw, move, nextInput, hi, hp]

/-- The input that issues a word reaches OPW (10_state.md R40). -/
theorem act_issueWord (s : State) (w : Word) (hb : s.cfg.wf = true) :
    act (issueWord w) s = startOperation w s := by
  obtain ⟨h1, h2, -⟩ := (cfg_wf_iff s.cfg).1 hb
  simp [act, issueWord, hostTarget, opwOffset, bufferAt, regAt, hostWrite]

end Sys2Proof.Laws
end

