-- ==== Sys2Proof/Laws/PerInstr.lean ====
section
/-! SUPPORT. Laws of the instructions as syntax, one lemma per constructor. Family `RowMatch`: the word an
instruction encodes to matches its opcode-table row (30_encoding.md R93). -/

namespace Sys2Proof.Laws.RowMatch

open Sys2Proof

/-- The encoded word has the fixed bits of its row. -/
def Statement (i : Instr) : Prop := encode i &&& i.row.mask = i.row.pattern

theorem fmtOtax (cmd : Command) : Statement (.fmtOtax cmd) := by
  unfold Statement; cases cmd <;> decide

theorem fmtDio (cmd : Command) : Statement (.fmtDio cmd) := by
  unfold Statement; cases cmd <;> decide

theorem fmtHomeeasy (cmd : Command) : Statement (.fmtHomeeasy cmd) := by
  unfold Statement; cases cmd <;> decide

theorem fmtIdk (cmd : Command) : Statement (.fmtIdk cmd) := by
  unfold Statement; cases cmd <;> decide

theorem fmtSumtech (cmd : Command) : Statement (.fmtSumtech cmd) := by
  unfold Statement; cases cmd <;> decide

theorem fmtAuchan (cmd : Command) : Statement (.fmtAuchan cmd) := by
  unfold Statement; cases cmd <;> decide

theorem fmtAuchan2 (cmd : Command) : Statement (.fmtAuchan2 cmd) := by
  unfold Statement; cases cmd <;> decide

theorem fmtSomfy (cmd : Command) : Statement (.fmtSomfy cmd) := by
  unfold Statement; cases cmd <;> decide

theorem fmtBlyss (cmd : Command) : Statement (.fmtBlyss cmd) := by
  unfold Statement; cases cmd <;> decide

theorem descRead (sel : BitVec 4) : Statement (.descRead sel) := by
  unfold Statement; revert sel; decide

theorem bwLow (buf : BufSel) : Statement (.bwLow buf) := by
  unfold Statement; cases buf <;> decide

theorem bwHigh (buf : BufSel) : Statement (.bwHigh buf) := by
  unfold Statement; cases buf <;> decide

theorem bwEdge (buf : BufSel) (order : Order) : Statement (.bwEdge buf order) := by
  unfold Statement; cases buf <;> cases order <;> decide

theorem bwBits (buf : BufSel) (oneOrder zeroOrder : Order) :
    Statement (.bwBits buf oneOrder zeroOrder) := by
  unfold Statement; cases buf <;> cases oneOrder <;> cases zeroOrder <;> decide

theorem rawBasetime (acc : Byte) : Statement (.rawBasetime acc) := by
  unfold Statement; revert acc; decide

theorem rawRender : Statement .rawRender := by unfold Statement; decide

theorem rawConvert (acc : Byte) : Statement (.rawConvert acc) := by
  unfold Statement; revert acc; decide

theorem stLoad (ns : BitVec 4) : Statement (.stLoad ns) := by
  unfold Statement; revert ns; decide

theorem stStore (ns : BitVec 4) : Statement (.stStore ns) := by
  unfold Statement; revert ns; decide

end Sys2Proof.Laws.RowMatch
end

