-- ==== Sys2Proof/Laws/Store.lean ====
section
/-! SUPPORT. The laws of the replay store: a read after a write, the independence of keys, and that every
store operation keeps the canonical form. -/

namespace Sys2Proof.Laws

open Sys2Proof Sys2Proof.Machine

theorem protocol_id_injective (p q : Protocol) (h : p.id = q.id) : p = q := by
  cases p <;> cases q <;> first | rfl | cases h

/-- Two keys stand at one place exactly when they are equal (45_replay_store.md R230). -/
theorem rank_injective (a b : StoreKey) (h : a.rank = b.rank) : a = b := by
  obtain ⟨p, r, d⟩ := a
  obtain ⟨q, r', d'⟩ := b
  simp only [StoreKey.rank] at h
  have hd := d.isLt
  have hd' := d'.isLt
  have hr := r.isLt
  have hr' := r'.isLt
  have h1 : d.toNat = d'.toNat := by omega
  have h2 : r.toNat = r'.toNat := by omega
  have h3 : p.id = q.id := by omega
  rw [protocol_id_injective p q h3, BitVec.eq_of_toNat_eq h2, BitVec.eq_of_toNat_eq h1]

theorem find_append (m m' : ReplayStore) (key : StoreKey) :
    ReplayStore.find (m ++ m') key = (ReplayStore.find m key).or (ReplayStore.find m' key) := by
  induction m with
  | nil => simp [ReplayStore.find]
  | cons c m ih =>
    obtain ⟨k, v⟩ := c
    by_cases h : k = key <;> simp [ReplayStore.find, h, ih]

theorem find_filter (m : ReplayStore) (p : StoreKey → Bool) (key : StoreKey) :
    ReplayStore.find (m.filter fun c => p c.1) key
      = if p key then ReplayStore.find m key else none := by
  induction m with
  | nil => simp [ReplayStore.find]
  | cons c m ih =>
    obtain ⟨k, v⟩ := c
    by_cases hp : p k = true
    · rw [List.filter_cons_of_pos (by simpa using hp)]
      by_cases h : k = key
      · subst h; simp [ReplayStore.find, hp]
      · simp [ReplayStore.find, h, ih]
    · rw [List.filter_cons_of_neg (by simpa using hp), ih]
      by_cases h : k = key
      · subst h; simp [hp]
      · simp [ReplayStore.find, h]

/-- Everything a write does: the key's record is the value, every other record is as before
(45_replay_store.md R227, R232). -/
theorem find_insert (m : ReplayStore) (key : StoreKey) (v : Half) (k : StoreKey) :
    ReplayStore.find (ReplayStore.insert m key v) k
      = if k = key then some v else ReplayStore.find m k := by
  have hlow := find_filter m (fun j => decide (j.rank < key.rank)) k
  have hhigh := find_filter m (fun j => decide (key.rank < j.rank)) k
  simp only [ReplayStore.insert, find_append, hlow, ReplayStore.find, hhigh]
  by_cases h : k = key
  · subst h; simp
  · have hne : k.rank ≠ key.rank := fun hr => h (rank_injective k key hr)
    have h' : ¬key = k := fun e => h e.symm
    rcases Nat.lt_or_gt_of_ne hne with hlt | hgt
    · cases ReplayStore.find m k <;> simp [h, h', hlt, show ¬key.rank < k.rank by omega]
    · simp [h, h', hgt, show ¬k.rank < key.rank by omega]

/-- Everything a successful read leaves: an absent record is 0, all else is as before
(45_replay_store.md R226). -/
theorem find_touch (m : ReplayStore) (key k : StoreKey) :
    ReplayStore.find (ReplayStore.touch m key) k
      = if k = key then some ((ReplayStore.find m key).getD 0) else ReplayStore.find m k := by
  cases h : ReplayStore.find m key with
  | none => simp [ReplayStore.touch, h, find_insert]
  | some v =>
    by_cases hk : k = key
    · subst hk; simp [ReplayStore.touch, h]
    · simp [ReplayStore.touch, h, hk]

/-- The canonical form as a pairwise order. -/
theorem store_wf_iff (m : ReplayStore) :
    ReplayStore.wf m = true ↔ m.Pairwise (fun a b => a.1.rank < b.1.rank) := by
  induction m with
  | nil => simp [ReplayStore.wf]
  | cons a m ih =>
    cases m with
    | nil => simp [ReplayStore.wf]
    | cons b m =>
      simp only [ReplayStore.wf, Bool.and_eq_true, decide_eq_true_eq, ih]
      constructor
      · rintro ⟨hab, hm⟩
        refine List.pairwise_cons.2 ⟨fun c hc => ?_, hm⟩
        rcases List.mem_cons.1 hc with rfl | hc
        · exact hab
        · exact lt_trans hab ((List.pairwise_cons.1 hm).1 c hc)
      · intro h
        obtain ⟨h1, h2⟩ := List.pairwise_cons.1 h
        exact ⟨h1 b (by simp), h2⟩

/-- A write keeps the canonical form. -/
theorem insert_wf (m : ReplayStore) (key : StoreKey) (v : Half) (h : ReplayStore.wf m = true) :
    ReplayStore.wf (ReplayStore.insert m key v) = true := by
  rw [store_wf_iff] at h ⊢
  simp only [ReplayStore.insert]
  refine List.pairwise_append.2 ⟨h.filter _, List.pairwise_cons.2 ⟨?_, h.filter _⟩, ?_⟩
  · intro c hc
    simpa using (List.mem_filter.1 hc).2
  · intro a ha b hb
    have h1 : a.1.rank < key.rank := by simpa using (List.mem_filter.1 ha).2
    rcases List.mem_cons.1 hb with rfl | hb
    · exact h1
    · have h2 : key.rank < b.1.rank := by simpa using (List.mem_filter.1 hb).2
      exact lt_trans h1 h2

/-- A read keeps the canonical form. -/
theorem touch_wf (m : ReplayStore) (key : StoreKey) (h : ReplayStore.wf m = true) :
    ReplayStore.wf (ReplayStore.touch m key) = true := by
  cases hf : ReplayStore.find m key with
  | none => simpa [ReplayStore.touch, hf] using insert_wf m key 0 h
  | some v => simpa [ReplayStore.touch, hf] using h

end Sys2Proof.Laws
end

