-- ==== Sys2Proof/Machine/Transport.lean ====
section
/-! DEFINITION. The block's output boundary: what is handed to the transport (00_scope.md R7, 10_state.md
R33, R41) and what the waveform data mean to it (70_reset_and_hazards.md R289). Read-only views of the
state; no operation uses them. -/

namespace Sys2Proof.Machine

/-- The triple of the source's `send`: timing, frame bits, bit_count (00_scope.md R7). -/
structure Handoff where
  timing : TimingRegs
  frame : List (Option Bool)
  bitCount : Half
deriving DecidableEq, Repr

/-- The first `n` bits of a buffer. -/
def firstBits (m : Memory) (n : Nat) : List (Option Bool) :=
  (List.range n).map (Memory.read m)

/-- After a FMT that ended OK: (TCFG, BUF0 bits [0, BITCNT), BITCNT) (10_state.md R33). -/
def State.fmtHandoff (s : State) : Handoff where
  timing := s.tcfg
  frame := firstBits s.buf0 s.bitcnt.toNat
  bitCount := s.bitcnt

/-- After a RAW.RENDER or RAW.CONVERT that ended OK: (RTCFG, BUF1 bits [0, BITCNT), BITCNT)
(10_state.md R33). -/
def State.rawHandoff (s : State) : Handoff where
  timing := s.rtcfg
  frame := firstBits s.buf1 s.bitcnt.toNat
  bitCount := s.bitcnt

/-- How many bytes of a buffer hold the frame, `ceil(BITCNT / 8)` (10_state.md R41). -/
def State.frameBytes (s : State) : Nat := (s.bitcnt.toNat + 7) / 8

/-- The transport's `frame: &[u8]`: the first `ceil(BITCNT/8)` bytes of a buffer, `free` standing for any ⊥
bit beyond the frame (10_state.md R41, R42). -/
def State.frameAsBytes (s : State) (b : BufSel) (free : Byte) : List Byte :=
  (List.range s.frameBytes).map fun j => Memory.readByte (s.buffer b) j free

/-- One level held for a number of microseconds; `true` is High. -/
structure Pulse where
  level : Bool
  micros : Nat
deriving DecidableEq, Repr

/-- A High/Low pair in the tag's order (70_reset_and_hazards.md R289). -/
def pulsePair (o : Order) (h l : Nat) : List Pulse :=
  match o with
  | .hl => [⟨true, h⟩, ⟨false, l⟩]
  | .lh => [⟨false, l⟩, ⟨true, h⟩]

/-- The waveform of one sending in HIGH_LOW or LOW_HIGH form: start pair, data bits, end pair
(70_reset_and_hazards.md R289). -/
def symbolicWaveform (o : Order) (t : Pulses) (f : Frame) : List Pulse :=
  pulsePair o t.startH t.startL
    ++ f.flatMap (fun b => if b then pulsePair o t.bit1H t.bit1L else pulsePair o t.bit0H t.bit0L)
    ++ pulsePair o t.endH t.endL

/-- The waveform of one sending in RAW form: every bit one level for `base_time`
(70_reset_and_hazards.md R289). -/
def rawWaveform (base : Half) (f : Frame) : List Pulse :=
  f.map fun b => ⟨b, base.toNat⟩

/-- The waveform of one sending of a TimingConfig register set, none if a field it needs is ⊥ or the tag is
reserved. -/
def TimingRegs.waveform (t : TimingRegs) (f : Frame) : Option (List Pulse) := do
  let tag ← t.fmt
  match orderOfTag tag with
  | some o =>
    let d ← t.durations
    some (symbolicWaveform o d.2 f)
  | none =>
    if tag = rawTag then
      let base ← t.base
      some (rawWaveform base f)
    else none

/-- The frame is sent `frame_count` times (70_reset_and_hazards.md R289). -/
def TimingRegs.transmission (t : TimingRegs) (f : Frame) : Option (List Pulse) := do
  let once ← t.waveform f
  let n ← t.fcount
  some (List.replicate n.toNat once).flatten

end Sys2Proof.Machine
end

