-- ==== Sys2Proof/Tests/Slice0.lean ====
section
/-! SUPPORT. Tests on single operations and small states, and a witness for the hypotheses of each statement.
Expected values are those of 95_test_vectors.md, of the worked examples in the rules, or computed by hand from
a rule; the OPEN parameters take the test-only values T0 of 92_eei_decisions.md D45. -/

namespace Sys2Proof.Tests

open Sys2Proof Sys2Proof.Machine

/-! ### The test configuration and states -/

/-- A timing for the OPEN rows of T0. -/
def timingT0 : CodecTiming where
  order := .hl
  durations := ⟨300, 3000, 300, 10000, 300, 900, 900, 300⟩
  frameCount := 5

/-- The T0 values (92_eei_decisions.md D45). -/
def t0 : Config :=
  { Config.standard with
    otaxOff := 0x1, otaxGroupOff := 0x3, otaxGroupOn := 0xC
    hePayloadTable := [⟨0, 0, .off, 0x00000000⟩, ⟨0x123456, 0x5, .on, 0x12345651⟩]
    heTbFx := #v[0, 1, 2, 3, 4, 5, 6, 7, 8, 9, 10, 11, 12, 13, 14, 15]
    somfyOff := 0x4, somfyOn := 0x2, somfyProg := 0x8, somfyF1 := 0x1
    blyssOff := 0, blyssOn := 1, blyssGroupOff := 2, blyssGroupOn := 3
    frameCountDio := 5, heRemoteMax := 0xFFFFFF, heDeviceMax := 0xF
    timingOtax := timingT0, timingHomeeasy := timingT0, timingIdk := timingT0
    timingSumtech := timingT0, timingAuchan := timingT0, timingAuchan2 := timingT0
    timingBlyss := timingT0, rfcBase := 0 }

/-- T0 on a shared medium. -/
def t0Shared : Config := { t0 with storeShared := true }

/-- After reset under T0, on a medium that answers the next accesses. -/
def fresh : State := { State.reset with cfg := t0, answers := List.replicate 6 true }

/-- `fresh` with A0, A1, A2 written. -/
def ops (x y z : Word) : State := { fresh with a0 := some x, a1 := some y, a2 := some z }

/-- `ops` with the first 8 bytes of both buffers holding `v`. -/
def opsOn (v : Byte) (x y z : Word) : State :=
  let m := runCells 0 (List.replicate 8 (byteBits v)).flatten
  { ops x y z with buf0 := m, buf1 := m }

/-- What an operation leaves, the machine before it if it stops. -/
def after (i : Instr) (s : State) : State :=
  match exec i s with
  | .next t => t
  | .fault _ => s
  | .refused _ => s

/-- The first `n` bytes of a buffer, ⊥ bits read as 0. -/
def bytes (m : Memory) (n : Nat) : List Byte := (List.range n).map fun j => Memory.readByte m j 0

/-- TCFG of the worked example of 44_raw_engine.md R211 and its source bits 1 0 1. -/
def renderState (tag : BitVec 2) (base n dl : Word) : State :=
  { ops base n dl with
    tcfg := ⟨some tag, some 0x006400C8, some 0x0000012C, some 0x00640064, some 0x0064012C, none, some 3⟩
    buf0 := runCells 0 [true, false, true] }

/-- TCFG = TIMING_DIO (41_codec_common.md R137). -/
def dioState : State := { ops 0 0 512 with tcfg := timingOf t0 .dio }

/-! ### Well-formedness and decoding -/

/-- DESC.READ of a reserved protocol id is no operation (30_encoding.md R89). -/
theorem test_wellFormed_refuses_reserved_sel :
    (Instr.descRead 9).wellFormed = false ∧ (Instr.descRead 8).wellFormed = true := by decide

theorem test_decode_refuses_reserved_sel : decode 0x2900 = .reserved .sel := by decide

/-- One word of every row, written out from the pattern column of 30_encoding.md R93: codecs. -/
theorem test_decode_fmt_rows :
    decode 0b0001000000000001 = .instr (.fmtOtax .on)
    ∧ decode 0b0001000100000010 = .instr (.fmtDio .groupOff)
    ∧ decode 0b0001001000000000 = .instr (.fmtHomeeasy .off)
    ∧ decode 0b0001001100000001 = .instr (.fmtIdk .on)
    ∧ decode 0b0001010000000111 = .instr (.fmtSumtech .f3)
    ∧ decode 0b0001010100000001 = .instr (.fmtAuchan .on)
    ∧ decode 0b0001011000000011 = .instr (.fmtAuchan2 .groupOn)
    ∧ decode 0b0001011100000100 = .instr (.fmtSomfy .prog)
    ∧ decode 0b0001100000000101 = .instr (.fmtBlyss .f1) := by decide

/-- One word of every row, written out from the pattern column of 30_encoding.md R93: the other classes. -/
theorem test_decode_other_rows :
    decode 0b0010011100000000 = .instr (.descRead 7)
    ∧ decode 0b0011000010000000 = .instr (.bwLow .buf1)
    ∧ decode 0b0011000100000000 = .instr (.bwHigh .buf0)
    ∧ decode 0b0011001010000001 = .instr (.bwEdge .buf1 .lh)
    ∧ decode 0b0011001100000010 = .instr (.bwBits .buf0 .lh .hl)
    ∧ decode 0b0100000001011010 = .instr (.rawBasetime 90)
    ∧ decode 0b0100000100000000 = .instr .rawRender
    ∧ decode 0b0100001011111111 = .instr (.rawConvert 255)
    ∧ decode 0b0101000000001000 = .instr (.stLoad 8)
    ∧ decode 0b0101000100001111 = .instr (.stStore 15) := by decide

/-- Reserved encodings of each kind (30_encoding.md R96). -/
theorem test_decode_reserved :
    decode 0x0000 = .reserved .opClass ∧ decode 0x6000 = .reserved .opClass
    ∧ decode 0x1900 = .reserved .sel ∧ decode 0x1008 = .reserved .arg8
    ∧ decode 0x2001 = .reserved .arg8 ∧ decode 0x3400 = .reserved .sel
    ∧ decode 0x3001 = .reserved .arg8 ∧ decode 0x3202 = .reserved .arg8
    ∧ decode 0x3304 = .reserved .arg8 ∧ decode 0x4101 = .reserved .arg8
    ∧ decode 0x4300 = .reserved .sel ∧ decode 0x5010 = .reserved .arg8
    ∧ decode 0x5200 = .reserved .sel ∧ decode 0x00011001 = .reserved .upperHalf := by decide

/-- 30_encoding.md R102 and R105. -/
theorem test_assemble_bits : assemble "bw.bits b0, LH, HL" = some 0x3301 := by decide

theorem test_disassemble_illegal : disassemble 0x1900 = ".illegal 0x1900" := by decide

/-! ### FMT -/

theorem test_otax : bytes (after (.fmtOtax .on) (opsOn 0 0 0 4)).buf0 4 = [0x55, 0x55, 0x54, 0x00] := by
  decide

/-- Bits past the frame keep their values (41_codec_common.md R133). -/
theorem test_otax_keeps_the_rest :
    bytes (after (.fmtOtax .on) (opsOn 0xFF 0 0 4)).buf0 5 = [0x55, 0x55, 0x54, 0x7F, 0xFF] := by
  decide

theorem test_dio : bytes (after (.fmtDio .on) (opsOn 0 0 0 8)).buf0 8
    = [0x55, 0x55, 0x55, 0x55, 0x55, 0x55, 0x56, 0x55] := by decide

theorem test_dio_timing : (after (.fmtDio .on) (ops 0 0 8)).tcfg.stop = some (260#16 ++ 9000#16) := by
  decide

/-- The packing of 42_codecs_fixed.md R155's example, on the T0 payload 0. -/
theorem test_homeeasy_packing :
    bytes (runCells 0 (packHomeeasy t0 0)) 8 = [0xC0, 0x81, 0x02, 0x04, 0x08, 0x10, 0x20, 0x00] := by
  decide

/-- 42_codecs_fixed.md R155, on the T0 payload of remote 0, device 0 and OFF. -/
theorem test_homeeasy : bytes (after (.fmtHomeeasy .off) (opsOn 0 0 0 8)).buf0 8
    = [0xC0, 0x81, 0x02, 0x04, 0x08, 0x10, 0x20, 0x00] := by decide

/-- `HE_PAYLOAD` as T0 has it, (r mod 2^24) << 8 | (d mod 16) << 4 | ord(c) (92_eei_decisions.md D45). -/
theorem test_homeeasy_payload : hePayload t0 0x123456 0x5 .on = 0x12345651 := by decide

/-- 7 bytes are one bit short (42_codecs_fixed.md R155). -/
theorem test_homeeasy_short : (after (.fmtHomeeasy .on) (ops 0 0 7)).status = .bufferTooSmall := by
  decide

theorem test_idk : bytes (after (.fmtIdk .on) { opsOn 0 0 5 4 with a0 := none }).buf0 4
    = [0x77, 0x55, 0x55, 0x00] := by decide

theorem test_idk_only_on : (after (.fmtIdk .off) (ops 0 5 4)).status = .unsupportedCommand := by
  decide

theorem test_sumtech : bytes (after (.fmtSumtech .on) (opsOn 0 0x123456 0x55 4)).buf0 4
    = [0x12, 0x34, 0x56, 0xD5] := by decide

theorem test_sumtech_reduces : bytes (after (.fmtSumtech .off) (opsOn 0 0xABCDEF12 0x1FF 4)).buf0 4
    = [0xCD, 0xEF, 0x12, 0x7F] := by decide

/-- The rows of 00_scope.md R8 are arguments: Sumtech with the two codes exchanged, DI-O with another code for ON
and a LOW_HIGH timing. -/
def otherCodes : Config :=
  { t0 with sumtechCmd := ⟨true, false⟩, dioCmd := ⟨0, 3, 2, 1⟩, dioOrder := .lh, accuracyDefault := 50 }

theorem test_codes_are_parameters :
    bytes (after (.fmtSumtech .on) { opsOn 0 0x123456 0x55 4 with cfg := otherCodes }).buf0 4
      = [0x12, 0x34, 0x56, 0x55]
    ∧ (rawDio t0 0 0 .on = 0x10 ∧ rawDio otherCodes 0 0 .on = 0x30)
    ∧ (timingOf otherCodes .dio).fmt = some 1 := by decide

/-- `prep` converts at ACCURACY_DEFAULT (30_encoding.md R108). -/
theorem test_prep_accuracy :
    prepActs t0 0b110 false 0 25 = [.write .word 0x08 25, .write .word 0x0C 512, .write .word 0x00 0x425A]
    ∧ (prepActs otherCodes 0b110 false 0 25).getLast? = some (.write .word 0x00 0x4232) := by decide

theorem test_auchan : bytes (after (.fmtAuchan .on) (opsOn 0 0x12345 5 4)).buf0 4
    = [0x12, 0x34, 0x5B, 0x00] := by decide

theorem test_auchan2 : bytes (after (.fmtAuchan2 .on) (opsOn 0 0xABC 1 3)).buf0 3
    = [0x15, 0x78, 0xB0] := by decide

/-- 43_codecs_rolling.md R186: plain A7 28 00 00 12 34 56, whitened A7 8F 8F 8F 9D A9 FF. -/
theorem test_somfy_payload :
    somfyPlain t0 0xA7 0x123456 .on 0 = [0xA7, 0x28, 0x00, 0x00, 0x12, 0x34, 0x56]
    ∧ whiten (somfyPlain t0 0xA7 0x123456 .on 0) = [0xA7, 0x8F, 0x8F, 0x8F, 0x9D, 0xA9, 0xFF] := by
  decide

/-- The start of the first Somfy frame (43_codecs_rolling.md R186). -/
theorem test_somfy_first :
    bytes (runCells 0 ((encSomfy t0 0xA7 0x123456 .on 0).take 72)) 9
      = [0xFF, 0xFF, 0x00, 0x0F, 0x0F, 0x0F, 0xE6, 0x69, 0x56] := by decide

theorem test_blyss : bytes (after (.fmtBlyss .on) (opsOn 0 0x12345 3 7)).buf0 7
      = [0xFE, 0x12, 0x34, 0x53, 0x19, 0x86, 0x70]
    ∧ (after (.fmtBlyss .on) (opsOn 0 0x12345 3 7)).store = [(⟨.blyss, 0x12345, 3⟩, 1)] := by
  decide

/-- The index wraps, and a group command forces the device in the frame but not in the key
(43_codecs_rolling.md R190). -/
theorem test_blyss_wraps :
    (after (.fmtBlyss .groupOn) { opsOn 0 0x12345 3 7 with store := [(⟨.blyss, 0x12345, 3⟩, 4)] }).store
      = [(⟨.blyss, 0x12345, 3⟩, 0)] := by decide

/-! ### DESC -/

theorem test_desc_somfy :
    (after (.descRead 7) fresh).res2 = 0x08BE3307 ∧ (after (.descRead 7) fresh).tcfg.base = some 604 := by
  decide

theorem test_desc_auchan2 : (after (.descRead 6) fresh).res2 = 0x00150F07
    ∧ (after (.descRead 6) fresh).res0 = 0x1FFF := by decide

/-! ### BW -/

theorem test_low : bytes (after (.bwLow .buf0) (opsOn 0xFF 4 4 0)).buf0 1 = [0xF0] := by decide

theorem test_low_beyond : (after (.bwLow .buf0) (ops 0xFFFFFFFF 1 0)).faultWord = 0x5 := by
  decide

theorem test_high : bytes (after (.bwHigh .buf0) (opsOn 0 6 4 0)).buf0 2 = [0x03, 0xC0] := by
  decide

theorem test_high_at_the_end : (after (.bwHigh .buf0) (ops 4096 0 0)).status = .ok := by decide

theorem test_edge_hl : bytes (after (.bwEdge .buf0 .hl) (opsOn 0 3 2 3)).buf0 1 = [0x18] := by
  decide

theorem test_edge_lh : bytes (after (.bwEdge .buf0 .lh) (opsOn 0 3 2 3)).buf0 1 = [0x03] := by
  decide

/-- `opsOn` with A3 to A6 written too. -/
def bitsState (off data len zh zl oh ol : Word) : State :=
  { opsOn 0 off data len with a3 := some zh, a4 := some zl, a5 := some oh, a6 := some ol }

theorem test_bits : bytes (after (.bwBits .buf0 .lh .hl) (bitsState 0 5 3 1 1 1 1)).buf0 1 = [0x64]
    ∧ (after (.bwBits .buf0 .lh .hl) (bitsState 0 5 3 1 1 1 1)).res0 = 6 := by decide

theorem test_bits_uses_the_low_bits :
    bytes (after (.bwBits .buf0 .hl .hl) (bitsState 0 0xFFFFFFF0 4 2 0 0 0)).buf0 1 = [0xFF] := by
  decide

/-! ### RAW -/

theorem test_basetime_dio : (after (.rawBasetime 90) dioState).res0 = 40
    ∧ (after (.rawBasetime 0) dioState).res0 = 540 := by decide

theorem test_basetime_accuracy : (after (.rawBasetime 101) dioState).status = .illegalOperation := by
  decide

/-- The worked example of 44_raw_engine.md R211, in both orders. -/
theorem test_render_hl : bytes (after .rawRender (renderState 0 100 3 2)).buf1 2 = [0x91, 0x40]
    ∧ (after .rawRender (renderState 0 100 3 2)).bitcnt = 16 := by decide

theorem test_render_lh : bytes (after .rawRender (renderState 1 100 3 2)).buf1 2 = [0x22, 0x88] := by
  decide

/-- With all durations multiples of 100 the exact quantum is 100 (44_raw_engine.md R202, R212). -/
theorem test_convert : bytes (after (.rawConvert 100) (renderState 0 7 3 2)).buf1 2 = [0x91, 0x40]
    ∧ (after (.rawConvert 100) (renderState 0 7 3 2)).res0 = 100 := by decide

theorem test_convert_raw_timing :
    (after (.rawConvert 90) { renderState 2 0 3 2 with res0 := 9 }).status = .timingUnsupported := by
  decide

/-- The combination order of 44_raw_engine.md R215. -/
theorem test_quantum_order : quantum 90 ⟨1268, 1243, 2893, 2066, 2303, 2121, 2079, 2669⟩ = 182 := by
  decide

/-! ### ST -/

theorem test_load_creates : (after (.stLoad 8) (ops 1 2 0)).store = [(⟨.blyss, 1, 2⟩, 0)] := by
  decide

theorem test_load_full_keys :
    (after (.stLoad 7) { ops 0x80000001 2 0 with store := [(⟨.somfy, 1, 2⟩, 9)] }).res0 = 0 := by
  decide

theorem test_store : (after (.stStore 7) (ops 1 2 0xFFFF)).store = [(⟨.somfy, 1, 2⟩, 0xFFFF)] := by
  decide

theorem test_store_failure :
    (after (.stStore 7) { ops 1 2 5 with answers := [false] }).status = .storeUnavailable := by
  decide

/-! ### Steps -/

/-- The state after a step, the state before it if the machine stops. -/
def stepped (s : State) : State :=
  match step s with
  | .next t => t
  | .fault _ => s
  | .refused _ => s

/-- 95_test_vectors.md 2.8: RESET, then `fmt.otax ON`. -/
theorem test_unwritten_after_reset :
    (stepped (fresh.withFetchWord 16 0x1001)).faultWord = 0x3
    ∧ (stepped (fresh.withFetchWord 16 0x1001)).opw = 0x1001 := by decide

theorem test_table_word : decodeTableWord 16 0x425A = some (.rawConvert 90) := by decide

theorem test_host_read_id :
    (stepped { fresh with inbox := [.read .word 0x38] }).hostData = some 0x52464307 := by decide

theorem test_reset_leaves_the_store :
    (stepped { ops 1 2 3 with inbox := [.reset], store := [(⟨.somfy, 1, 2⟩, 9)] }).store
      = [(⟨.somfy, 1, 2⟩, 9)] := by decide

/-- 10_state.md R33: the triple after a FMT. -/
theorem test_handoff_length :
    (after (.fmtOtax .on) (ops 0 0 4)).fmtHandoff.frame.length = 25 := by decide

/-- A0, A1 and A2 hold these values. -/
def given (s : State) (x y z : Word) : Bool := s.a0 == some x && s.a1 == some y && s.a2 == some z

/-- OPW is 16 bits wide (10_state.md R25). -/
theorem test_opw_width :
    (stepped { fresh with inbox := [.write .word 0x00 0x00011001] }).opwWord = 0x1001 := by decide

/-- A byte access at no buffer byte is refused (20_memory.md R65): the reserved offset 0x3C and the first byte
beyond BUF0. -/
theorem test_byte_outside_the_buffers :
    hostTarget 512 .byte 0x3C = none ∧ hostTarget 512 .byte 0x2200 = none
    ∧ hostTarget 512 .byte 0x21FF = some (.bufferByte .buf0 511) := by decide

/-- 30_encoding.md R109: the operand writes of `fmt.<p>.raw` always, its `raw.cvt` only after a FMT that ended OK
with a timing that is not RAW. -/
theorem test_fmt_raw_tail :
    fmtRawTail (after (.fmtOtax .on) (ops 0 0 4)) 90
      = [.write .word 0x08 25, .write .word 0x0C 512, .write .word 0x00 0x425A]
    ∧ fmtRawTail (after (.fmtOtax .on) (ops 0 0 3)) 90
      = [.write .word 0x08 0, .write .word 0x0C 512] := by decide

/-! ### Witnesses: for each statement, a state and operands that meet its hypotheses, clause by clause -/

/-- Every operation answers a next state. -/
theorem test_exec_goes_on (i : Instr) (s : State) : exec i s = .next (after i s) := by
  cases i <;> rfl

theorem test_witness_DecodeUndoesEncode : (Instr.descRead 8).wellFormed = true := by decide

theorem test_witness_EncodeUndoesDecode : decode 0x5107 = .instr (.stStore 7) := by decide

/-- The two ways a word selects nothing: no row matches, or a DESC.READ row with SEL 9. -/
theorem test_witness_OpcodeTableSelectsTheOperation :
    (∀ i : Instr, (0x0000 : Half) &&& i.row.mask ≠ i.row.pattern)
    ∧ (0x2900 : Half) &&& (Instr.descRead 0).row.mask = (Instr.descRead 0).row.pattern := by
  refine ⟨fun i => ?_, by decide⟩
  cases i <;> simp [Instr.row]

/-- `fresh` with inputs lined up. -/
def asked (l : List Input) : State := { fresh with inbox := l }

theorem test_witness_ReservedEncodingsEndIllegalOperation :
    ((asked [issueWord 0x2900]).ready = true ∧ reservedEncoding 0x2900 = true)
    ∧ ((asked [issueWord 0x10000]).ready = true ∧ reservedEncoding 0x10000 = true)
    ∧ reservedEncoding 0x5109 = false := by decide

theorem test_witness_OpwWriteRunsTheDecodedOperation :
    (asked [issueWord 0x1001]).ready = true ∧ (asked [issueWord 0x1001]).inbox = [issueWord 0x1001]
    ∧ decode 0x1001 = .instr (.fmtOtax .on) := by decide

/-- A faulted block with inputs lined up. -/
def faultedWith (l : List Input) : State := { asked l with fault := some .outOfBounds }

theorem test_witness_FaultedBlockStaysQuiescent :
    ((faultedWith [issueWord 0x1001]).cfg.wf = true ∧ (faultedWith [issueWord 0x1001]).fault ≠ none
      ∧ (faultedWith [issueWord 0x1001]).pending = none)
    ∧ step (faultedWith [.write .word 4 7]) = .next (stepped (faultedWith [.write .word 4 7])) :=
  ⟨by decide, rfl⟩

theorem test_witness_ResetSetsTheTable :
    ((faultedWith [.reset]).cfg.wf = true ∧ (faultedWith [.reset]).pending = none)
    ∧ (step (faultedWith [.reset]) = .next (stepped (faultedWith [.reset]))
      ∧ (faultedWith [.reset]).fault ≠ none ∧ (stepped (faultedWith [.reset])).fault = none) :=
  ⟨by decide, rfl, by decide, by decide⟩

/-- A FMT.SOMFY on a shared medium between its store read and its store write. -/
def split (l : List Input) : State :=
  { ops 0xA7 0x123456 280 with
    cfg := t0Shared
    pending := some ⟨.somfy, .on, 0xA7, 0x123456, 5⟩
    store := [(⟨.somfy, 0xA7, 0x123456⟩, 5)]
    inbox := l }

theorem test_witness_StepKeepsInvariant :
    (split []).Inv ∧ step (split []) = .next (stepped (split [])) := by
  refine ⟨⟨by decide, rfl, rfl, rfl, by decide, Or.inl rfl, ?_⟩, rfl⟩
  intro j hj
  cases hj
  exact ⟨rfl, rfl, by decide, by decide⟩

theorem test_witness_LegalInputsNeverStopTheMachine :
    (asked [issueWord 0x2900, .read .byte 0x41FF, .reset]).cfg.wf = true
    ∧ ∀ i ∈ (asked [issueWord 0x2900, .read .byte 0x41FF, .reset]).inbox, i.legal t0 = true := by
  decide

theorem test_witness_BrokenSomfyEquationsAreRefused :
    7 * ((4 : Nat) + 4) + 7 + 1 + 112 + 50 ≠ 225
    ∧ step { fresh with cfg := { t0 with somfyGap := 50 } } = .refused .badConfiguration :=
  ⟨by decide, rfl⟩

/-- 20_memory.md R65: each refused shape, and both shapes of the interface, at the ends of their ranges. -/
theorem test_witness_OtherAccessShapesAreRefused :
    (asked []).cfg.wf = true ∧ (asked []).pending = none
    ∧ 0x79 % 4 ≠ 0
    ∧ 511 < t0.bufBytes ∧ 0x21FF = bufferOffset .buf0 + 511
    ∧ (∀ b j, j < t0.bufBytes → 0x2200 ≠ bufferOffset b + j)
    ∧ (∀ b j, j < t0.bufBytes → 0x3C ≠ bufferOffset b + j)
    ∧ (0x00, HostReg.opw) ∈ registerMap := by
  refine ⟨by decide, rfl, by decide, by decide, rfl, fun b j hj => ?_, fun b j _ => ?_, by decide⟩
  · have hb : t0.bufBytes = 512 := rfl
    cases b <;> simp only [bufferOffset] <;> omega
  · cases b <;> simp only [bufferOffset] <;> omega

/-- A read of OPW and of a read-only register; a write to a writable register, to one with unwritable bits, and to
a read-only one; and the largest 16-bit value written to OPW. -/
theorem test_witness_HostRegisterWriteThenRead :
    (asked [.write .word 0x1C 1, .read .word 0x1C]).cfg.wf = true
    ∧ (asked [.write .word 0x1C 1, .read .word 0x1C]).pending = none
    ∧ ((0x1C, HostReg.a6) ∈ registerMap ∧ writableMask .a6 ≠ 0)
    ∧ ((0x40, HostReg.tcfgFmt) ∈ registerMap ∧ writableMask .tcfgFmt ≠ 0)
    ∧ ((0x78, HostReg.rtcfgFcount) ∈ registerMap ∧ writableMask .rtcfgFcount = 0)
    ∧ ((0x20, HostReg.status) ∈ registerMap ∧ (asked [.read .word 0x20]).cfg.wf = true
      ∧ (asked [.read .word 0x20]).pending = none)
    ∧ ((asked [.write .word 0x00 0xFFFF, .read .word 0x00]).cfg.storeShared = false
      ∧ (0xFFFF : Word).toNat < 2 ^ 16) := by
  decide

theorem test_witness_ReservedOffsetsReadZero :
    (asked [.read .word 0x3C]).cfg.wf = true ∧ (asked [.read .word 0x3C]).pending = none
    ∧ 0x3C % 4 = 0 ∧ (∀ p ∈ registerMap, 0x3C ≠ p.1)
    ∧ (∀ b, 0x3C < bufferOffset b) := by
  refine ⟨by decide, rfl, rfl, by decide, fun b => ?_⟩
  cases b <;> decide

/-- The last byte of a buffer, all eight bits written. -/
def lastByte (l : List Input) : State := { asked l with buf1 := runCells 4088 (byteBits 0xA5) }

theorem test_witness_HostByteReadIsMsbFirst :
    (lastByte [.read .byte (bufferOffset .buf1 + 511)]).cfg.wf = true
    ∧ (lastByte [.read .byte (bufferOffset .buf1 + 511)]).pending = none ∧ 511 < t0.bufBytes
    ∧ ∀ i, i < 8 → Memory.read (lastByte []).buf1 (8 * 511 + i)
        = some ((0xA5 : Byte).getLsbD (7 - i)) := by decide

theorem test_witness_HostByteWriteSetsEightBits :
    (asked [.write .byte (bufferOffset .buf1 + 511) 0xA5]).cfg.wf = true
    ∧ (asked [.write .byte (bufferOffset .buf1 + 511) 0xA5]).pending = none
    ∧ 511 < t0.bufBytes := by decide

theorem test_witness_HostReadHasNoSideEffect :
    (asked [.read .byte 0x2000]).cfg.wf = true ∧ (asked [.read .byte 0x2000]).pending = none
    ∧ (Input.read .byte 0x2000).legal t0 = true := by decide

theorem test_witness_UnwrittenOperandFaults :
    operandsWritten fresh (.fmtIdk .on) = false
    ∧ operandsWritten { dioState with a2 := none } (.rawConvert 101) = false := by decide

theorem test_witness_ReservedOperandsEndIllegalOperation :
    (operandsWritten (ops 0 0 513) (.fmtDio .on) = true
      ∧ reservedOperand (ops 0 0 513) (.fmtDio .on) = true)
    ∧ (operandsWritten (renderState 0 0x10000 3 2) .rawRender = true
      ∧ reservedOperand (renderState 0 0x10000 3 2) .rawRender = true)
    ∧ (operandsWritten (ops 0 0 0x10000) (.stStore 8) = true
      ∧ reservedOperand (ops 0 0 0x10000) (.stStore 8) = true) := by decide

/-- A ⊥ operand, a ⊥ source bit, and a write across the capacity. -/
theorem test_witness_FaultEntryIsPrecise :
    (exec (.bwLow .buf0) fresh = .next (after (.bwLow .buf0) fresh) ∧ fresh.fault = none
      ∧ (after (.bwLow .buf0) fresh).fault = some .unwrittenRead)
    ∧ (exec .rawRender (renderState 0 100 4 512) = .next (after .rawRender (renderState 0 100 4 512))
      ∧ (after .rawRender (renderState 0 100 4 512)).fault = some .unwrittenRead)
    ∧ (exec (.bwLow .buf0) (ops 4095 2 0) = .next (after (.bwLow .buf0) (ops 4095 2 0))
      ∧ (after (.bwLow .buf0) (ops 4095 2 0)).fault = some .outOfBounds) :=
  ⟨⟨rfl, rfl, rfl⟩, ⟨rfl, by decide⟩, rfl, by decide⟩

/-- `ops` on a medium that answers one access and then fails. -/
def halfway (x y z : Word) : State := { ops x y z with answers := [true, false] }

/-- An error without a record and one whose store read created a record. -/
theorem test_witness_ErrorStatusWritesNothingElse :
    ((ops 0 0 3).pending = none ∧ (after (.fmtOtax .on) (ops 0 0 3)).pending = none
      ∧ (after (.fmtOtax .on) (ops 0 0 3)).fault = none
      ∧ (after (.fmtOtax .on) (ops 0 0 3)).status ≠ .ok)
    ∧ ((after (.fmtBlyss .on) (halfway 1 2 7)).pending = none
      ∧ (after (.fmtBlyss .on) (halfway 1 2 7)).fault = none
      ∧ (after (.fmtBlyss .on) (halfway 1 2 7)).status ≠ .ok
      ∧ ReplayStore.find (after (.fmtBlyss .on) (halfway 1 2 7)).store ⟨.blyss, 1, 2⟩ = some 0)
    ∧ { split [] with answers := [false] }.nextAnswer = false := by decide

theorem test_witness_OperationsWriteOnlyTheirResults :
    exec (.fmtOtax .on) (ops 0 0 4) = .next (after (.fmtOtax .on) (ops 0 0 4))
    ∧ unitOf (.fmtOtax .on) = .format := ⟨rfl, rfl⟩

theorem test_witness_RunsWriteTheirBits :
    (ops 4095 1 0).a0 = some 4095 ∧ (ops 4095 1 0).a1 = some 1
    ∧ (4095 : Word).toNat + (1 : Word).toNat ≤ 8 * t0.bufBytes := by decide

theorem test_witness_EdgeWritesItsPattern :
    (ops 4090 2 4).a0 = some 4090 ∧ (ops 4090 2 4).a1 = some 2 ∧ (ops 4090 2 4).a2 = some 4
    ∧ (4090 : Word).toNat + (2 : Word).toNat + (4 : Word).toNat ≤ 8 * t0.bufBytes := by
  decide

/-- Data 0xFFFFFFF5 in 4 bits, 0 as LH(1,2), 1 as HL(3,0): 2 * 3 + 2 * 3 = 12 bits. -/
def bitsCase (off : Word) : BitsCase := ⟨off, 0xFFFFFFF5, 4, .lh, 1, 2, .hl, 3, 0⟩

theorem test_witness_DataBitsWriteTheirPatterns :
    (bitsCase 4084).holds (bitsState 4084 0xFFFFFFF5 4 1 2 3 0) ∧ (bitsCase 4084).len.toNat ≤ 32
    ∧ (bitsCase 4084).off.toNat + (bitsCase 4084).total ≤ 8 * t0.bufBytes := by
  unfold BitsCase.holds
  decide

theorem test_witness_OutOfBoundsFaultsBeforeWriting :
    (given (ops 4096 1 0) 4096 1 0 = true ∧ 8 * t0.bufBytes < (4096 : Word).toNat + (1 : Word).toNat)
    ∧ (given (ops 4090 2 5) 4090 2 5 = true
      ∧ 8 * t0.bufBytes < (4090 : Word).toNat + (2 : Word).toNat + (5 : Word).toNat)
    ∧ ((bitsCase 4085).holds (bitsState 4085 0xFFFFFFF5 4 1 2 3 0)
      ∧ 8 * t0.bufBytes < (bitsCase 4085).off.toNat + (bitsCase 4085).total) := by
  unfold BitsCase.holds
  decide

/-- Each check at the boundary: 513 bytes, 3 bytes for 25 bits, PROG on OTAX with 4 bytes. -/
theorem test_witness_FormatChecksInOrder :
    (operandsWritten (ops 0 0 513) (.fmt .otax .on) = true ∧ given (ops 0 0 513) 0 0 513 = true
      ∧ t0.bufBytes < (513 : Word).toNat)
    ∧ ((3 : Word).toNat ≤ t0.bufBytes ∧ 8 * (3 : Word).toNat < frameBits t0 .otax)
    ∧ ((4 : Word).toNat ≤ t0.bufBytes ∧ frameBits t0 .otax ≤ 8 * (4 : Word).toNat
      ∧ Command.prog ∉ accepted .otax) := by decide

/-- The operands of a 4-byte frame. -/
theorem test_witness_OtaxFrame :
    (ops 1 2 4).a0 = some 1 ∧ (ops 1 2 4).a1 = some 2 ∧ (ops 1 2 4).a2 = some 4
    ∧ (4 : Word).toNat ≤ t0.bufBytes ∧ 25 ≤ 8 * (4 : Word).toNat
    ∧ (Command.groupOn, (0xC : BitVec 4)) ∈ [(Command.off, t0.otaxOff), (.on, t0.otaxOn),
      (.groupOff, t0.otaxGroupOff), (.groupOn, t0.otaxGroupOn)] := by decide

theorem test_witness_DioFrame :
    given (ops 1 2 8) 1 2 8 = true ∧ (8 : Word).toNat ≤ t0.bufBytes ∧ 64 ≤ 8 * (8 : Word).toNat
    ∧ (Command.groupOn, (3 : BitVec 2)) ∈ [(Command.off, t0.dioCmd.off), (.on, t0.dioCmd.on),
      (.groupOff, t0.dioCmd.groupOff), (.groupOn, t0.dioCmd.groupOn)] := by
  decide

theorem test_witness_HomeeasyFrame :
    given (ops 1 2 8) 1 2 8 = true ∧ (8 : Word).toNat ≤ t0.bufBytes ∧ 57 ≤ 8 * (8 : Word).toNat
    ∧ Command.off ∈ [Command.off, .on] := by decide

theorem test_witness_IdkFrame :
    { ops 0 2 4 with a0 := none }.a1 = some 2 ∧ { ops 0 2 4 with a0 := none }.a2 = some 4
    ∧ (4 : Word).toNat ≤ t0.bufBytes ∧ 25 ≤ 8 * (4 : Word).toNat := by decide

theorem test_witness_SumtechAndAuchanFrames :
    (ops 1 2 4).a0 = some 1 ∧ (ops 1 2 4).a1 = some 2 ∧ (ops 1 2 4).a2 = some 4
    ∧ (4 : Word).toNat ≤ t0.bufBytes
    ∧ (Command.on, true, true) ∈ [(Command.off, t0.sumtechCmd.off, t0.auchanCmd.off),
      (.on, t0.sumtechCmd.on, t0.auchanCmd.on)]
    ∧ 32 ≤ 8 * (4 : Word).toNat ∧ 25 ≤ 8 * (4 : Word).toNat := by
  decide

theorem test_witness_AuchanTwoFrame :
    given (ops 1 2 3) 1 2 3 = true ∧ (3 : Word).toNat ≤ t0.bufBytes ∧ 21 ≤ 8 * (3 : Word).toNat
    ∧ (Command.groupOff, (2 : BitVec 2)) ∈ [(Command.off, t0.auchan2Cmd.off), (.on, t0.auchan2Cmd.on),
      (.groupOff, t0.auchan2Cmd.groupOff), (.groupOn, t0.auchan2Cmd.groupOn)] := by
  decide

theorem test_witness_SomfyBurst :
    t0.wf = true ∧ t0.storeShared = false ∧ State.grants 2 (ops 1 2 280) = true
    ∧ (ops 1 2 280).a0 = some 1 ∧ (ops 1 2 280).a1 = some 2 ∧ (ops 1 2 280).a2 = some 280
    ∧ (280 : Word).toNat ≤ t0.bufBytes ∧ 213 + 225 * (t0.somfyN - 1) ≤ 8 * (280 : Word).toNat
    ∧ (Command.prog, (0x8 : BitVec 4)) ∈ [(Command.off, t0.somfyOff), (.on, t0.somfyOn),
      (.prog, t0.somfyProg), (.f1, t0.somfyF1)]
    ∧ (ReplayStore.find (ops 1 2 280).store ⟨.somfy, 1, 2⟩).getD 0 = 0 := by decide

theorem test_witness_BlyssFrame :
    t0.storeShared = false ∧ State.grants 2 (ops 1 2 7) = true
    ∧ (ops 1 2 7).a0 = some 1 ∧ (ops 1 2 7).a1 = some 2 ∧ (ops 1 2 7).a2 = some 7
    ∧ (7 : Word).toNat ≤ t0.bufBytes ∧ 52 ≤ 8 * (7 : Word).toNat
    ∧ (Command.groupOn, (3 : BitVec 4)) ∈ [(Command.off, t0.blyssOff), (.on, t0.blyssOn),
      (.groupOff, t0.blyssGroupOff), (.groupOn, t0.blyssGroupOn)]
    ∧ (ReplayStore.find (ops 1 2 7).store ⟨.blyss, 1, 2⟩).getD 0 = 0 := by decide

theorem test_witness_StatelessFormatsIgnoreTheStore :
    (statelessCodec .auchan2 = true
      ∧ exec (.fmt .auchan2 .on) (ops 1 2 3) = .next (after (.fmt .auchan2 .on) (ops 1 2 3)))
    ∧ (exec (.stLoad 7) { ops 1 2 3 with answers := [false] }
        = .next (after (.stLoad 7) { ops 1 2 3 with answers := [false] })
      ∧ (after (.stLoad 7) { ops 1 2 3 with answers := [false] }).fault = none
      ∧ (after (.stLoad 7) { ops 1 2 3 with answers := [false] }).status = .storeUnavailable) :=
  ⟨⟨rfl, rfl⟩, rfl, rfl, rfl⟩

/-- The same operands in two states with different buffers. -/
theorem test_witness_StatelessFormatsDependOnOperandsOnly :
    statelessCodec .otax = true ∧ (opsOn 0 1 2 4).cfg = (opsOn 0xFF 1 2 5).cfg
    ∧ (opsOn 0 1 2 4).a0 = (opsOn 0xFF 1 2 5).a0 ∧ (opsOn 0 1 2 4).a1 = (opsOn 0xFF 1 2 5).a1
    ∧ (after (.fmtOtax .on) (opsOn 0 1 2 4)).fault = none
    ∧ (after (.fmtOtax .on) (opsOn 0 1 2 4)).status = .ok
    ∧ (after (.fmtOtax .on) (opsOn 0xFF 1 2 5)).fault = none
    ∧ (after (.fmtOtax .on) (opsOn 0xFF 1 2 5)).status = .ok := by decide

theorem test_witness_FormatStoreFailures :
    t0.storeShared = false ∧ (halfway 1 2 7).pending = none ∧ given (halfway 1 2 7) 1 2 7 = true
    ∧ frameBits t0 Rolling.blyss.protocol ≤ 8 * (7 : Word).toNat
    ∧ Command.on ∈ accepted Rolling.blyss.protocol
    ∧ { ops 1 2 7 with answers := [false] }.nextAnswer = false
    ∧ (halfway 1 2 7).nextAnswer = true ∧ (halfway 1 2 7).takeAnswer.nextAnswer = false := by
  decide

theorem test_witness_SharedFormatSplits :
    (t0Shared.storeShared = true ∧ { ops 1 2 7 with cfg := t0Shared }.nextAnswer = true
      ∧ given { ops 1 2 7 with cfg := t0Shared } 1 2 7 = true ∧ (7 : Word).toNat ≤ t0Shared.bufBytes
      ∧ frameBits t0Shared Rolling.blyss.protocol ≤ 8 * (7 : Word).toNat
      ∧ Command.on ∈ accepted Rolling.blyss.protocol)
    ∧ (t0Shared.wf = true
      ∧ (split [.otherWrite ⟨.blyss, 1, 2⟩ 9]).pending = some ⟨.somfy, .on, 0xA7, 0x123456, 5⟩
      ∧ (split [.otherWrite ⟨.blyss, 1, 2⟩ 9]).inbox = [.otherWrite ⟨.blyss, 1, 2⟩ 9])
    ∧ ((split []).nextAnswer = true ∧ (split []).inbox = []) := by decide

theorem test_witness_SharedMediumLosesUpdates :
    t0Shared.wf = true ∧ t0Shared.storeShared = true
    ∧ (split [.otherWrite ⟨.somfy, 0xA7, 0x123456⟩ 6, .idle]).pending
        = some ⟨.somfy, .on, 0xA7, 0x123456, 5⟩
    ∧ (split [.otherWrite ⟨.somfy, 0xA7, 0x123456⟩ 6, .idle]).nextAnswer = true := by decide

theorem test_witness_SomfyCounterChangesTheFrame :
    t0.wf = true ∧ t0.storeShared = false ∧ State.grants 4 (ops 1 2 280) = true
    ∧ given (ops 1 2 280) 1 2 280 = true
    ∧ (280 : Word).toNat ≤ t0.bufBytes ∧ 213 + 225 * (t0.somfyN - 1) ≤ 8 * (280 : Word).toNat
    ∧ Command.f1 ∈ [Command.off, .on, .prog, .f1] := by decide

theorem test_witness_DescReadWritesTheDescriptor :
    (t0.dioOrder = Config.standard.dioOrder ∧ t0.dioDurations = Config.standard.dioDurations)
    ∧ t0.somfyN = 10 ∧ 8 < (9 : BitVec 4).toNat := by
  decide

theorem test_witness_TolerantGcdIsEarlyEuclid : 65535 < 2 ^ 16 ∧ tolerantGcd 260 9000 26 = 40 := by
  decide

theorem test_witness_AccuracyFloorOfTheSmallestDuration :
    IsSmallestNonzero (Pulses.toList ⟨260, 2680, 260, 9000, 260, 260, 260, 1300⟩) 260
    ∧ IsSmallestNonzero (Pulses.toList ⟨0, 0, 0, 0, 0, 0, 0, 1⟩) 1 := by
  unfold IsSmallestNonzero
  decide

/-- A half goes up with an even quantum, and there is no half with an odd one (95_test_vectors.md 2.6). -/
theorem test_witness_RoundingIsHalfUp :
    0 < 2 ∧ roundTicks 2 5 = 3 ∧ roundTicks 3 4 = 1 ∧ roundTicks 100 150 = 2 ∧ roundTicks 100 149 = 1 := by
  decide

/-- `renderState` with other durations. -/
def timed (tag : BitVec 2) (start stop bit0 bit1 : Word) : State :=
  { ops 100 3 2 with
    tcfg := ⟨some tag, some start, some stop, some bit0, some bit1, none, some 3⟩
    buf0 := runCells 0 [true, false, true] }

/-- Each clause: a ⊥ register, a reserved accuracy, a RAW tag, all durations 0, a quantum of 0 and a positive
one. -/
theorem test_witness_BasetimeComputesTheQuantum :
    operandsWritten fresh (.rawBasetime 90) = false
    ∧ 100 < (101 : Byte).toNat
    ∧ (timed 2 0 0 0 0).tcfg.fmt = some 2
    ∧ (∀ x ∈ durationList 0 0 0 0, x = 0)
    ∧ (IsSmallestNonzero (durationList 0x00640000 0 0 0) 100
      ∧ quantumFrom 0x00640000 0 0 0 (100 * (100 - (0 : Byte).toNat) / 100) = 0)
    ∧ (IsSmallestNonzero (durationList 0x00640000 0 0 0) 100
      ∧ quantumFrom 0x00640000 0 0 0 (100 * (100 - (90 : Byte).toNat) / 100) = 100) := by
  unfold IsSmallestNonzero
  decide

/-- The request of the worked example of 44_raw_engine.md R211, whose rendering fills its 2 bytes. -/
def renderCase (dl : Word) : RenderCase :=
  ⟨.hl, 0x006400C8, 0x0000012C, 0x00640064, 0x0064012C, 3, 3, dl, fun k => k != 1⟩

theorem test_witness_RenderWritesThePulseTrain :
    (renderState 0 100 3 2).a0 = some 100 ∧ (renderCase 2).holds (renderState 0 100 3 2)
    ∧ (renderCase 2).fits 100 (renderState 0 100 3 2) := by
  unfold RenderCase.holds RenderCase.fits representable
  decide

/-- The operands at the boundary of each check of RAW.RENDER: base 0x10000, base 0, a source bit that is ⊥, and
one byte too few. -/
theorem test_witness_RenderChecksInOrder :
    ¬(0x10000 : Word).toNat ≤ 0xFFFF
    ∧ (renderState 0 0 3 2).a0 = some 0
    ∧ (representable 100 0x006400C8 ∧ representable 100 0x0000012C
      ∧ representable 100 0x00640064 ∧ representable 100 0x0064012C)
    ∧ Memory.read (renderState 0 100 4 2).buf0 3 = none
    ∧ (∀ k, k < 3 → Memory.read (renderState 0 100 3 1).buf0 k = some ((renderCase 1).source k))
    ∧ 8 * (1 : Word).toNat < (renderCase 1).length 100 := by
  unfold representable
  decide

theorem test_witness_ConvertWritesThePulseTrain :
    (100 : Byte).toNat ≤ 100 ∧ (renderCase 2).holds (renderState 0 7 3 2)
    ∧ IsSmallestNonzero (durationList 0x006400C8 0x0000012C 0x00640064 0x0064012C) 100
    ∧ quantumFrom 0x006400C8 0x0000012C 0x00640064 0x0064012C (100 * (100 - 100) / 100) = 100
    ∧ (renderCase 2).fits 100 (renderState 0 7 3 2) := by
  unfold RenderCase.holds RenderCase.fits representable IsSmallestNonzero
  decide

/-- Each clause: a ⊥ operand, a reserved accuracy, a BASETIME that is unsupported, and one that is OK. -/
theorem test_witness_ConvertIsBasetimeThenRender :
    (renderState 0 7 3 2).fault = none
    ∧ operandsWritten { renderState 0 7 3 2 with a1 := none } (.rawConvert 90) = false
    ∧ operandsWritten (renderState 0 7 3 2) (.rawConvert 101) = true
    ∧ ¬(101 : Byte).toNat ≤ 100
    ∧ (after (.rawBasetime 100) (renderState 2 7 3 2)).status = .timingUnsupported
    ∧ (after (.rawBasetime 100) (renderState 0 7 3 2)).status = .ok := by decide

theorem test_witness_LoadReadsTheRecord :
    fresh.a0 = none
    ∧ ((ops 1 2 3).a0 = some 1 ∧ (ops 1 2 3).a1 = some 2)
    ∧ 8 < (9 : BitVec 4).toNat
    ∧ ((8 : BitVec 4).toNat ≤ 8 ∧ { ops 1 2 3 with answers := [false] }.nextAnswer = false)
    ∧ (Protocol.blyss.id = (8 : BitVec 4).toNat ∧ (ops 1 2 3).nextAnswer = true) := by decide

theorem test_witness_StoreWritesTheRecord :
    { ops 1 2 3 with a2 := none }.a2 = none
    ∧ (given (ops 1 2 0x10000) 1 2 0x10000 = true ∧ 0xFFFF < (0x10000 : Word).toNat)
    ∧ ((0xFFFF : Word).toNat ≤ 0xFFFF ∧ { ops 1 2 0xFFFF with answers := [false] }.nextAnswer = false)
    ∧ (Protocol.otax.id = (0 : BitVec 4).toNat ∧ (ops 1 2 0xFFFF).nextAnswer = true) := by
  decide

theorem test_witness_StoreThenLoadReturnsTheValue :
    (ops 1 2 3).a0 = some 1 ∧ (ops 1 2 3).a1 = some 2 ∧ (ops 1 2 3).a2 = some 3
    ∧ (7 : BitVec 4).toNat ≤ 8 ∧ (3 : Word).toNat ≤ 0xFFFF ∧ State.grants 2 (ops 1 2 3) = true := by
  decide

theorem test_witness_OnlyTheNamedRecordChanges :
    exec (.stStore 7) (ops 1 2 3) = .next (after (.stStore 7) (ops 1 2 3))
    ∧ storeKeyOf (ops 1 2 3) (.stStore 7) ≠ some ⟨.blyss, 1, 2⟩
    ∧ (⟨.blyss, 0xA7, 0x123456⟩ : StoreKey) ≠ ⟨Rolling.somfy.protocol, 0xA7, 0x123456⟩ :=
  ⟨rfl, by decide, by decide⟩

theorem test_witness_BitCountFitsTheDataLength :
    unitOf (.fmtSumtech .on) = .format ∧ (ops 1 2 4).a2 = some 4
    ∧ (after (.fmtSumtech .on) (ops 1 2 4)).fault = none
    ∧ (after (.fmtSumtech .on) (ops 1 2 4)).pending = none
    ∧ (after (.fmtSumtech .on) (ops 1 2 4)).status = .ok
    ∧ (after .rawRender (renderState 0 100 3 2)).status = .ok := by decide

theorem test_witness_EqualReadsMeanEqualData :
    Memory.wf 512 (runCells 4095 [true]) = true
    ∧ ReplayStore.wf [(⟨.somfy, 1, 2⟩, 3), (⟨.blyss, 1, 2⟩, 0)] = true := by decide

end Sys2Proof.Tests
end

section
/-! PROOFS. The statements of the family 00_scope.md: the operand reads, which come before every other check
(R14), the bit sequences (R11) and the configuration check (R9). -/

namespace Sys2Proof.Proofs

open Sys2Proof Sys2Proof.Machine Sys2Proof.Laws

/-! ### Operand reads

An operand form holds a value exactly when each of its registers does. -/

/-- A register read whose value does not decide whether the later reads succeed. -/
theorem option_any_const {α : Type} (o : Option α) (b : Bool) :
    o.any (fun _ => b) = (o.isSome && b) := by
  cases o <;> rfl

@[simp] theorem operands01_isSome (s : State) :
    s.operands01.isSome = (s.a0.isSome && s.a1.isSome) := by
  simp [State.operands01, Option.isSome_bind, option_any_const]

@[simp] theorem operands12_isSome (s : State) :
    s.operands12.isSome = (s.a1.isSome && s.a2.isSome) := by
  simp [State.operands12, Option.isSome_bind, option_any_const]

@[simp] theorem operands012_isSome (s : State) :
    s.operands012.isSome = (s.a0.isSome && s.a1.isSome && s.a2.isSome) := by
  simp [State.operands012, Option.isSome_bind, option_any_const, Bool.and_assoc]

@[simp] theorem operandsBits_isSome (s : State) :
    s.operandsBits.isSome = (s.a0.isSome && s.a1.isSome && s.a2.isSome && s.a3.isSome && s.a4.isSome
      && s.a5.isSome && s.a6.isSome) := by
  simp [State.operandsBits, Option.isSome_bind, option_any_const, Bool.and_assoc]

@[simp] theorem durations_isSome (t : TimingRegs) :
    t.durations.isSome = (t.fmt.isSome && t.start.isSome && t.stop.isSome && t.bit0.isSome
      && t.bit1.isSome) := by
  simp [TimingRegs.durations, Option.isSome_bind, option_any_const, Bool.and_assoc]

@[simp] theorem operandsRender_isSome (s : State) :
    s.operandsRender.isSome = (s.tcfg.durations.isSome && s.tcfg.fcount.isSome
      && s.operands012.isSome) := by
  simp [State.operandsRender, Option.isSome_bind, option_any_const, Bool.and_assoc]

@[simp] theorem operandsConvert_isSome (s : State) :
    s.operandsConvert.isSome = (s.tcfg.durations.isSome && s.tcfg.fcount.isSome
      && s.operands12.isSome) := by
  simp [State.operandsConvert, Option.isSome_bind, option_any_const, Bool.and_assoc]

/-- Every operation starts with its operand reads: what it does is `withOperands` of an operand form that holds
a value exactly when every register the operation reads does (00_scope.md R14, 30_encoding.md R95). DESC.READ
reads none. -/
theorem exec_eq_withOperands (i : Instr) (s : State) :
    ∃ (α : Type) (o : Option α) (k : α → State),
      o.isSome = operandsWritten s i ∧ exec i s = .next (withOperands o s k) := by
  cases i with
  | descRead sel => exact ⟨Unit, some (), fun _ => descRead sel s, rfl, rfl⟩
  | fmtIdk _ => exact ⟨_, s.operands12, _, operands12_isSome s, rfl⟩
  | bwLow _ | bwHigh _ | stLoad _ => exact ⟨_, s.operands01, _, operands01_isSome s, rfl⟩
  | fmtOtax _ | fmtDio _ | fmtHomeeasy _ | fmtSumtech _ | fmtAuchan _ | fmtAuchan2 _ | fmtSomfy _
  | fmtBlyss _ | bwEdge _ _ | stStore _ => exact ⟨_, s.operands012, _, operands012_isSome s, rfl⟩
  | bwBits _ _ _ => exact ⟨_, s.operandsBits, _, operandsBits_isSome s, rfl⟩
  | rawBasetime _ => exact ⟨_, s.tcfg.durations, _, durations_isSome s.tcfg, rfl⟩
  | rawRender =>
    exact ⟨_, s.operandsRender, _, by simp [operandsWritten, Bool.and_assoc], rfl⟩
  | rawConvert _ =>
    exact ⟨_, s.operandsConvert, _, by simp [operandsWritten, Bool.and_assoc], rfl⟩

/-- Settles O20: the operand reads come first, and one of them finds no value. -/
theorem unwrittenOperandFaults : Obligations.UnwrittenOperandFaults := by
  intro i s hunwritten
  obtain ⟨α, o, k, hread, hexec⟩ := exec_eq_withOperands i s
  have hnone : o = none := Option.not_isSome_iff_eq_none.1 (by simp [hread, hunwritten])
  rw [hexec, hnone, withOperands_none]
  rfl

/-! ### Bit sequences -/

/-- A value read so far is shifted up by the bits that follow it. -/
theorem foldl_value_acc (f : Frame) (acc : Nat) :
    f.foldl (fun acc b => 2 * acc + b.toNat) acc = 2 ^ f.length * acc + bitsValue f := by
  induction f generalizing acc with
  | nil => simp [bitsValue]
  | cons c f ih =>
    have hcons : bitsValue (c :: f) = 2 ^ f.length * (2 * 0 + c.toNat) + bitsValue f := ih _
    rw [List.foldl_cons, ih, hcons, List.length_cons]
    ring

/-- The first bit of a sequence weighs 2 to the number of bits after it. -/
theorem bitsValue_cons (b : Bool) (f : Frame) :
    bitsValue (b :: f) = 2 ^ f.length * b.toNat + bitsValue f := by
  simpa [bitsValue] using foldl_value_acc f b.toNat

/-- Read most significant bit first, `seq_N(v)` has the value v mod 2^N (00_scope.md R11). -/
theorem bitsValue_seqBits (n v : Nat) : bitsValue (seqBits n v) = v % 2 ^ n := by
  induction n with
  | zero => simp [seqBits, bitsValue, Nat.mod_one]
  | succ n ih =>
    calc bitsValue (seqBits (n + 1) v)
        = 2 ^ n * (v.testBit n).toNat + v % 2 ^ n := by rw [seqBits, bitsValue_cons, seqBits_length, ih]
      _ = v % 2 ^ n + 2 ^ n * (v / 2 ^ n % 2) := by rw [Nat.toNat_testBit, Nat.add_comm]
      _ = v % 2 ^ (n + 1) := Nat.mod_pow_succ.symm

/-- Settles O59: the length and the bits are laws of `seqBits`; the value goes by induction on the width. -/
theorem sequenceHoldsTheValueMsbFirst : Obligations.SequenceHoldsTheValueMsbFirst :=
  fun n v => ⟨seqBits_length n v, seqBits_getElem? n v, bitsValue_seqBits n v⟩

/-! ### The configuration check -/

/-- A parameter set that fails the configuration check is refused (00_scope.md R9). -/
theorem step_of_not_wf (s : State) (h : ¬s.cfg.wf = true) : step s = .refused .badConfiguration :=
  if_neg h

/-- Settles O13: the left sides of the equations are the two Somfy frame lengths, which the configuration check
compares with 213 and 225. -/
theorem brokenSomfyEquationsAreRefused : Obligations.BrokenSomfyEquationsAreRefused := by
  intro s hbroken
  refine step_of_not_wf s fun hwf => ?_
  obtain ⟨-, -, hfirst, hrepeat, -, -⟩ := (cfg_wf_iff s.cfg).1 hwf
  exact hbroken.elim (· hfirst) (· hrepeat)

end Sys2Proof.Proofs
end

section
/-! PROOFS. The statements of the family 10_state.md: how an operation can end, what the host reads and writes
through the map, the canonical forms, and the invariant. -/

namespace Sys2Proof.Proofs

open Sys2Proof Sys2Proof.Machine Sys2Proof.Laws

/-! ### How an operation can end -/

/-- The state an operation `i` can leave `s` in: one constructor for each way to end. `exec_effect` says that
there is no other. -/
inductive Effect (i : Instr) (s : State) : State → Prop
  /-- A fault of the block (60_exceptions.md R246). -/
  | fault (r : FaultReason) : Effect i s (raiseFault r s)
  /-- An error before any store access (60_exceptions.md R245). -/
  | error (c : Status) (hc : c ≠ .ok) : Effect i s (complete c s)
  /-- A FMT without the store wrote its frame (41_codec_common.md R129). -/
  | frame (p : Protocol) (cmd : Command) (dl : Word) (f : Frame) (hu : unitOf i = .format)
      (hdl : s.a2 = some dl) (hchecks : fmtRefusal s.cfg p cmd dl = none)
      (hlen : f.length = frameBits s.cfg p) : Effect i s (fmtEmit p f s)
  /-- The store read of a stateful FMT or of ST.LOAD failed (45_replay_store.md R226). -/
  | readFailed (key : StoreKey) (hu : unitOf i = .format ∨ unitOf i = .replay) :
      Effect i s (complete .storeUnavailable (s.afterStoreRead key))
  /-- A stateful FMT stands between its two store accesses (20_memory.md R76). -/
  | split (j : FmtJob) (dl : Word) (hu : unitOf i = .format)
      (hchecks : fmtRefusal s.cfg j.codec.protocol j.cmd dl = none) (hshared : s.cfg.storeShared = true) :
      Effect i s { s.afterStoreRead j.key with pending := some j }
  /-- A stateful FMT did both its store accesses (41_codec_common.md R136). -/
  | rolled (j : FmtJob) (dl : Word) (hu : unitOf i = .format) (hdl : s.a2 = some dl)
      (hchecks : fmtRefusal s.cfg j.codec.protocol j.cmd dl = none) :
      Effect i s (fmtFinish j (s.afterStoreRead j.key))
  /-- DESC.READ of a protocol (41_codec_common.md R141). -/
  | descriptor (r0 r1 r2 : Word) (timing : TimingRegs) (hu : unitOf i = .descriptor) :
      Effect i s (withDescriptor s r0 r1 r2 timing)
  /-- A BitWriter operation wrote its bits inside the capacity (40_bitwriter.md R112, R118). -/
  | run (b : BufSel) (off : Nat) (f : Frame) (n : Word) (hu : unitOf i = .bitWriter)
      (hfits : off + f.length ≤ 8 * s.cfg.bufBytes) :
      Effect i s (complete .ok { s.withBuffer b (Memory.write (s.buffer b) off f) with res0 := n })
  /-- RAW.BASETIME found a quantum (44_raw_engine.md R204). -/
  | quantum (acc : Byte) (q : Word) (hi : i = .rawBasetime acc) : Effect i s (complete .ok { s with res0 := q })
  /-- RAW.RENDER or RAW.CONVERT wrote its rendering (44_raw_engine.md R211, R212). -/
  | rendered (f : Frame) (dl : Word) (base fcount : Half) (r0 : Word) (hu : unitOf i = .raw)
      (hdl : s.a2 = some dl) (hcap : dl.toNat ≤ s.cfg.bufBytes) (hfits : f.length ≤ 8 * dl.toNat) :
      Effect i s (complete .ok
        { s with
          buf1 := Memory.write s.buf1 0 f
          bitcnt := BitVec.ofNat 16 f.length
          rtcfg := rawTiming base fcount
          res0 := r0 })
  /-- ST.LOAD read a record (45_replay_store.md R228). -/
  | loaded (key : StoreKey) (v : Word) (hu : unitOf i = .replay) :
      Effect i s (complete .ok { s.afterStoreRead key with res0 := v })
  /-- ST.STORE asked the medium for its write (45_replay_store.md R229). -/
  | stored (c : Status) (key : StoreKey) (v : Half) (hu : unitOf i = .replay) :
      Effect i s (complete c (s.afterStoreWrite key v))

/-- An operand read that finds no value faults; else the operation ends as its continuation does. -/
theorem effect_withOperands {α : Type} {i : Instr} {s : State} (o : Option α) (k : α → State)
    (h : ∀ x, o = some x → Effect i s (k x)) : Effect i s (withOperands o s k) := by
  obtain ⟨-, hend⟩ | ⟨x, hx, hend⟩ := withOperands_cases o s k
  · exact hend ▸ .fault _
  · exact hend ▸ h x hx

theorem effect_fmtFixed {i : Instr} {s : State} (p : Protocol) (cmd : Command) (dl : Word) (f : Frame)
    (hu : unitOf i = .format) (hdl : s.a2 = some dl) (hlen : f.length = frameBits s.cfg p) :
    Effect i s (fmtFixed p cmd dl f s) := by
  obtain ⟨c, hc, hend⟩ | ⟨hchecks, hend⟩ := fmtFixed_cases p cmd dl f s
  · exact hend ▸ .error c fun h => fmtRefusal_ne_ok s.cfg p cmd dl (h ▸ hc)
  · exact hend ▸ .frame p cmd dl f hu hdl hchecks hlen

theorem effect_fmtRolling {i : Instr} {s : State} (codec : Rolling) (cmd : Command) (r d dl : Word)
    (hu : unitOf i = .format) (hdl : s.a2 = some dl) : Effect i s (fmtRolling codec cmd r d dl s) := by
  obtain ⟨c, hc, hend⟩ | ⟨-, -, hend⟩ | ⟨hchecks, -, v, -, ⟨hshared, hend⟩ | ⟨-, hend⟩⟩ :=
    fmtRolling_cases codec cmd r d dl s
  · exact hend ▸ .error c fun h => fmtRefusal_ne_ok s.cfg codec.protocol cmd dl (h ▸ hc)
  · exact hend ▸ .readFailed _ (.inl hu)
  · exact hend ▸ .split ⟨codec, cmd, r, d, v⟩ dl hu hchecks hshared
  · exact hend ▸ .rolled ⟨codec, cmd, r, d, v⟩ dl hu hdl hchecks

theorem effect_bwWrite {i : Instr} {s : State} (b : BufSel) (off total : Nat) (f : Frame)
    (hu : unitOf i = .bitWriter) (hlen : f.length = total) : Effect i s (bwWrite b off total f s) := by
  obtain ⟨-, hend⟩ | ⟨hfits, hend⟩ := bwWrite_cases b off total f s
  · exact hend ▸ .fault _
  · exact hend ▸ .run b off f _ hu (hlen ▸ hfits)

theorem effect_renderFrom {i : Instr} {s : State} (tag : BitVec 2) (t : Pulses) (fc : Half) (base n : Nat)
    (dl res0 : Word) (hu : unitOf i = .raw) (hdl : s.a2 = some dl) (hcap : dl.toNat ≤ s.cfg.bufBytes) :
    Effect i s (renderFrom tag t fc base n dl.toNat res0 s) := by
  obtain ⟨-, hend⟩ | ⟨o, -, -, -, ⟨-, hend⟩ | ⟨f, -, ⟨-, hend⟩ | ⟨hfits, -, hend⟩⟩⟩ :=
    renderFrom_cases tag t fc base n dl.toNat res0 s
  · exact hend ▸ .error _ (by decide)
  · exact hend ▸ .fault _
  · exact hend ▸ .error _ (by decide)
  · rw [← renderFrame_length o] at hend hfits
    exact hend ▸ .rendered _ dl _ fc res0 hu hdl hcap hfits

theorem effect_descRead (sel : BitVec 4) (s : State) : Effect (.descRead sel) s (descRead sel s) := by
  unfold descRead
  split
  · exact .error _ (by decide)
  · exact .descriptor _ _ _ _ rfl

theorem effect_bwBits (b : BufSel) (oo zo : Order) (s : State) :
    Effect (.bwBits b oo zo) s (bwBits b oo zo s) := by
  refine effect_withOperands _ _ fun o _ => ?_
  split
  · exact .error _ (by decide)
  · exact effect_bwWrite b _ _ _ rfl (bitsFrame_length o oo zo)

theorem effect_rawBasetime (acc : Byte) (s : State) :
    Effect (.rawBasetime acc) s (rawBasetime acc s) := by
  refine effect_withOperands _ _ fun t _ => ?_
  split
  · exact .error _ (by decide)
  · split
    · exact .error _ (by decide)
    · exact .quantum acc _ rfl

/-- The data length RAW.RENDER reads is A2. -/
theorem operandsRender_dataLen {s : State} {o : RenderOperands} (h : s.operandsRender = some o) :
    s.a2 = some o.dataLen := by
  simp only [State.operandsRender, Option.bind_eq_bind, Option.bind_eq_some_iff, Option.some.injEq] at h
  obtain ⟨t, -, fc, -, r, hr, rfl⟩ := h
  obtain ⟨-, -, hdl⟩ := (operands012_eq_some s r).1 hr
  exact hdl

/-- The data length RAW.CONVERT reads is A2. -/
theorem operandsConvert_dataLen {s : State} {o : ConvertOperands} (h : s.operandsConvert = some o) :
    s.a2 = some o.dataLen := by
  simp only [State.operandsConvert, Option.bind_eq_bind, Option.bind_eq_some_iff, Option.some.injEq] at h
  obtain ⟨t, -, fc, -, r, hr, rfl⟩ := h
  obtain ⟨-, hdl⟩ := (operands12_eq_some s r).1 hr
  exact hdl

theorem effect_rawRender (s : State) : Effect .rawRender s (rawRender s) := by
  refine effect_withOperands _ _ fun o ho => ?_
  split
  · exact .error _ (by decide)
  · next hlegal =>
    exact effect_renderFrom _ _ _ _ _ _ _ rfl (operandsRender_dataLen ho) (by omega)

theorem effect_rawConvert (acc : Byte) (s : State) : Effect (.rawConvert acc) s (rawConvert acc s) := by
  refine effect_withOperands _ _ fun o ho => ?_
  split
  · exact .error _ (by decide)
  · next hlegal =>
    split
    · exact .error _ (by decide)
    · exact effect_renderFrom _ _ _ _ _ _ _ rfl (operandsConvert_dataLen ho) (by omega)

theorem effect_stLoad (ns : BitVec 4) (s : State) : Effect (.stLoad ns) s (stLoad ns s) := by
  refine effect_withOperands _ _ fun o _ => ?_
  split
  · exact .error _ (by decide)
  · dsimp only
    split
    · exact .readFailed _ (.inr rfl)
    · exact .loaded _ _ rfl

theorem effect_stStore (ns : BitVec 4) (s : State) : Effect (.stStore ns) s (stStore ns s) := by
  refine effect_withOperands _ _ fun o _ => ?_
  split
  · exact .error _ (by decide)
  · split
    · exact .error _ (by decide)
    · exact .stored _ _ _ rfl

/-- The operands of a FMT that reads A0, A1 and A2: the last is the data length. -/
theorem effect_operands012 {i : Instr} {s : State} (k : Word × Word × Word → State)
    (h : ∀ o, s.a2 = some o.2.2 → Effect i s (k o)) : Effect i s (withOperands s.operands012 s k) :=
  effect_withOperands _ _ fun o ho => h o ((operands012_eq_some s o).1 ho).2.2

/-- Every operation answers a next state, and that is one of the listed ends (30_encoding.md R93). -/
theorem exec_effect (i : Instr) (s : State) : ∃ t, exec i s = .next t ∧ Effect i s t := by
  cases i with
  | fmtOtax _ | fmtDio _ | fmtHomeeasy _ | fmtSumtech _ | fmtAuchan _ | fmtAuchan2 _ =>
    exact ⟨_, rfl, effect_operands012 _ fun o h => effect_fmtFixed _ _ _ _ rfl h (by simp [frameBits])⟩
  | fmtIdk _ =>
    exact ⟨_, rfl, effect_withOperands _ _ fun o ho =>
      effect_fmtFixed _ _ _ _ rfl ((operands12_eq_some s o).1 ho).2 (by simp [frameBits])⟩
  | fmtSomfy _ | fmtBlyss _ =>
    exact ⟨_, rfl, effect_operands012 _ fun o h => effect_fmtRolling _ _ _ _ _ rfl h⟩
  | descRead sel => exact ⟨_, rfl, effect_descRead sel s⟩
  | bwLow b | bwHigh b | bwEdge b _ =>
    exact ⟨_, rfl, effect_withOperands _ _ fun o _ => effect_bwWrite b _ _ _ rfl (by simp)⟩
  | bwBits b oo zo => exact ⟨_, rfl, effect_bwBits b oo zo s⟩
  | rawBasetime acc => exact ⟨_, rfl, effect_rawBasetime acc s⟩
  | rawRender => exact ⟨_, rfl, effect_rawRender s⟩
  | rawConvert acc => exact ⟨_, rfl, effect_rawConvert acc s⟩
  | stLoad ns => exact ⟨_, rfl, effect_stLoad ns s⟩
  | stStore ns => exact ⟨_, rfl, effect_stStore ns s⟩

/-- The inversion of an operation's step: it ended in one of the listed ways. -/
theorem effect_of_exec {i : Instr} {s t : State} (h : exec i s = .next t) : Effect i s t := by
  obtain ⟨t', ht', heffect⟩ := exec_effect i s
  cases ht'.symm.trans h
  exact heffect

/-! ### What operations leave unchanged, and how far BITCNT reaches -/

/-- The second half of a stateful FMT ends between operations (20_memory.md R76). -/
@[simp] theorem fmtFinish_pending (j : FmtJob) (s : State) : (fmtFinish j s).pending = none := by
  obtain ⟨-, hend⟩ | ⟨-, hend⟩ := fmtFinish_cases j s <;> rw [hend] <;> rfl

/-- Settles O24: each way to end names its unit, and the laws of the state updates say what it leaves. -/
theorem operationsWriteOnlyTheirResults : Obligations.OperationsWriteOnlyTheirResults := by
  intro i s t hexec
  cases effect_of_exec hexec with
  | fault r => simp
  | error c hc => simp
  | frame p cmd dl f hu hdl hchecks hlen => simp [hu]
  | readFailed key hu => obtain hu | hu := hu <;> simp [hu]
  | split j dl hu hchecks hshared => simp [hu]
  | rolled j dl hu hdl hchecks =>
    obtain ⟨-, hend⟩ | ⟨-, hend⟩ := fmtFinish_cases j (s.afterStoreRead j.key) <;> simp [hend, hu]
  | descriptor r0 r1 r2 timing hu => simp [withDescriptor, hu]
  | run b off f n hu hfits => simp [hu]
  | quantum acc q hi => simp [hi, unitOf]
  | rendered f dl base fcount r0 hu hdl hcap hfits => simp [hu]
  | loaded key v hu => simp [hu]
  | stored c key v hu => simp [hu]

/-- BITCNT never holds more than the length written to it. -/
theorem toNat_ofNat_le (n : Nat) : (BitVec.ofNat 16 n).toNat ≤ n := by
  rw [BitVec.toNat_ofNat]
  exact Nat.mod_le n (2 ^ 16)

/-- A FMT whose checks passed has a frame that fits its data length, and that fits the buffer
(41_codec_common.md R130, R131). -/
theorem fits_of_fmtRefusal_eq_none {c : Config} {p : Protocol} {cmd : Command} {dl : Word}
    (h : fmtRefusal c p cmd dl = none) : frameBits c p ≤ 8 * dl.toNat ∧ 8 * dl.toNat ≤ 8 * c.bufBytes := by
  obtain ⟨hcap, hfits, -⟩ := (fmtRefusal_eq_none c p cmd dl).1 h
  exact ⟨hfits, by omega⟩

/-- Settles O58: what ends OK with a new BITCNT is a frame that passed its checks, or a rendering that fits. -/
theorem bitCountFitsTheDataLength : Obligations.BitCountFitsTheDataLength := by
  intro i s t dl hi hdl hexec hfault hpending hstatus
  have hunit : unitOf i = .format ∨ unitOf i = .raw := by
    obtain hformat | rfl | ⟨acc, rfl⟩ := hi
    exacts [.inl hformat, .inr rfl, .inr rfl]
  cases effect_of_exec hexec with
  | fault r => cases hfault
  | error c hc => exact absurd hstatus hc
  | readFailed key hu => cases hstatus
  | split j dl' hu hchecks hshared => cases hpending
  | frame p cmd dl' f hu hdl' hchecks hlen =>
    cases hdl.symm.trans hdl'
    obtain ⟨hfits, hcap⟩ := fits_of_fmtRefusal_eq_none hchecks
    exact ⟨(toNat_ofNat_le _).trans hfits, hcap⟩
  | rolled j dl' hu hdl' hchecks =>
    cases hdl.symm.trans hdl'
    obtain ⟨hfits, hcap⟩ := fits_of_fmtRefusal_eq_none hchecks
    obtain ⟨-, hend⟩ | ⟨-, hend⟩ := fmtFinish_cases j (s.afterStoreRead j.key)
    · refine ⟨?_, hcap⟩
      simpa [hend] using (toNat_ofNat_le _).trans hfits
    · simp [hend] at hstatus
  | rendered f dl' base fcount r0 hu hdl' hcap hfits =>
    cases hdl.symm.trans hdl'
    exact ⟨(toNat_ofNat_le _).trans hfits, by omega⟩
  | quantum acc q hbasetime => simp [hbasetime, unitOf] at hi
  | descriptor r0 r1 r2 timing hu => simp [hu] at hunit
  | run b off f n hu hfits => simp [hu] at hunit
  | loaded key v hu => simp [hu] at hunit
  | stored c key v hu => simp [hu] at hunit

/-! ### Canonical forms -/

/-- A strictly rising list is fixed by its members. -/
theorem eq_of_rising {α : Type} (rank : α → Nat) {l l' : List α}
    (h : l.Pairwise fun a b => rank a < rank b) (h' : l'.Pairwise fun a b => rank a < rank b)
    (hmem : ∀ a, a ∈ l ↔ a ∈ l') : l = l' :=
  List.Pairwise.eq_of_mem_iff (r := InvImage (· < ·) rank) h h' hmem

/-- In canonical form a bit reads as the value it is listed with. -/
theorem read_eq_some_iff_mem {m : Memory} (h : m.Pairwise fun a b => a.1 < b.1) (c : Nat × Bool) :
    Memory.read m c.1 = some c.2 ↔ c ∈ m := by
  induction m with
  | nil => simp [Memory.read]
  | cons a m ih =>
    obtain ⟨hrising, hm⟩ := List.pairwise_cons.1 h
    by_cases hk : a.1 = c.1
    · have hnot : c ∉ m := fun hc => absurd (hrising c hc) (by omega)
      simp [Memory.read, hk, hnot, Prod.ext_iff, eq_comm]
    · have hne : c ≠ a := fun e => hk (e ▸ rfl)
      simp [Memory.read, hk, hne, ih hm]

/-- In canonical form a key's record is the one it is listed with. -/
theorem find_eq_some_iff_mem {m : ReplayStore} (h : m.Pairwise fun a b => a.1.rank < b.1.rank)
    (c : StoreKey × Half) : ReplayStore.find m c.1 = some c.2 ↔ c ∈ m := by
  induction m with
  | nil => simp [ReplayStore.find]
  | cons a m ih =>
    obtain ⟨hrising, hm⟩ := List.pairwise_cons.1 h
    by_cases hk : a.1 = c.1
    · have hnot : c ∉ m := fun hc => absurd (hrising c hc) (by simp [hk])
      simp [ReplayStore.find, hk, hnot, Prod.ext_iff, eq_comm]
    · have hne : c ≠ a := fun e => hk (e ▸ rfl)
      simp [ReplayStore.find, hk, hne, ih hm]

/-- Settles O60: equal reads list the same entries, and a strictly rising list is fixed by its entries. -/
theorem equalReadsMeanEqualData : Obligations.EqualReadsMeanEqualData := by
  refine ⟨fun bytes m m' h h' hread => ?_, fun m m' h h' hfind => ?_⟩
  · obtain ⟨hm, -⟩ := (wf_iff bytes m).1 h
    obtain ⟨hm', -⟩ := (wf_iff bytes m').1 h'
    refine eq_of_rising Prod.fst hm hm' fun c => ?_
    rw [← read_eq_some_iff_mem hm, ← read_eq_some_iff_mem hm', hread]
  · have hm := (store_wf_iff m).1 h
    have hm' := (store_wf_iff m').1 h'
    refine eq_of_rising (fun c => c.1.rank) hm hm' fun c => ?_
    rw [← find_eq_some_iff_mem hm, ← find_eq_some_iff_mem hm', hfind]

/-! ### The register map -/

/-- The model's lookup finds every register of the map's table (10_state.md R40). -/
theorem regAt_registerMap : ∀ p ∈ registerMap, regAt p.1 = some p.2 := by decide

/-- The model's lookup finds nothing beyond the map's table (10_state.md R40). -/
theorem mem_registerMap_of_regAt {offset : Nat} {r : HostReg} (h : regAt offset = some r) :
    (offset, r) ∈ registerMap := by
  unfold regAt at h
  split at h <;> cases h <;> decide

/-- The registers stand at multiples of 4, before the buffers (10_state.md R40). -/
theorem registerMap_offset : ∀ p ∈ registerMap, p.1 % 4 = 0 ∧ p.1 < 0x2000 := by decide

/-- The buffer byte at an offset is one of the buffer's, and stands there (10_state.md R40). -/
theorem bufferAt_eq_some {bytes offset j : Nat} {b : BufSel} (h : bufferAt bytes offset = some (b, j)) :
    j < bytes ∧ offset = bufferOffset b + j := by
  unfold bufferAt at h
  split_ifs at h <;> cases h <;> simp only [bufferOffset] <;> omega

theorem bufferAt_bufferOffset {bytes : Nat} (hbytes : bytes ≤ 8192) (b : BufSel) {j : Nat} (hj : j < bytes) :
    bufferAt bytes (bufferOffset b + j) = some (b, j) := by
  cases b
  · simp [bufferAt, bufferOffset, hj]
  · simp [bufferAt, bufferOffset, hj]; omega

theorem bufferAt_eq_none {bytes offset : Nat} (h : ∀ b j, j < bytes → offset ≠ bufferOffset b + j) :
    bufferAt bytes offset = none := by
  cases hb : bufferAt bytes offset with
  | none => rfl
  | some byte =>
    obtain ⟨hj, hoffset⟩ := bufferAt_eq_some hb
    exact absurd hoffset (h byte.1 byte.2 hj)

/-- A 32-bit access at a register's offset reaches the register (20_memory.md R65). -/
theorem hostTarget_register {bytes : Nat} {p : Nat × HostReg} (hp : p ∈ registerMap) :
    hostTarget bytes .word p.1 = some (.register p.2) := by
  obtain ⟨haligned, hbefore⟩ := registerMap_offset p hp
  have hbuffer : bufferAt bytes p.1 = none :=
    bufferAt_eq_none fun b j _ => by cases b <;> simp only [bufferOffset] <;> omega
  simp [hostTarget, haligned, hbuffer, regAt_registerMap p hp]

/-- A byte access at a buffer byte's offset reaches that byte (20_memory.md R65). -/
theorem hostTarget_bufferByte {bytes : Nat} (hbytes : bytes ≤ 8192) (b : BufSel) {j : Nat} (hj : j < bytes) :
    hostTarget bytes .byte (bufferOffset b + j) = some (.bufferByte b j) := by
  simp [hostTarget, bufferAt_bufferOffset hbytes b hj]

/-- An aligned 32-bit access anywhere else is at a reserved offset (10_state.md R40; log 10). -/
theorem hostTarget_reserved {bytes offset : Nat} (haligned : offset % 4 = 0)
    (hregister : ∀ p ∈ registerMap, offset ≠ p.1)
    (hbuffer : ∀ b j, j < bytes → offset ≠ bufferOffset b + j) :
    hostTarget bytes .word offset = some .reservedOffset := by
  have hnone : regAt offset = none :=
    Option.eq_none_iff_forall_ne_some.2 fun r hr => hregister _ (mem_registerMap_of_regAt hr) rfl
  simp [hostTarget, haligned, bufferAt_eq_none hbuffer, hnone]

/-! ### A host access as a step -/

theorem step_write {s : State} {w : AccessWidth} {offset : Nat} {v : Word} {rest : List Input} {target : Target}
    (hwf : s.cfg.wf = true) (hpending : s.pending = none) (hinbox : s.inbox = .write w offset v :: rest)
    (htarget : hostTarget s.cfg.bufBytes w offset = some target) :
    step s = hostWrite target v { s with inbox := rest } := by
  simp [step_input s _ rest hwf hpending hinbox, act, htarget]

theorem step_read {s : State} {w : AccessWidth} {offset : Nat} {rest : List Input} {target : Target}
    (hwf : s.cfg.wf = true) (hpending : s.pending = none) (hinbox : s.inbox = .read w offset :: rest)
    (htarget : hostTarget s.cfg.bufBytes w offset = some target) :
    step s = .next (hostRead target { s with inbox := rest }) := by
  simp [step_input s _ rest hwf hpending hinbox, act, htarget]

/-- Settles O16: such an offset is a reserved one of the map. -/
theorem reservedOffsetsReadZero : Obligations.ReservedOffsetsReadZero := by
  intro s offset v rest hwf hpending haligned hregister hbuffer
  have htarget := hostTarget_reserved haligned hregister hbuffer
  exact ⟨fun hinbox => step_write hwf hpending hinbox htarget,
    fun hinbox => step_read hwf hpending hinbox htarget⟩

/-- Bit `i` of a byte, bit 7 first (20_memory.md R61). -/
theorem byteBits_getElem? (b : Byte) {i : Nat} (hi : i < 8) : (byteBits b)[i]? = some (b.getLsbD (7 - i)) :=
  seqBits_getElem? 8 b.toNat i hi

/-- Settles O18: the write is a run of the byte's eight bits. -/
theorem hostByteWriteSetsEightBits : Obligations.HostByteWriteSetsEightBits := by
  intro s b j v rest hwf hpending hj hinbox
  obtain ⟨-, hbytes, -⟩ := (cfg_wf_iff s.cfg).1 hwf
  have hstep := step_write hwf hpending hinbox (hostTarget_bufferByte hbytes b hj)
  refine ⟨_, hstep, ?_, fun i hi => ?_, fun k hk => ?_⟩
  · cases b <;> rfl
  · rw [withBuffer_buffer, Memory.writeByte, read_write_self _ _ _ _ (by simpa using hi),
      byteBits_getElem? _ hi]
    simp [show 7 - i < 8 by omega]
  · rw [withBuffer_buffer, Memory.writeByte, read_write_other _ _ _ _ (by simpa using hk)]
    cases b <;> rfl

/-- A value that decodes to an operation has 16 bits (10_state.md R25). -/
theorem lt_of_decode_eq_instr {v : Word} {i : Instr} (h : decode v = .instr i) : v.toNat < 2 ^ 16 := by
  unfold decode at h
  split at h
  · next hupper =>
    have hzero : v.toNat >>> 16 % 2 ^ 16 = 0 := by
      simpa [BitVec.toNat_eq] using hupper
    omega
  · cases h

/-- Settles O7: the input reaches OPW, and a ready block runs what the word decodes to. -/
theorem opwWriteRunsTheDecodedOperation : Obligations.OpwWriteRunsTheDecodedOperation := by
  intro s v rest i hready hinbox hdecode
  obtain ⟨⟨hwf, hfault⟩, hpending⟩ :
      (s.cfg.wf = true ∧ s.fault = none) ∧ s.pending = none := by
    simpa [State.ready] using hready
  refine ⟨lt_of_decode_eq_instr hdecode, ?_⟩
  calc step s
      = act (issueWord v) { s with inbox := rest } := step_input s _ rest hwf hpending hinbox
    _ = startOperation v { s with inbox := rest } := act_issueWord _ v hwf
    _ = exec i { s with inbox := rest, opw := v.setWidth 16 } := by
      simp [startOperation, State.faulted, hfault, hdecode]

/-! ### What a host's register write does to every field -/

@[simp] theorem writeReg_a0 (r : HostReg) (v : Word) (s : State) :
    (writeReg r v s).a0 = if r = .a0 then some v else s.a0 := by
  cases r <;> rfl

@[simp] theorem writeReg_a1 (r : HostReg) (v : Word) (s : State) :
    (writeReg r v s).a1 = if r = .a1 then some v else s.a1 := by
  cases r <;> rfl

@[simp] theorem writeReg_a2 (r : HostReg) (v : Word) (s : State) :
    (writeReg r v s).a2 = if r = .a2 then some v else s.a2 := by
  cases r <;> rfl

@[simp] theorem writeReg_a3 (r : HostReg) (v : Word) (s : State) :
    (writeReg r v s).a3 = if r = .a3 then some v else s.a3 := by
  cases r <;> rfl

@[simp] theorem writeReg_a4 (r : HostReg) (v : Word) (s : State) :
    (writeReg r v s).a4 = if r = .a4 then some v else s.a4 := by
  cases r <;> rfl

@[simp] theorem writeReg_a5 (r : HostReg) (v : Word) (s : State) :
    (writeReg r v s).a5 = if r = .a5 then some v else s.a5 := by
  cases r <;> rfl

@[simp] theorem writeReg_a6 (r : HostReg) (v : Word) (s : State) :
    (writeReg r v s).a6 = if r = .a6 then some v else s.a6 := by
  cases r <;> rfl

@[simp] theorem writeReg_opw_field (r : HostReg) (v : Word) (s : State) :
    (writeReg r v s).opw = if r = .opw then v.setWidth 16 else s.opw := by
  cases r <;> rfl

@[simp] theorem writeReg_tcfg_fmt (r : HostReg) (v : Word) (s : State) :
    (writeReg r v s).tcfg.fmt = if r = .tcfgFmt then some (v.setWidth 2) else s.tcfg.fmt := by
  cases r <;> rfl

@[simp] theorem writeReg_tcfg_start (r : HostReg) (v : Word) (s : State) :
    (writeReg r v s).tcfg.start = if r = .tcfgStart then some v else s.tcfg.start := by
  cases r <;> rfl

@[simp] theorem writeReg_tcfg_stop (r : HostReg) (v : Word) (s : State) :
    (writeReg r v s).tcfg.stop = if r = .tcfgEnd then some v else s.tcfg.stop := by
  cases r <;> rfl

@[simp] theorem writeReg_tcfg_bit0 (r : HostReg) (v : Word) (s : State) :
    (writeReg r v s).tcfg.bit0 = if r = .tcfgBit0 then some v else s.tcfg.bit0 := by
  cases r <;> rfl

@[simp] theorem writeReg_tcfg_bit1 (r : HostReg) (v : Word) (s : State) :
    (writeReg r v s).tcfg.bit1 = if r = .tcfgBit1 then some v else s.tcfg.bit1 := by
  cases r <;> rfl

@[simp] theorem writeReg_tcfg_base (r : HostReg) (v : Word) (s : State) :
    (writeReg r v s).tcfg.base = if r = .tcfgBase then some (v.setWidth 16) else s.tcfg.base := by
  cases r <;> rfl

@[simp] theorem writeReg_tcfg_fcount (r : HostReg) (v : Word) (s : State) :
    (writeReg r v s).tcfg.fcount = if r = .tcfgFcount then some (v.setWidth 16) else s.tcfg.fcount := by
  cases r <;> rfl

@[simp] theorem writeReg_status (r : HostReg) (v : Word) (s : State) :
    (writeReg r v s).status = s.status := by
  cases r <;> rfl

@[simp] theorem writeReg_fault (r : HostReg) (v : Word) (s : State) :
    (writeReg r v s).fault = s.fault := by
  cases r <;> rfl

@[simp] theorem writeReg_bitcnt (r : HostReg) (v : Word) (s : State) :
    (writeReg r v s).bitcnt = s.bitcnt := by
  cases r <;> rfl

@[simp] theorem writeReg_res0 (r : HostReg) (v : Word) (s : State) :
    (writeReg r v s).res0 = s.res0 := by
  cases r <;> rfl

@[simp] theorem writeReg_res1 (r : HostReg) (v : Word) (s : State) :
    (writeReg r v s).res1 = s.res1 := by
  cases r <;> rfl

@[simp] theorem writeReg_res2 (r : HostReg) (v : Word) (s : State) :
    (writeReg r v s).res2 = s.res2 := by
  cases r <;> rfl

@[simp] theorem writeReg_rtcfg (r : HostReg) (v : Word) (s : State) :
    (writeReg r v s).rtcfg = s.rtcfg := by
  cases r <;> rfl

@[simp] theorem writeReg_buf0 (r : HostReg) (v : Word) (s : State) :
    (writeReg r v s).buf0 = s.buf0 := by
  cases r <;> rfl

@[simp] theorem writeReg_buf1 (r : HostReg) (v : Word) (s : State) :
    (writeReg r v s).buf1 = s.buf1 := by
  cases r <;> rfl

@[simp] theorem writeReg_store (r : HostReg) (v : Word) (s : State) :
    (writeReg r v s).store = s.store := by
  cases r <;> rfl

@[simp] theorem writeReg_cfg (r : HostReg) (v : Word) (s : State) :
    (writeReg r v s).cfg = s.cfg := by
  cases r <;> rfl

@[simp] theorem writeReg_pending (r : HostReg) (v : Word) (s : State) :
    (writeReg r v s).pending = s.pending := by
  cases r <;> rfl

@[simp] theorem writeReg_inbox (r : HostReg) (v : Word) (s : State) :
    (writeReg r v s).inbox = s.inbox := by
  cases r <;> rfl

@[simp] theorem writeReg_answers (r : HostReg) (v : Word) (s : State) :
    (writeReg r v s).answers = s.answers := by
  cases r <;> rfl

@[simp] theorem writeReg_draws (r : HostReg) (v : Word) (s : State) :
    (writeReg r v s).draws = s.draws := by
  cases r <;> rfl

@[simp] theorem writeReg_hostData (r : HostReg) (v : Word) (s : State) :
    (writeReg r v s).hostData = s.hostData := by
  cases r <;> rfl

/-! ### What a register reads as after a write -/

/-- What a register reads as is decided by the fields of the block, not by those of the host (20_memory.md R68). -/
theorem regWord_hostFields (s : State) (inbox : List Input) (d : Option Word) (n : Nat) (free : Word)
    (r : HostReg) :
    ({ s with inbox := inbox, hostData := d, draws := n } : State).regWord free r = s.regWord free r := by
  cases r <;> rfl

/-- Every register reads as the map says (10_state.md R24 to R32, 60_exceptions.md R241, R246). -/
theorem readsAs_regWord (s : State) (free : Word) (r : HostReg) : ReadsAs s (s.regWord free r) r := by
  cases r with
  | status => cases h : s.status <;> simp [ReadsAs, State.regWord, State.statusWord, Status.code, h]
  | fault =>
    cases h : s.fault with
    | none => simp [ReadsAs, State.regWord, State.faultWord, h]
    | some reason => cases reason <;> simp [ReadsAs, State.regWord, State.faultWord, FaultReason.code, h]
  | opw => simp [ReadsAs, State.regWord, State.opwWord]; omega
  | bitcnt => simp [ReadsAs, State.regWord, State.bitcntWord]; omega
  | res0 | res1 | res2 | id => rfl
  | a0 | a1 | a2 | a3 | a4 | a5 | a6 | tcfgStart | tcfgEnd | tcfgBit0 | tcfgBit1 | rtcfgStart | rtcfgEnd
  | rtcfgBit0 | rtcfgBit1 =>
    intro v hv
    simp [State.regWord, hv]
  | tcfgFmt | tcfgBase | tcfgFcount | rtcfgFmt | rtcfgBase | rtcfgFcount =>
    intro v hv
    simp [State.regWord, hv]
    omega

/-- A write to one register changes what no other register reads as (10_state.md R40). -/
theorem regWord_writeReg_other {r q : HostReg} (h : q ≠ r) (v free : Word) (s : State) :
    (writeReg r v s).regWord free q = s.regWord free q := by
  cases q <;> simp [State.regWord, State.opwWord, State.statusWord, State.faultWord, State.bitcntWord, h.symm]

/-- Narrowing a word and widening it again keeps its low bits. -/
theorem setWidth_setWidth_eq_and (v : Word) {n : Nat} (h : n ≤ 32) :
    (v.setWidth n).setWidth 32 = v &&& BitVec.ofNat 32 (2 ^ n - 1) := by
  have hpow : 2 ^ n ≤ 2 ^ 32 := Nat.pow_le_pow_right (by decide) h
  have hpos : 0 < 2 ^ n := Nat.two_pow_pos n
  have hlow : v.toNat % 2 ^ n < 2 ^ 32 := (Nat.mod_lt _ hpos).trans_le hpow
  apply BitVec.eq_of_toNat_eq
  rw [BitVec.toNat_setWidth, BitVec.toNat_setWidth, BitVec.toNat_and, BitVec.toNat_ofNat,
    Nat.mod_eq_of_lt hlow, Nat.mod_eq_of_lt (by omega : 2 ^ n - 1 < 2 ^ 32), Nat.and_two_pow_sub_one_eq_mod]

/-- A writable register reads back as what was written, in the bits it holds (10_state.md R30, R40). -/
theorem regWord_writeReg_self {r : HostReg} (h : writableMask r ≠ 0) (v free : Word) (s : State) :
    (writeReg r v s).regWord free r = v &&& writableMask r := by
  cases r with
  | a0 | a1 | a2 | a3 | a4 | a5 | a6 | tcfgStart | tcfgEnd | tcfgBit0 | tcfgBit1 =>
    simpa [State.regWord, writableMask] using setWidth_setWidth_eq_and v (n := 32) (by decide)
  | tcfgFmt => simpa [State.regWord, writableMask] using setWidth_setWidth_eq_and v (n := 2) (by decide)
  | tcfgBase | tcfgFcount =>
    simpa [State.regWord, writableMask] using setWidth_setWidth_eq_and v (n := 16) (by decide)
  | opw | status | fault | bitcnt | res0 | res1 | res2 | id | rtcfgFmt | rtcfgStart | rtcfgEnd | rtcfgBit0 | rtcfgBit1
  | rtcfgBase | rtcfgFcount => exact absurd rfl h

/-- A write to a read-only register is ignored (10_state.md R24, R40). -/
theorem writeReg_readOnly {r : HostReg} (hopw : r ≠ .opw) (h : writableMask r = 0) (v : Word) (s : State) :
    writeReg r v s = s := by
  cases r with
  | opw => exact absurd rfl hopw
  | a0 | a1 | a2 | a3 | a4 | a5 | a6 | tcfgFmt | tcfgStart | tcfgEnd | tcfgBit0 | tcfgBit1 | tcfgBase
  | tcfgFcount => exact absurd h (by decide)
  | status | fault | bitcnt | res0 | res1 | res2 | id | rtcfgFmt | rtcfgStart | rtcfgEnd | rtcfgBit0 | rtcfgBit1
  | rtcfgBase | rtcfgFcount => rfl

/-- The inputs not yet served do not matter to a write. -/
theorem writeReg_setInbox (r : HostReg) (v : Word) (s : State) (inbox : List Input) :
    writeReg r v { s with inbox := inbox } = { writeReg r v s with inbox := inbox } := by
  cases r <;> rfl

/-! ### Two accesses in a row -/

theorem run_two {s u t : State} (h : step s = .next u) (h' : step u = .next t) :
    Host.Core.run Sys2Proof.core 2 s = .next t := by
  simp only [Host.Core.run, Sys2Proof.core, h, h']

theorem step_read_register {s : State} {p : Nat × HostReg} {rest : List Input} (hwf : s.cfg.wf = true)
    (hpending : s.pending = none) (hp : p ∈ registerMap) (hinbox : s.inbox = .read .word p.1 :: rest) :
    step s = .next { s with
      inbox := rest
      hostData := some (s.regWord (Config.freeWord s.draws) p.2)
      draws := s.draws + 1 } := by
  have hvalue := regWord_hostFields s rest s.hostData s.draws (Config.freeWord s.draws) p.2
  rw [step_read hwf hpending hinbox (hostTarget_register hp), ← hvalue]
  rfl

/-- The state after the host wrote a register other than OPW and read it back. -/
theorem run_write_read {s : State} {p : Nat × HostReg} {v : Word} {rest : List Input} (hwf : s.cfg.wf = true)
    (hpending : s.pending = none) (hp : p ∈ registerMap) (hopw : p.2 ≠ .opw)
    (hinbox : s.inbox = .write .word p.1 v :: .read .word p.1 :: rest) :
    Host.Core.run Sys2Proof.core 2 s = .next { writeReg p.2 v s with
      inbox := rest
      hostData := some ((writeReg p.2 v s).regWord (Config.freeWord s.draws) p.2)
      draws := s.draws + 1 } := by
  have hwrite : step s = .next { writeReg p.2 v s with inbox := .read .word p.1 :: rest } := by
    rw [step_write hwf hpending hinbox (hostTarget_register hp), hostWrite, if_neg hopw, writeReg_setInbox]
  have hread := step_read_register (s := { writeReg p.2 v s with inbox := .read .word p.1 :: rest })
    (by simpa using hwf) (by simpa using hpending) hp rfl
  have hvalue := regWord_hostFields (writeReg p.2 v s) (.read .word p.1 :: rest) (writeReg p.2 v s).hostData
    (writeReg p.2 v s).draws (Config.freeWord s.draws) p.2
  exact run_two hwrite (hread.trans (by simp [← hvalue]))

/-- On a medium that is not shared an operation ends between operations (20_memory.md R74). -/
theorem pending_of_exec {i : Instr} {s t : State} (hpending : s.pending = none)
    (hshared : s.cfg.storeShared = false) (hexec : exec i s = .next t) : t.pending = none := by
  cases effect_of_exec hexec with
  | split j dl hu hchecks hshared' => simp [hshared] at hshared'
  | rolled j dl hu hdl hchecks => exact fmtFinish_pending j _
  | descriptor r0 r1 r2 timing hu => exact hpending
  | fault _ | error _ _ | frame _ _ _ _ _ _ _ _ | readFailed _ _ | run _ _ _ _ _ _ | quantum _ _ _
  | rendered _ _ _ _ _ _ _ _ _ | loaded _ _ _ | stored _ _ _ _ => simpa using hpending

/-- A write to OPW is always served: OPW holds the word, and on a medium that is not shared the block takes its
next input (10_state.md R25). -/
theorem startOperation_next (v : Word) {s : State} (hpending : s.pending = none)
    (hshared : s.cfg.storeShared = false) :
    ∃ t, startOperation v s = .next t ∧ t.opw = v.setWidth 16 ∧ t.cfg = s.cfg ∧ t.inbox = s.inbox
      ∧ t.pending = none := by
  obtain ⟨-, hend⟩ | ⟨-, -, -, hend⟩ | ⟨-, i, -, hend⟩ := startOperation_cases v s
  · exact ⟨_, hend, rfl, rfl, rfl, hpending⟩
  · exact ⟨_, hend, rfl, rfl, rfl, hpending⟩
  · obtain ⟨t, hexec, -⟩ := exec_effect i { s with opw := v.setWidth 16 }
    obtain ⟨⟨-, -, -, -, -, -, -, hopw, hcfg, hinbox, -⟩, -⟩ := operationsWriteOnlyTheirResults i _ t hexec
    have hpending' := pending_of_exec (s := { s with opw := v.setWidth 16 }) hpending hshared hexec
    exact ⟨t, hend.trans hexec, hopw, hcfg, hinbox, hpending'⟩

/-- The state after the host wrote OPW, whatever that started, and read it back. -/
theorem run_write_read_opw {s : State} {v : Word} {rest : List Input} (hwf : s.cfg.wf = true)
    (hpending : s.pending = none) (hshared : s.cfg.storeShared = false) (hv : v.toNat < 2 ^ 16)
    (hinbox : s.inbox = .write .word 0x00 v :: .read .word 0x00 :: rest) :
    ∃ t, Host.Core.run Sys2Proof.core 2 s = .next t ∧ t.hostData = some v := by
  have hopwAt : ((0x00, .opw) : Nat × HostReg) ∈ registerMap := by decide
  obtain ⟨u, hstart, hopw, hcfg, hrest, hpending'⟩ :=
    startOperation_next v (s := { s with inbox := .read .word 0x00 :: rest }) hpending hshared
  have hwrite : step s = .next u :=
    (step_write hwf hpending hinbox (hostTarget_register hopwAt)).trans hstart
  have hread := step_read_register (s := u) (by rw [hcfg]; exact hwf) hpending' hopwAt hrest
  have hvalue : u.opwWord = v := by
    simpa only [State.opwWord, hopw] using opwWord_of_write v s hv
  exact ⟨_, run_two hwrite hread, congrArg some hvalue⟩

/-- Settles O15: a read returns `regWord`; a write then a read is `run_write_read`, for OPW
`run_write_read_opw`. -/
theorem hostRegisterWriteThenRead : Obligations.HostRegisterWriteThenRead := by
  refine ⟨fun s p rest hwf hpending hp hinbox => ?_, fun s p v rest hwf hpending hp hopw hinbox => ?_,
    fun s v rest hwf hpending hshared hv hinbox => run_write_read_opw hwf hpending hshared hv hinbox⟩
  · exact ⟨_, step_read_register hwf hpending hp hinbox, readsAs_regWord s _ p.2⟩
  · refine ⟨_, _, run_write_read hwf hpending hp hopw hinbox, rfl, fun hmask => ?_, fun hmask => ?_,
      fun free q hq => ?_, ?_, ?_, ?_⟩
    · exact regWord_writeReg_self hmask v _ s
    · rw [writeReg_readOnly hopw hmask]
      exact ⟨readsAs_regWord s _ p.2, rfl⟩
    · rw [regWord_hostFields, regWord_writeReg_other hq]
    all_goals simp

/-! ### The invariant

One lemma per state update; the invariant reads only the parameters, the buffers, the store, BITCNT, RTCFG, FAULT
and a split FMT. -/

theorem inv_complete {s : State} (c : Status) (h : s.Inv) : (complete c s).Inv := { h with }

/-- A fault strikes only between operations (60_exceptions.md R246). -/
theorem inv_raiseFault {s : State} (r : FaultReason) (h : s.Inv) (hpending : s.pending = none) :
    (raiseFault r s).Inv :=
  { h with pending := fun j hj => by simp [hpending] at hj }

theorem inv_res0 {s : State} (v : Word) (h : s.Inv) : ({ s with res0 := v } : State).Inv := { h with }

theorem inv_withDescriptor {s : State} (r0 r1 r2 : Word) (timing : TimingRegs) (h : s.Inv) :
    (withDescriptor s r0 r1 r2 timing).Inv := { h with }

theorem inv_store {s : State} (m : ReplayStore) (h : s.Inv) (hm : ReplayStore.wf m = true) :
    ({ s with store := m } : State).Inv :=
  { h with store := hm }

/-- A FMT between its store accesses stays legal, and the second half ends the waiting. -/
theorem inv_pending {s : State} (o : Option FmtJob) (h : s.Inv) (ho : ∀ j, o = some j → j.legal s) :
    ({ s with pending := o } : State).Inv :=
  { h with pending := ho }

theorem inv_withBuffer {s : State} (b : BufSel) (m : Memory) (h : s.Inv)
    (hm : Memory.wf s.cfg.bufBytes m = true) : (s.withBuffer b m).Inv := by
  cases b
  · exact { h with buf0 := hm }
  · exact { h with buf1 := hm }

theorem inv_buffer {s : State} (b : BufSel) (h : s.Inv) : Memory.wf s.cfg.bufBytes (s.buffer b) = true := by
  cases b
  · exact h.buf0
  · exact h.buf1

theorem inv_takeAnswer {s : State} (h : s.Inv) : s.takeAnswer.Inv := by
  unfold State.takeAnswer
  split <;> exact { h with }

theorem inv_afterStoreRead {s : State} (key : StoreKey) (h : s.Inv) : (s.afterStoreRead key).Inv := by
  unfold State.afterStoreRead
  split
  · exact inv_store _ (inv_takeAnswer h) (touch_wf _ _ h.store)
  · exact inv_takeAnswer h

theorem inv_afterStoreWrite {s : State} (key : StoreKey) (v : Half) (h : s.Inv) :
    (s.afterStoreWrite key v).Inv := by
  unfold State.afterStoreWrite
  split
  · exact inv_store _ (inv_takeAnswer h) (insert_wf _ _ _ h.store)
  · exact inv_takeAnswer h

/-- A frame that fits the buffer keeps BUF0 canonical and BITCNT within the capacity (10_state.md R34). -/
theorem inv_fmtEmit {s : State} (p : Protocol) (f : Frame) (h : s.Inv)
    (hlen : f.length = frameBits s.cfg p) (hfits : frameBits s.cfg p ≤ 8 * s.cfg.bufBytes) :
    (fmtEmit p f s).Inv :=
  { h with
    buf0 := write_wf s.cfg.bufBytes _ _ _ h.buf0 (by omega)
    bitcnt := (toNat_ofNat_le _).trans hfits }

/-- A rendering that fits the buffer keeps BUF1 canonical, BITCNT within the capacity and RTCFG RAW
(10_state.md R31, R34). -/
theorem inv_rendered {s : State} (f : Frame) (base fcount : Half) (r0 : Word) (h : s.Inv)
    (hfits : f.length ≤ 8 * s.cfg.bufBytes) :
    (complete .ok
      { s with
        buf1 := Memory.write s.buf1 0 f
        bitcnt := BitVec.ofNat 16 f.length
        rtcfg := rawTiming base fcount
        res0 := r0 }).Inv :=
  { h with
    buf1 := write_wf s.cfg.bufBytes _ _ _ h.buf1 (by omega)
    bitcnt := (toNat_ofNat_le _).trans hfits
    rtcfg := .inr ⟨base, fcount, rfl⟩ }

theorem inv_fmtFinish {s : State} (j : FmtJob) (h : s.Inv)
    (hfits : frameBits s.cfg j.codec.protocol ≤ 8 * s.cfg.bufBytes) : (fmtFinish j s).Inv := by
  have hwritten : State.Inv { s.afterStoreWrite j.key (rollNext j.codec j.value) with pending := none } :=
    inv_pending none (inv_afterStoreWrite _ _ h) (by simp)
  obtain ⟨-, hend⟩ | ⟨-, hend⟩ := fmtFinish_cases j s
  · rw [hend]
    refine inv_fmtEmit _ _ hwritten ?_ ?_
    · simpa using job_frame_length s.cfg h.cfg j
    · simpa using hfits
  · exact hend ▸ inv_complete _ hwritten

/-- An operation that runs on a block between operations and without a fault keeps the invariant. -/
theorem inv_exec {i : Instr} {s t : State} (h : s.Inv) (hpending : s.pending = none)
    (hfault : s.fault = none) (hexec : exec i s = .next t) : t.Inv := by
  cases effect_of_exec hexec with
  | fault r => exact inv_raiseFault r h hpending
  | error c hc => exact inv_complete c h
  | frame p cmd dl f hu hdl hchecks hlen =>
    obtain ⟨hfits, hcap⟩ := fits_of_fmtRefusal_eq_none hchecks
    exact inv_fmtEmit p f h hlen (hfits.trans hcap)
  | readFailed key hu => exact inv_complete _ (inv_afterStoreRead key h)
  | split j dl hu hchecks hshared =>
    obtain ⟨hfits, hcap⟩ := fits_of_fmtRefusal_eq_none hchecks
    obtain ⟨-, -, haccepted⟩ := (fmtRefusal_eq_none _ _ _ _).1 hchecks
    refine inv_pending _ (inv_afterStoreRead _ h) fun j' hj => ?_
    cases hj
    simpa [FmtJob.legal, hshared, hfault, haccepted] using hfits.trans hcap
  | rolled j dl hu hdl hchecks =>
    obtain ⟨hfits, hcap⟩ := fits_of_fmtRefusal_eq_none hchecks
    exact inv_fmtFinish j (inv_afterStoreRead _ h) (by simpa using hfits.trans hcap)
  | descriptor r0 r1 r2 timing hu => exact inv_withDescriptor r0 r1 r2 timing h
  | run b off f n hu hfits =>
    exact inv_complete _ (inv_res0 n (inv_withBuffer b _ h (write_wf _ _ _ _ (inv_buffer b h) hfits)))
  | quantum acc q hi => exact inv_complete _ (inv_res0 q h)
  | rendered f dl base fcount r0 hu hdl hcap hfits => exact inv_rendered f base fcount r0 h (by omega)
  | loaded key v hu => exact inv_complete _ (inv_res0 v (inv_afterStoreRead key h))
  | stored c key v hu => exact inv_complete _ (inv_afterStoreWrite key v h)

/-- The host's register writes reach OPW, A0 to A6 and TCFG, of which the invariant says nothing
(10_state.md R40). -/
theorem inv_writeReg {s : State} (r : HostReg) (v : Word) (h : s.Inv) : (writeReg r v s).Inv := by
  cases r <;> exact { h with }

theorem inv_resetBlock {s : State} (h : s.Inv) : (resetBlock s).Inv :=
  { cfg := h.cfg, buf0 := wf_nil _, buf1 := wf_nil _, store := h.store, bitcnt := Nat.zero_le _,
    rtcfg := .inl rfl, pending := fun _ hj => nomatch hj }

theorem inv_hostRead {s : State} (t : Target) (h : s.Inv) : (hostRead t s).Inv := { h with }

theorem inv_startOperation {s t : State} (v : Word) (h : s.Inv) (hpending : s.pending = none)
    (hstart : startOperation v s = .next t) : t.Inv := by
  have hstored : ({ s with opw := v.setWidth 16 } : State).Inv := inv_writeReg .opw v h
  obtain ⟨-, hend⟩ | ⟨-, -, -, hend⟩ | ⟨hready, i, -, hend⟩ := startOperation_cases v s
  · cases hend.symm.trans hstart
    exact hstored
  · cases hend.symm.trans hstart
    exact inv_complete _ hstored
  · have hfault : s.fault = none := by simpa [State.faulted] using hready
    exact inv_exec hstored hpending hfault (hend.symm.trans hstart)

theorem inv_hostWrite {s t : State} {w : AccessWidth} {offset : Nat} {target : Target} (v : Word)
    (h : s.Inv) (hpending : s.pending = none) (htarget : hostTarget s.cfg.bufBytes w offset = some target)
    (hwrite : hostWrite target v s = .next t) : t.Inv := by
  obtain ⟨-, b, j, hj, rfl⟩ | ⟨-, -, -, ⟨r, -, rfl⟩ | ⟨-, rfl⟩⟩ := (hostTarget_eq_some _ _ _ _).1 htarget
  · cases hwrite
    exact inv_withBuffer b _ h (writeByte_wf _ _ j _ (inv_buffer b h) (bufferAt_eq_some hj).1)
  · simp only [hostWrite] at hwrite
    split at hwrite
    · exact inv_startOperation v h hpending hwrite
    · cases hwrite
      exact inv_writeReg r v h
  · cases hwrite
    exact h

/-- An input other than another writer's acts only between operations (20_memory.md R76). -/
theorem nextInput_cases {s : State} {i : Input} {rest : List Input} (h : nextInput s = some (i, rest)) :
    s.pending = none ∨ ∃ key v, i = .otherWrite key v := by
  unfold nextInput at h
  split at h
  · cases h
  · split at h
    · next hpending => exact .inl hpending
    · split at h <;> cases h
      exact .inr ⟨_, _, rfl⟩

theorem inv_act {s t : State} {i : Input} (h : s.Inv)
    (hmay : s.pending = none ∨ ∃ key v, i = .otherWrite key v) (hact : act i s = .next t) : t.Inv := by
  cases i with
  | write w offset v =>
    have hpending : s.pending = none := by simpa using hmay
    simp only [act] at hact
    split at hact
    · cases hact
    · next htarget => exact inv_hostWrite v h hpending htarget hact
  | read w offset =>
    simp only [act] at hact
    split at hact
    · cases hact
    · cases hact
      exact inv_hostRead _ h
  | reset => cases hact; exact inv_resetBlock h
  | otherWrite key v =>
    simp only [act] at hact
    split at hact
    · cases hact
      exact inv_store _ h (insert_wf _ _ _ h.store)
    · cases hact
  | eraseMedium => cases hact; exact inv_store [] h rfl
  | idle => cases hact; exact h

/-- Settles O11: by cases on what a step does, an input, the second half of a split FMT, or nothing. -/
theorem stepKeepsInvariant : Obligations.StepKeepsInvariant := by
  intro s t h hstep
  obtain ⟨-, ⟨i, rest, hnext, hact⟩ | ⟨-, j, hj, rfl⟩ | ⟨-, -, rfl⟩⟩ := step_cases s t hstep
  · have hmay := nextInput_cases hnext
    have hserved : ({ s with inbox := rest } : State).Inv := { h with }
    exact inv_act hserved hmay hact
  · obtain ⟨-, -, hfits, -⟩ := h.pending j hj
    exact inv_fmtFinish j h hfits
  · exact h

end Sys2Proof.Proofs
end

section
/-! PROOFS. The statements of the family 20_memory.md: the shapes of host accesses (R65), what a host read returns
and leaves (R61, R68), a store read after a store write (R72), and the split of a stateful FMT on a shared medium
(R74, R76). -/

namespace Sys2Proof.Proofs

open Sys2Proof Sys2Proof.Machine Sys2Proof.Laws

/-! ### The shapes of host accesses -/

@[simp] theorem hostTarget_half (bytes offset : Nat) : hostTarget bytes .half offset = none := rfl

theorem hostTarget_misaligned {bytes offset : Nat} (h : offset % 4 ≠ 0) :
    hostTarget bytes .word offset = none := by
  simp [hostTarget, h]

theorem hostTarget_word_bufferByte {bytes : Nat} (hbytes : bytes ≤ 8192) (b : BufSel) {j : Nat} (hj : j < bytes) :
    hostTarget bytes .word (bufferOffset b + j) = none := by
  simp [hostTarget, bufferAt_bufferOffset hbytes b hj]

theorem hostTarget_byte_elsewhere {bytes offset : Nat} (h : ∀ b j, j < bytes → offset ≠ bufferOffset b + j) :
    hostTarget bytes .byte offset = none := by
  simp [hostTarget, bufferAt_eq_none h]

/-- A host access that reaches nothing is refused (20_memory.md R65). -/
theorem step_access_refused {s : State} {w : AccessWidth} {offset : Nat} {v : Word} {rest : List Input} {i : Input}
    (hwf : s.cfg.wf = true) (hpending : s.pending = none) (hinbox : s.inbox = i :: rest)
    (haccess : i = .write w offset v ∨ i = .read w offset)
    (htarget : hostTarget s.cfg.bufBytes w offset = none) : step s = .refused .accessShape := by
  rw [step_input s i rest hwf hpending hinbox]
  obtain rfl | rfl := haccess <;> simp [act, htarget]

/-- A write to OPW answers a next state, whatever it starts (10_state.md R25). -/
theorem startOperation_answers (v : Word) (s : State) : ∃ t, startOperation v s = .next t := by
  obtain ⟨-, hend⟩ | ⟨-, -, -, hend⟩ | ⟨-, i, -, hend⟩ := startOperation_cases v s
  · exact ⟨_, hend⟩
  · exact ⟨_, hend⟩
  · obtain ⟨t, hexec, -⟩ := exec_effect i { s with opw := v.setWidth 16 }
    exact ⟨t, hend.trans hexec⟩

/-- A host write that reaches something answers a next state (10_state.md R40). -/
theorem hostWrite_answers (target : Target) (v : Word) (s : State) : ∃ t, hostWrite target v s = .next t := by
  cases target with
  | register r =>
    by_cases hopw : r = .opw
    · simpa [hostWrite, hopw] using startOperation_answers v s
    · exact ⟨_, if_neg hopw⟩
  | bufferByte b j => exact ⟨_, rfl⟩
  | reservedOffset => exact ⟨_, rfl⟩

/-- A host access that reaches something answers a next state. -/
theorem step_access_answers {s : State} {w : AccessWidth} {offset : Nat} {v : Word} {rest : List Input} {i : Input}
    {target : Target} (hwf : s.cfg.wf = true) (hpending : s.pending = none) (hinbox : s.inbox = i :: rest)
    (haccess : i = .write w offset v ∨ i = .read w offset)
    (htarget : hostTarget s.cfg.bufBytes w offset = some target) : ∃ t, step s = .next t := by
  obtain rfl | rfl := haccess
  · rw [step_write hwf hpending hinbox htarget]
    exact hostWrite_answers target v _
  · exact ⟨_, step_read hwf hpending hinbox htarget⟩

/-- Settles O14: each refused shape reaches nothing, and each of the two shapes of the interface reaches its
target. -/
theorem otherAccessShapesAreRefused : Obligations.OtherAccessShapesAreRefused := by
  refine ⟨fun s w offset v rest i hwf hpending hinbox haccess hshape => ?_,
    fun s offset v rest i hwf hpending hinbox hshape => ?_⟩
  · obtain ⟨-, hbytes, -⟩ := (cfg_wf_iff s.cfg).1 hwf
    refine step_access_refused hwf hpending hinbox haccess ?_
    obtain rfl | ⟨rfl, hodd⟩ | ⟨rfl, b, j, hj, rfl⟩ | ⟨rfl, helsewhere⟩ := hshape
    · exact hostTarget_half _ _
    · exact hostTarget_misaligned hodd
    · exact hostTarget_word_bufferByte hbytes b hj
    · exact hostTarget_byte_elsewhere helsewhere
  · obtain ⟨-, hbytes, -⟩ := (cfg_wf_iff s.cfg).1 hwf
    obtain ⟨haccess, p, hp, rfl⟩ | ⟨haccess, b, j, hj, rfl⟩ := hshape
    · exact step_access_answers hwf hpending hinbox haccess (hostTarget_register hp)
    · exact step_access_answers hwf hpending hinbox haccess (hostTarget_bufferByte hbytes b hj)

/-! ### Host reads -/

/-- Settles O19: a legal read reaches something, and `hostRead` gives the host its value. -/
theorem hostReadHasNoSideEffect : Obligations.HostReadHasNoSideEffect := by
  intro s w offset rest hwf hpending hinbox hlegal
  obtain ⟨target, htarget⟩ := Option.isSome_iff_exists.1 hlegal
  exact ⟨_, step_read hwf hpending hinbox htarget⟩

theorem bitsValue_append_singleton (f : Frame) (b : Bool) : bitsValue (f ++ [b]) = 2 * bitsValue f + b.toNat := by
  simp [bitsValue, List.foldl_append]

/-- The value of a bit sequence is below 2 to its length. -/
theorem bitsValue_lt (f : Frame) : bitsValue f < 2 ^ f.length := by
  induction f with
  | nil => exact Nat.one_pos
  | cons b f ih =>
    have hbit : 2 ^ f.length * b.toNat ≤ 2 ^ f.length * 1 := Nat.mul_le_mul_left _ b.toNat_le
    rw [bitsValue_cons, List.length_cons, pow_succ]
    omega

/-- Bit `i` of an `n`-bit sequence weighs `2^(n-1-i)` (20_memory.md R61). -/
theorem bitsValue_map_range (f : Nat → Bool) (n : Nat) :
    bitsValue ((List.range n).map f) = ∑ i ∈ Finset.range n, (f i).toNat * 2 ^ (n - 1 - i) := by
  induction n with
  | zero => rfl
  | succ n ih =>
    have hdouble : ∀ i ∈ Finset.range n,
        2 * ((f i).toNat * 2 ^ (n - 1 - i)) = (f i).toNat * 2 ^ (n + 1 - 1 - i) := fun i hi => by
      have hlt := Finset.mem_range.1 hi
      rw [show n + 1 - 1 - i = n - 1 - i + 1 by omega, pow_succ]
      ring
    calc bitsValue ((List.range (n + 1)).map f)
        = 2 * bitsValue ((List.range n).map f) + (f n).toNat := by
          rw [List.range_succ, List.map_append, List.map_singleton, bitsValue_append_singleton]
      _ = ∑ i ∈ Finset.range n, (f i).toNat * 2 ^ (n + 1 - 1 - i) + (f n).toNat := by
          rw [ih, Finset.mul_sum, Finset.sum_congr rfl hdouble]
      _ = ∑ i ∈ Finset.range (n + 1), (f i).toNat * 2 ^ (n + 1 - 1 - i) := by
          rw [Finset.sum_range_succ, Nat.add_sub_cancel, Nat.sub_self, pow_zero, mul_one]

/-- A byte whose bits all hold values reads as those bits, whatever the free value is (20_memory.md R61,
10_state.md R42). -/
theorem readByte_of_written {m : Memory} {j : Nat} {f : Nat → Bool}
    (h : ∀ i, i < 8 → Memory.read m (8 * j + i) = some (f i)) (free : Byte) :
    Memory.readByte m j free = BitVec.ofNat 8 (bitsValue ((List.range 8).map f)) := by
  have hbits : (List.range 8).map (fun i => (Memory.read m (8 * j + i)).getD (free.getLsbD (7 - i)))
      = (List.range 8).map f :=
    List.map_congr_left fun i hi => by rw [h i (List.mem_range.1 hi), Option.getD_some]
  rw [Memory.readByte, hbits]

/-- Settles O17: the eight bits are below 2^8, so the byte the host reads keeps their sum. -/
theorem hostByteReadIsMsbFirst : Obligations.HostByteReadIsMsbFirst := by
  intro s b j f rest hwf hpending hj hinbox hbits
  obtain ⟨-, hbytes, -⟩ := (cfg_wf_iff s.cfg).1 hwf
  have hvalue (free : Word) : ({ s with inbox := rest } : State).readValue free (.bufferByte b j)
      = BitVec.ofNat 32 (∑ i ∈ Finset.range 8, (f i).toNat * 2 ^ (7 - i)) := by
    have hread : Memory.readByte (({ s with inbox := rest } : State).buffer b) j (free.setWidth 8)
        = BitVec.ofNat 8 (bitsValue ((List.range 8).map f)) :=
      readByte_of_written (by cases b <;> exact hbits) _
    have hlt : bitsValue ((List.range 8).map f) < 2 ^ 8 := by
      simpa using bitsValue_lt ((List.range 8).map f)
    rw [State.readValue, hread, ← bitsValue_map_range f 8]
    apply BitVec.eq_of_toNat_eq
    rw [BitVec.toNat_setWidth, BitVec.toNat_ofNat, BitVec.toNat_ofNat, Nat.mod_eq_of_lt hlt]
  rw [step_read hwf hpending hinbox (hostTarget_bufferByte hbytes b hj), hostRead, hvalue]

/-! ### A store access the medium answers -/

theorem afterStoreRead_of_answer {s : State} (h : s.nextAnswer = true) (key : StoreKey) :
    s.afterStoreRead key = { s.takeAnswer with store := ReplayStore.touch s.store key } :=
  if_pos h

theorem afterStoreWrite_of_answer {s : State} (h : s.nextAnswer = true) (key : StoreKey) (v : Half) :
    s.afterStoreWrite key v = { s.takeAnswer with store := ReplayStore.insert s.store key v } :=
  if_pos h

theorem storeReadValue_of_answer {s : State} (h : s.nextAnswer = true) (key : StoreKey) :
    s.storeReadValue key = some ((ReplayStore.find s.store key).getD 0) :=
  if_pos h

/-- A read of a record that is there leaves the store as it is (45_replay_store.md R226). -/
theorem touch_of_find {m : ReplayStore} {key : StoreKey} {v : Half} (h : ReplayStore.find m key = some v) :
    ReplayStore.touch m key = m := by
  simp [ReplayStore.touch, h]

/-- NS 0 to 8 name a protocol (30_encoding.md R92). -/
theorem exists_protocol_of_le : ∀ ns : BitVec 4, ns.toNat ≤ 8 → ∃ p, Protocol.ofId ns = some p := by
  have hsome : ∀ ns : BitVec 4, ns.toNat ≤ 8 → (Protocol.ofId ns).isSome = true := by decide
  exact fun ns h => Option.isSome_iff_exists.1 (hsome ns h)

/-- ST.STORE of a legal value on a medium that answers writes the record (45_replay_store.md R229). -/
theorem exec_stStore_of_answer {ns : BitVec 4} {p : Protocol} {s : State} {r d v : Word}
    (hns : Protocol.ofId ns = some p) (h0 : s.a0 = some r) (h1 : s.a1 = some d) (h2 : s.a2 = some v)
    (hv : v.toNat ≤ 0xFFFF) (hanswer : s.nextAnswer = true) :
    exec (.stStore ns) s
      = .next (complete .ok (s.afterStoreWrite ⟨p, r, d⟩ (v.setWidth 16))) := by
  have hoperands : s.operands012 = some (r, d, v) := (operands012_eq_some s _).2 ⟨h0, h1, h2⟩
  simp [exec, execStStore, stStore, hoperands, hns, hanswer, Nat.not_lt.2 hv]

/-- ST.LOAD on a medium that answers reads the record, 0 for an absent one (45_replay_store.md R228). -/
theorem exec_stLoad_of_answer {ns : BitVec 4} {p : Protocol} {s : State} {r d : Word}
    (hns : Protocol.ofId ns = some p) (h0 : s.a0 = some r) (h1 : s.a1 = some d) (hanswer : s.nextAnswer = true) :
    exec (.stLoad ns) s = .next (complete .ok
      { s.afterStoreRead ⟨p, r, d⟩ with
        res0 := ((ReplayStore.find s.store ⟨p, r, d⟩).getD 0).setWidth 32 }) := by
  have hoperands : s.operands01 = some (r, d) := (operands01_eq_some s _).2 ⟨h0, h1⟩
  simp [exec, execStLoad, stLoad, hoperands, hns, storeReadValue_of_answer hanswer]

/-- Settles O56: the load finds the record the store wrote, and a 16-bit value survives the record. -/
theorem storeThenLoadReturnsTheValue : Obligations.StoreThenLoadReturnsTheValue := by
  intro ns s r d v h0 h1 h2 hns hv hgrants
  obtain ⟨p, hp⟩ := exists_protocol_of_le ns hns
  obtain ⟨hstoreAnswer, hloadAnswer⟩ : s.nextAnswer = true ∧ s.takeAnswer.nextAnswer = true := by
    simpa [State.grants] using hgrants
  set t := complete .ok (s.afterStoreWrite ⟨p, r, d⟩ (v.setWidth 16)) with ht
  have hanswer : t.nextAnswer = true := by
    rw [ht, afterStoreWrite_of_answer hstoreAnswer]
    exact hloadAnswer
  have hrecord : ReplayStore.find t.store ⟨p, r, d⟩ = some (v.setWidth 16) := by
    simp [ht, hstoreAnswer, find_insert]
  have hload := exec_stLoad_of_answer (s := t) hp (by simpa [ht] using h0) (by simpa [ht] using h1) hanswer
  refine ⟨t, _, exec_stStore_of_answer hp h0 h1 h2 hv hstoreAnswer, hload, ?_, rfl, ?_⟩
  · apply BitVec.eq_of_toNat_eq
    simp [hrecord]
    omega
  · simp [hanswer, touch_of_find hrecord]

/-! ### The split of a stateful FMT on a shared medium -/

/-- A frame of the codec's length, written, is what a FMT writes (41_codec_common.md R129, R133). -/
theorem writesFrame_fmtEmit {s : State} {p : Protocol} {f : Frame} (hlen : f.length = frameBits s.cfg p) :
    WritesFrame s (fmtEmit p f s) p (frameBits s.cfg p) (fun k => f[k]?.getD false) := by
  refine ⟨rfl, fun k hk => ?_, fun k hk => ?_⟩
  · have hin : k < f.length := hlen ▸ hk
    have hwritten := read_write_self s.buf0 0 f k hin
    rw [Nat.zero_add] at hwritten
    simp [hwritten, hin]
  · simpa using read_write_other s.buf0 0 f k (.inr (by omega))

/-- A stateful FMT with its operands written runs the store step (43_codecs_rolling.md R186, R192). -/
theorem exec_fmt_rolling {s : State} {r d dl : Word} (codec : Rolling) (cmd : Command) (h0 : s.a0 = some r)
    (h1 : s.a1 = some d) (h2 : s.a2 = some dl) :
    exec (Instr.fmt codec.protocol cmd) s = .next (fmtRolling codec cmd r d dl s) := by
  have hoperands : s.operands012 = some (r, d, dl) := (operands012_eq_some s _).2 ⟨h0, h1, h2⟩
  cases codec with
  | somfy => exact congrArg Host.Outcome.next (by rw [fmtSomfy, hoperands, withOperands_some])
  | blyss => exact congrArg Host.Outcome.next (by rw [fmtBlyss, hoperands, withOperands_some])

/-- On a shared medium a stateful FMT past its checks stops after its store read (20_memory.md R76). -/
theorem fmtRolling_of_shared {s : State} {codec : Rolling} {cmd : Command} {r d dl : Word}
    (hshared : s.cfg.storeShared = true) (hanswer : s.nextAnswer = true)
    (hchecks : fmtRefusal s.cfg codec.protocol cmd dl = none) :
    fmtRolling codec cmd r d dl s = { s.afterStoreRead ⟨codec.protocol, r, d⟩ with
      pending := some ⟨codec, cmd, r, d, (ReplayStore.find s.store ⟨codec.protocol, r, d⟩).getD 0⟩ } := by
  simp [fmtRolling, hchecks, storeReadValue_of_answer hanswer, hshared]

/-- Between the store accesses of a split FMT another writer's store lands (20_memory.md R76). -/
theorem step_otherWrite_of_pending {s : State} {j : FmtJob} {key : StoreKey} {x : Half} {rest : List Input}
    (hwf : s.cfg.wf = true) (hshared : s.cfg.storeShared = true) (hpending : s.pending = some j)
    (hinbox : s.inbox = .otherWrite key x :: rest) :
    step s = .next { s with inbox := rest, store := ReplayStore.insert s.store key x } := by
  simp [step, hwf, move, nextInput, hinbox, hpending, act, hshared]

/-- No other input acts before a split FMT has ended (20_memory.md R76; log 11). -/
theorem step_of_pending {s : State} {j : FmtJob} (hwf : s.cfg.wf = true) (hpending : s.pending = some j)
    (hinbox : ∀ key x rest, s.inbox ≠ .otherWrite key x :: rest) : step s = .next (fmtFinish j s) := by
  have hwaits : nextInput s = none := by
    unfold nextInput
    rw [hpending]
    split
    · rfl
    · next i rest hserved =>
      cases i with
      | otherWrite key x => exact absurd hserved (hinbox key x rest)
      | write _ _ _ | read _ _ | reset | eraseMedium | idle => rfl
  simp [step, hwf, move, hwaits, hpending]

/-- The second half of a stateful FMT on a medium that answers (41_codec_common.md R129). -/
theorem fmtFinish_of_answer {s : State} (j : FmtJob) (hanswer : s.nextAnswer = true) :
    fmtFinish j s = fmtEmit j.codec.protocol (FmtJob.frame s.cfg j)
      { s.takeAnswer with
        store := ReplayStore.insert s.store j.key (rollNext j.codec j.value)
        pending := none } := by
  simp [fmtFinish, hanswer, afterStoreWrite_of_answer]

/-- Settles O42: the read stops the FMT, another writer's store is an insert, and the second half emits the frame on
the value read. -/
theorem sharedFormatSplits : Obligations.SharedFormatSplits := by
  refine ⟨fun codec s r d dl cmd hshared hanswer h0 h1 h2 hcap hfits haccepted => ?_,
    fun s j key x rest hwf hshared hpending hinbox => ?_, fun s j hwf hpending hinbox hanswer => ?_⟩
  · have hchecks := (fmtRefusal_eq_none s.cfg codec.protocol cmd dl).2 ⟨hcap, hfits, haccepted⟩
    have hexec := exec_fmt_rolling codec cmd h0 h1 h2
    rw [fmtRolling_of_shared hshared hanswer hchecks, afterStoreRead_of_answer hanswer] at hexec
    exact ⟨_, _, hexec, rfl, rfl, find_touch s.store _⟩
  · exact ⟨_, step_otherWrite_of_pending hwf hshared hpending hinbox, rfl, find_insert s.store key x⟩
  · have hstep := step_of_pending hwf hpending hinbox
    rw [fmtFinish_of_answer j hanswer] at hstep
    refine ⟨_, hstep, ?_, find_insert s.store j.key _⟩
    have hlen := job_frame_length s.cfg hwf j
    have hwrites := writesFrame_fmtEmit (s := { s.takeAnswer with
        store := ReplayStore.insert s.store j.key (rollNext j.codec j.value)
        pending := none }) (p := j.codec.protocol) (f := FmtJob.frame s.cfg j) (by simpa using hlen)
    simpa using hwrites

/-- Settles O43: the other writer's record is under the key the second half writes. -/
theorem sharedMediumLosesUpdates : Obligations.SharedMediumLosesUpdates := by
  intro s j x rest hwf hshared hpending hsomfy hinbox hanswer
  have hother := step_otherWrite_of_pending hwf hshared hpending hinbox
  set u : State :=
    { s with inbox := .idle :: rest, store := ReplayStore.insert s.store ⟨.somfy, j.remote, j.device⟩ x } with hu
  have hfinish : step u = .next (fmtFinish j u) := step_of_pending hwf hpending (by simp [hu])
  refine ⟨_, run_two hother hfinish, ?_⟩
  have hanswer' : u.nextAnswer = true := hanswer
  rw [fmtFinish_of_answer j hanswer']
  simp [find_insert, FmtJob.key, hsomfy, Rolling.protocol, rollNext]

end Sys2Proof.Proofs
end

section
/-! PROOFS. The statements of the family 30_encoding.md: decoding undoes encoding and encoding undoes decoding (R86 to
R92), the opcode table (R93), the reserved encodings (R96) and the reserved operand values (R97), and the examples of
the assembler (R100 to R105). -/

namespace Sys2Proof.Proofs

open Sys2Proof Sys2Proof.Machine Sys2Proof.Laws

/-! ### The fields of an operation word -/

/-- The operation word with the given CLASS, SEL and ARG8 (30_encoding.md R86). -/
def opWord (cls sel : BitVec 4) (arg : Byte) : Half := cls ++ sel ++ arg

@[simp] theorem opClass_opWord (cls sel : BitVec 4) (arg : Byte) : opClass (opWord cls sel arg) = cls :=
  (BitVec.extractLsb'_append_eq_of_le (xhi := cls ++ sel) (xlo := arg) (by decide : 8 ≤ 12)).trans
    BitVec.extractLsb'_append_eq_left

@[simp] theorem opSel_opWord (cls sel : BitVec 4) (arg : Byte) : opSel (opWord cls sel arg) = sel :=
  (BitVec.extractLsb'_append_eq_of_le (xhi := cls ++ sel) (xlo := arg) (by decide : 8 ≤ 8)).trans
    BitVec.extractLsb'_append_eq_right

@[simp] theorem opArg8_opWord (cls sel : BitVec 4) (arg : Byte) : opArg8 (opWord cls sel arg) = arg :=
  BitVec.extractLsb'_append_eq_right (a := cls ++ sel)

/-- A word is its three fields. -/
theorem opWord_fields (w : Half) : opWord (opClass w) (opSel w) (opArg8 w) = w :=
  calc w.extractLsb' 12 4 ++ w.extractLsb' 8 4 ++ w.extractLsb' 0 8
      = w.extractLsb' 8 8 ++ w.extractLsb' 0 8 :=
        congrArg (· ++ w.extractLsb' 0 8) (BitVec.extractLsb'_append_extractLsb'_eq_extractLsb' rfl)
    _ = w.extractLsb' 0 16 := BitVec.extractLsb'_append_extractLsb'_eq_extractLsb' rfl
    _ = w := BitVec.extractLsb'_eq_self

theorem opWord_and (c s c' s' : BitVec 4) (a a' : Byte) :
    opWord c s a &&& opWord c' s' a' = opWord (c &&& c') (s &&& s') (a &&& a') :=
  BitVec.and_append.trans (congrArg (· ++ (a &&& a')) BitVec.and_append)

theorem opWord_inj {c s c' s' : BitVec 4} {a a' : Byte} (h : opWord c s a = opWord c' s' a') :
    c = c' ∧ s = s' ∧ a = a' :=
  ⟨by simpa using congrArg opClass h, by simpa using congrArg opSel h, by simpa using congrArg opArg8 h⟩

theorem opClass_toNat (w : Half) : (opClass w).toNat = w.toNat / 4096 := by
  simp [opClass, Nat.shiftRight_eq_div_pow]
  omega

theorem opSel_toNat (w : Half) : (opSel w).toNat = w.toNat / 256 % 16 := by
  simp [opSel, Nat.shiftRight_eq_div_pow]

theorem opArg8_toNat (w : Half) : (opArg8 w).toNat = w.toNat % 256 := by
  simp [opArg8]

theorem opClass_eq_two (w : Half) : opClass w = 2 ↔ w.toNat / 4096 = 2 := by
  rw [← opClass_toNat]
  exact BitVec.toNat_inj.symm

/-- A 16-bit word is decoded field by field (10_state.md R25). -/
@[simp] theorem decode_setWidth (w : Half) : decode (w.setWidth 32) = decodeWord w := by
  have hupper : (w.setWidth 32).extractLsb' 16 16 = 0 := by
    apply BitVec.eq_of_toNat_eq
    simp
    omega
  have hlower : (w.setWidth 32).extractLsb' 0 16 = w := by
    rw [BitVec.extractLsb'_setWidth_of_le (by decide), BitVec.extractLsb'_eq_self]
  simp [decode, hupper, hlower]

theorem setWidth_setWidth_of_lt {v : Word} (h : v.toNat < 2 ^ 16) : (v.setWidth 16).setWidth 32 = v := by
  apply BitVec.eq_of_toNat_eq
  simp
  omega

/-- A value that decodes to an operation is a 16-bit word (10_state.md R25). -/
theorem decode_eq_instr {v : Word} {i : Instr} (h : decode v = .instr i) :
    ∃ w : Half, v = w.setWidth 32 ∧ decodeWord w = .instr i := by
  have hv : (v.setWidth 16).setWidth 32 = v := setWidth_setWidth_of_lt (lt_of_decode_eq_instr h)
  exact ⟨v.setWidth 16, hv.symm, by rw [← decode_setWidth, hv, h]⟩

section ByClass
variable {w : Half}

theorem decodeWord_fmt (h : opClass w = 1) : decodeWord w = decodeFmt (opSel w) (opArg8 w) := by
  simp [decodeWord, h]

theorem decodeWord_desc (h : opClass w = 2) : decodeWord w = decodeDesc (opSel w) (opArg8 w) := by
  simp [decodeWord, h]

theorem decodeWord_bw (h : opClass w = 3) : decodeWord w = decodeBw (opSel w) (opArg8 w) := by
  simp [decodeWord, h]

theorem decodeWord_raw (h : opClass w = 4) : decodeWord w = decodeRaw (opSel w) (opArg8 w) := by
  simp [decodeWord, h]

theorem decodeWord_st (h : opClass w = 5) : decodeWord w = decodeSt (opSel w) (opArg8 w) := by
  simp [decodeWord, h]

end ByClass

/-- A word that decodes to an operation is of one of the five classes (30_encoding.md R87). -/
theorem class_of_decodeWord {w : Half} {i : Instr} (h : decodeWord w = .instr i) :
    opClass w = 1 ∨ opClass w = 2 ∨ opClass w = 3 ∨ opClass w = 4 ∨ opClass w = 5 := by
  unfold decodeWord at h
  split at h
  · next hn => exact .inl (BitVec.eq_of_toNat_eq hn)
  · next hn => exact .inr (.inl (BitVec.eq_of_toNat_eq hn))
  · next hn => exact .inr (.inr (.inl (BitVec.eq_of_toNat_eq hn)))
  · next hn => exact .inr (.inr (.inr (.inl (BitVec.eq_of_toNat_eq hn))))
  · next hn => exact .inr (.inr (.inr (.inr (BitVec.eq_of_toNat_eq hn))))
  · cases h

/-! ### The encoder, field by field -/

/-- Case analysis on an operation, with the nine FMT operations as one case (30_encoding.md R93). -/
theorem instr_cases {motive : Instr → Prop} (fmt : ∀ p cmd, motive (.fmt p cmd))
    (descRead : ∀ sel, motive (.descRead sel)) (bwLow : ∀ b, motive (.bwLow b)) (bwHigh : ∀ b, motive (.bwHigh b))
    (bwEdge : ∀ b o, motive (.bwEdge b o)) (bwBits : ∀ b oo zo, motive (.bwBits b oo zo))
    (rawBasetime : ∀ acc, motive (.rawBasetime acc)) (rawRender : motive .rawRender)
    (rawConvert : ∀ acc, motive (.rawConvert acc)) (stLoad : ∀ ns, motive (.stLoad ns))
    (stStore : ∀ ns, motive (.stStore ns)) (i : Instr) : motive i := by
  cases i with
  | fmtOtax cmd => exact fmt .otax cmd
  | fmtDio cmd => exact fmt .dio cmd
  | fmtHomeeasy cmd => exact fmt .homeeasy cmd
  | fmtIdk cmd => exact fmt .idk cmd
  | fmtSumtech cmd => exact fmt .sumtech cmd
  | fmtAuchan cmd => exact fmt .auchan cmd
  | fmtAuchan2 cmd => exact fmt .auchan2 cmd
  | fmtSomfy cmd => exact fmt .somfy cmd
  | fmtBlyss cmd => exact fmt .blyss cmd
  | descRead sel => exact descRead sel
  | bwLow b => exact bwLow b
  | bwHigh b => exact bwHigh b
  | bwEdge b o => exact bwEdge b o
  | bwBits b oo zo => exact bwBits b oo zo
  | rawBasetime acc => exact rawBasetime acc
  | rawRender => exact rawRender
  | rawConvert acc => exact rawConvert acc
  | stLoad ns => exact stLoad ns
  | stStore ns => exact stStore ns

@[simp] theorem wellFormed_fmt (p : Protocol) (cmd : Command) : (Instr.fmt p cmd).wellFormed = true := by
  cases p <;> rfl

theorem encode_fmt (p : Protocol) (cmd : Command) :
    encode (.fmt p cmd) = opWord 1 (BitVec.ofNat 4 p.id) (BitVec.ofNat 8 cmd.code) := by
  cases p <;> cases cmd <;> rfl

theorem encode_descRead : ∀ sel : BitVec 4, encode (.descRead sel) = opWord 2 sel 0 := by decide

theorem encode_bwLow (b : BufSel) : encode (.bwLow b) = opWord 3 0 (BitVec.ofNat 8 b.bits) := by
  cases b <;> rfl

theorem encode_bwHigh (b : BufSel) : encode (.bwHigh b) = opWord 3 1 (BitVec.ofNat 8 b.bits) := by
  cases b <;> rfl

theorem encode_bwEdge (b : BufSel) (o : Order) :
    encode (.bwEdge b o) = opWord 3 2 (BitVec.ofNat 8 (b.bits + o.bit)) := by
  cases b <;> cases o <;> rfl

theorem encode_bwBits (b : BufSel) (oo zo : Order) :
    encode (.bwBits b oo zo) = opWord 3 3 (BitVec.ofNat 8 (b.bits + 2 * oo.bit + zo.bit)) := by
  cases b <;> cases oo <;> cases zo <;> rfl

theorem encode_rawBasetime : ∀ acc : Byte, encode (.rawBasetime acc) = opWord 4 0 acc := by decide

theorem encode_rawRender : encode .rawRender = opWord 4 1 0 := rfl

theorem encode_rawConvert : ∀ acc : Byte, encode (.rawConvert acc) = opWord 4 2 acc := by decide

theorem encode_stLoad : ∀ ns : BitVec 4, encode (.stLoad ns) = opWord 5 0 (ns.setWidth 8) := by decide

theorem encode_stStore : ∀ ns : BitVec 4, encode (.stStore ns) = opWord 5 1 (ns.setWidth 8) := by decide

/-! ### Decoding undoes encoding -/

@[simp] theorem ofId_id (p : Protocol) : Protocol.ofId (BitVec.ofNat 4 p.id) = some p := by
  cases p <;> rfl

theorem eq_id_of_ofId : ∀ (sel : BitVec 4) (p : Protocol), Protocol.ofId sel = some p →
    sel = BitVec.ofNat 4 p.id := by decide

theorem le_of_ofId : ∀ (sel : BitVec 4) (p : Protocol), Protocol.ofId sel = some p → sel.toNat ≤ 8 := by decide

theorem ofId_eq_none : ∀ sel : BitVec 4, 8 < sel.toNat → Protocol.ofId sel = none := by decide

theorem decodeFmt_code (p : Protocol) (cmd : Command) :
    decodeFmt (BitVec.ofNat 4 p.id) (BitVec.ofNat 8 cmd.code) = .instr (.fmt p cmd) := by
  rw [decodeFmt, ofId_id]
  cases cmd <;> rfl

theorem decodeDesc_protocol {sel : BitVec 4} (h : sel.toNat ≤ 8) : decodeDesc sel 0 = .instr (.descRead sel) := by
  obtain ⟨p, hp⟩ := exists_protocol_of_le sel h
  simp [decodeDesc, hp, argChecked]

/-- The namespace is read back from ARG8 (30_encoding.md R92). -/
theorem namespace_of_setWidth : ∀ ns : BitVec 4,
    (ns.setWidth 8).extractLsb' 4 4 = 0 ∧ (ns.setWidth 8).extractLsb' 0 4 = ns := by decide

/-- Settles O1: the word is its three fields, and each class reads its operands back from them. -/
theorem decodeUndoesEncode : Obligations.DecodeUndoesEncode := by
  intro i hwf
  rw [decode_setWidth]
  cases i using instr_cases with
  | fmt p cmd => simp [encode_fmt, decodeWord_fmt, decodeFmt_code]
  | descRead sel =>
    have hsel : sel.toNat ≤ 8 := by simpa [Instr.wellFormed] using hwf
    rw [encode_descRead, decodeWord_desc (by simp), opSel_opWord, opArg8_opWord, decodeDesc_protocol hsel]
  | bwLow b => cases b <;> rfl
  | bwHigh b => cases b <;> rfl
  | bwEdge b o => cases b <;> cases o <;> rfl
  | bwBits b oo zo => cases b <;> cases oo <;> cases zo <;> rfl
  | rawBasetime acc => simp [encode_rawBasetime, decodeWord_raw, decodeRaw]
  | rawRender => rfl
  | rawConvert acc => simp [encode_rawConvert, decodeWord_raw, decodeRaw]
  | stLoad ns => simp [encode_stLoad, decodeWord_st, decodeSt, argChecked, namespace_of_setWidth]
  | stStore ns => simp [encode_stStore, decodeWord_st, decodeSt, argChecked, namespace_of_setWidth]

/-! ### Encoding undoes decoding -/

theorem argChecked_eq_instr {ok : Bool} {i j : Instr} (h : argChecked ok i = .instr j) : ok = true ∧ i = j := by
  cases ok with
  | true => exact ⟨rfl, Decoded.instr.inj h⟩
  | false => cases h

/-! With the reserved bits zero, the operands read from ARG8 encode to ARG8 again (30_encoding.md R88 to R92). -/

theorem code_ofCode : ∀ arg : Byte, (arg.extractLsb' 3 5 == 0) = true →
    BitVec.ofNat 8 (Command.ofCode (arg.extractLsb' 0 3)).code = arg := by decide

theorem buf_ofBit : ∀ arg : Byte, (arg.extractLsb' 0 7 == 0) = true →
    BitVec.ofNat 8 (BufSel.ofBit (arg.getLsbD 7)).bits = arg := by decide

theorem edge_ofBit : ∀ arg : Byte, (arg.extractLsb' 1 6 == 0) = true →
    BitVec.ofNat 8 ((BufSel.ofBit (arg.getLsbD 7)).bits + (Order.ofBit (arg.getLsbD 0)).bit) = arg := by decide

theorem orders_ofBit : ∀ arg : Byte, (arg.extractLsb' 2 5 == 0) = true →
    BitVec.ofNat 8 ((BufSel.ofBit (arg.getLsbD 7)).bits + 2 * (Order.ofBit (arg.getLsbD 1)).bit
      + (Order.ofBit (arg.getLsbD 0)).bit) = arg := by decide

theorem setWidth_namespace : ∀ arg : Byte, (arg.extractLsb' 4 4 == 0) = true →
    (arg.extractLsb' 0 4).setWidth 8 = arg := by decide

section ByClass
variable {sel : BitVec 4} {arg : Byte} {i : Instr}

theorem encode_of_decodeFmt (h : decodeFmt sel arg = .instr i) :
    i.wellFormed = true ∧ encode i = opWord 1 sel arg := by
  unfold decodeFmt at h
  split at h
  · cases h
  · next p hp =>
    obtain ⟨harg, rfl⟩ := argChecked_eq_instr h
    exact ⟨wellFormed_fmt _ _, by rw [encode_fmt, ← eq_id_of_ofId sel p hp, code_ofCode arg harg]⟩

theorem encode_of_decodeDesc (h : decodeDesc sel arg = .instr i) :
    i.wellFormed = true ∧ encode i = opWord 2 sel arg := by
  unfold decodeDesc at h
  split at h
  · cases h
  · next p hp =>
    obtain ⟨harg, rfl⟩ := argChecked_eq_instr h
    exact ⟨decide_eq_true (le_of_ofId sel p hp), by rw [encode_descRead, eq_of_beq harg]⟩

theorem encode_of_decodeBw (h : decodeBw sel arg = .instr i) :
    i.wellFormed = true ∧ encode i = opWord 3 sel arg := by
  unfold decodeBw at h
  dsimp only at h
  split at h
  · next hsel =>
    obtain rfl : sel = 0 := BitVec.eq_of_toNat_eq hsel
    obtain ⟨harg, rfl⟩ := argChecked_eq_instr h
    exact ⟨rfl, by rw [encode_bwLow, buf_ofBit arg harg]⟩
  · next hsel =>
    obtain rfl : sel = 1 := BitVec.eq_of_toNat_eq hsel
    obtain ⟨harg, rfl⟩ := argChecked_eq_instr h
    exact ⟨rfl, by rw [encode_bwHigh, buf_ofBit arg harg]⟩
  · next hsel =>
    obtain rfl : sel = 2 := BitVec.eq_of_toNat_eq hsel
    obtain ⟨harg, rfl⟩ := argChecked_eq_instr h
    exact ⟨rfl, by rw [encode_bwEdge, edge_ofBit arg harg]⟩
  · next hsel =>
    obtain rfl : sel = 3 := BitVec.eq_of_toNat_eq hsel
    obtain ⟨harg, rfl⟩ := argChecked_eq_instr h
    exact ⟨rfl, by rw [encode_bwBits, orders_ofBit arg harg]⟩
  · cases h

theorem encode_of_decodeRaw (h : decodeRaw sel arg = .instr i) :
    i.wellFormed = true ∧ encode i = opWord 4 sel arg := by
  unfold decodeRaw at h
  split at h
  · next hsel =>
    obtain rfl : sel = 0 := BitVec.eq_of_toNat_eq hsel
    cases h
    exact ⟨rfl, by rw [encode_rawBasetime]⟩
  · next hsel =>
    obtain rfl : sel = 1 := BitVec.eq_of_toNat_eq hsel
    obtain ⟨harg, rfl⟩ := argChecked_eq_instr h
    exact ⟨rfl, by rw [encode_rawRender, eq_of_beq harg]⟩
  · next hsel =>
    obtain rfl : sel = 2 := BitVec.eq_of_toNat_eq hsel
    cases h
    exact ⟨rfl, by rw [encode_rawConvert]⟩
  · cases h

theorem encode_of_decodeSt (h : decodeSt sel arg = .instr i) :
    i.wellFormed = true ∧ encode i = opWord 5 sel arg := by
  unfold decodeSt at h
  split at h
  · next hsel =>
    obtain rfl : sel = 0 := BitVec.eq_of_toNat_eq hsel
    obtain ⟨harg, rfl⟩ := argChecked_eq_instr h
    exact ⟨rfl, by rw [encode_stLoad, setWidth_namespace arg harg]⟩
  · next hsel =>
    obtain rfl : sel = 1 := BitVec.eq_of_toNat_eq hsel
    obtain ⟨harg, rfl⟩ := argChecked_eq_instr h
    exact ⟨rfl, by rw [encode_stStore, setWidth_namespace arg harg]⟩
  · cases h

end ByClass

/-- The word a decoded operation came from is its encoding (30_encoding.md R93). -/
theorem encode_of_decodeWord {w : Half} {i : Instr} (h : decodeWord w = .instr i) :
    i.wellFormed = true ∧ encode i = w := by
  rw [← opWord_fields w]
  obtain hcls | hcls | hcls | hcls | hcls := class_of_decodeWord h
  · rw [hcls]
    exact encode_of_decodeFmt (decodeWord_fmt hcls ▸ h)
  · rw [hcls]
    exact encode_of_decodeDesc (decodeWord_desc hcls ▸ h)
  · rw [hcls]
    exact encode_of_decodeBw (decodeWord_bw hcls ▸ h)
  · rw [hcls]
    exact encode_of_decodeRaw (decodeWord_raw hcls ▸ h)
  · rw [hcls]
    exact encode_of_decodeSt (decodeWord_st hcls ▸ h)

/-- Settles O2: the operands a class reads make up the SEL and ARG8 they were read from. -/
theorem encodeUndoesDecode : Obligations.EncodeUndoesDecode := by
  intro v i h
  obtain ⟨w, rfl, hw⟩ := decode_eq_instr h
  obtain ⟨hwf, hencode⟩ := encode_of_decodeWord hw
  exact ⟨hwf, by rw [hencode]⟩

/-! ### The opcode table -/

/-- An operation's word matches its row (30_encoding.md R93). -/
theorem encode_match_row (i : Instr) : encode i &&& i.row.mask = i.row.pattern := by
  cases i with
  | fmtOtax cmd => exact RowMatch.fmtOtax cmd
  | fmtDio cmd => exact RowMatch.fmtDio cmd
  | fmtHomeeasy cmd => exact RowMatch.fmtHomeeasy cmd
  | fmtIdk cmd => exact RowMatch.fmtIdk cmd
  | fmtSumtech cmd => exact RowMatch.fmtSumtech cmd
  | fmtAuchan cmd => exact RowMatch.fmtAuchan cmd
  | fmtAuchan2 cmd => exact RowMatch.fmtAuchan2 cmd
  | fmtSomfy cmd => exact RowMatch.fmtSomfy cmd
  | fmtBlyss cmd => exact RowMatch.fmtBlyss cmd
  | descRead sel => exact RowMatch.descRead sel
  | bwLow b => exact RowMatch.bwLow b
  | bwHigh b => exact RowMatch.bwHigh b
  | bwEdge b o => exact RowMatch.bwEdge b o
  | bwBits b oo zo => exact RowMatch.bwBits b oo zo
  | rawBasetime acc => exact RowMatch.rawBasetime acc
  | rawRender => exact RowMatch.rawRender
  | rawConvert acc => exact RowMatch.rawConvert acc
  | stLoad ns => exact RowMatch.stLoad ns
  | stStore ns => exact RowMatch.stStore ns

theorem row_fmt (p : Protocol) (cmd : Command) :
    (Instr.fmt p cmd).row = ⟨opWord 1 (BitVec.ofNat 4 p.id) 0, opWord 15 15 0xF8⟩ := by
  cases p <;> rfl

/-- A match with a row, field by field; every mask fixes CLASS (30_encoding.md R93). -/
theorem fields_of_match {w : Half} {c s s' : BitVec 4} {m : Byte}
    (h : w &&& opWord 15 s' m = opWord c s 0) :
    opClass w = c ∧ opSel w &&& s' = s ∧ opArg8 w &&& m = 0 := by
  rw [← opWord_fields w, opWord_and] at h
  obtain ⟨hc, hs, ha⟩ := opWord_inj h
  exact ⟨BitVec.and_allOnes.symm.trans hc, hs, ha⟩

/-- A match with a row whose mask also fixes SEL, which is every row but DESC.READ's (30_encoding.md R93). -/
theorem fields_of_match_sel {w : Half} {c s : BitVec 4} {m : Byte} (h : w &&& opWord 15 15 m = opWord c s 0) :
    opClass w = c ∧ opSel w = s ∧ opArg8 w &&& m = 0 := by
  obtain ⟨hc, hs, ha⟩ := fields_of_match h
  exact ⟨hc, BitVec.and_allOnes.symm.trans hs, ha⟩

/-- ARG8 under the mask of a row: its reserved bits are zero (30_encoding.md R93). -/
theorem reservedBits_of_mask : ∀ arg : Byte,
    (arg &&& 0xF8 = 0 → arg.extractLsb' 3 5 = 0) ∧ (arg &&& 0x7F = 0 → arg.extractLsb' 0 7 = 0)
    ∧ (arg &&& 0x7E = 0 → arg.extractLsb' 1 6 = 0) ∧ (arg &&& 0x7C = 0 → arg.extractLsb' 2 5 = 0)
    ∧ (arg &&& 0xF0 = 0 → arg.extractLsb' 4 4 = 0) ∧ (arg &&& 0xFF = 0 → arg = 0) := by
  decide

/-- A word that matches a row decodes to an operation of the row, its operands read from the word (30_encoding.md
R93). -/
theorem decodeWord_of_match {w : Half} {i : Instr} (hmatch : w &&& i.row.mask = i.row.pattern)
    (hsel : opClass w = 2 → (opSel w).toNat ≤ 8) : ∃ j, decodeWord w = .instr j ∧ j.row = i.row := by
  obtain ⟨hF8, h7F, h7E, h7C, hF0, hFF⟩ := reservedBits_of_mask (opArg8 w)
  cases i using instr_cases with
  | fmt p cmd =>
    rw [row_fmt] at hmatch
    obtain ⟨hc, hs, ha⟩ := fields_of_match_sel hmatch
    refine ⟨.fmt p (Command.ofCode ((opArg8 w).extractLsb' 0 3)), ?_, by simp only [row_fmt]⟩
    simp [decodeWord_fmt hc, decodeFmt, hs, argChecked, hF8 ha]
  | descRead sel =>
    obtain ⟨hc, -, ha⟩ := fields_of_match (c := 2) (s := 0) (s' := 0) (m := 0xFF) hmatch
    refine ⟨.descRead (opSel w), ?_, rfl⟩
    rw [decodeWord_desc hc, hFF ha, decodeDesc_protocol (hsel hc)]
  | bwLow b =>
    obtain ⟨hc, hs, ha⟩ := fields_of_match_sel (c := 3) (s := 0) (m := 0x7F) hmatch
    refine ⟨.bwLow (.ofBit ((opArg8 w).getLsbD 7)), ?_, rfl⟩
    simp [decodeWord_bw hc, decodeBw, hs, argChecked, h7F ha]
  | bwHigh b =>
    obtain ⟨hc, hs, ha⟩ := fields_of_match_sel (c := 3) (s := 1) (m := 0x7F) hmatch
    refine ⟨.bwHigh (.ofBit ((opArg8 w).getLsbD 7)), ?_, rfl⟩
    simp [decodeWord_bw hc, decodeBw, hs, argChecked, h7F ha]
  | bwEdge b o =>
    obtain ⟨hc, hs, ha⟩ := fields_of_match_sel (c := 3) (s := 2) (m := 0x7E) hmatch
    refine ⟨.bwEdge (.ofBit ((opArg8 w).getLsbD 7)) (.ofBit ((opArg8 w).getLsbD 0)), ?_, rfl⟩
    simp [decodeWord_bw hc, decodeBw, hs, argChecked, h7E ha]
  | bwBits b oo zo =>
    obtain ⟨hc, hs, ha⟩ := fields_of_match_sel (c := 3) (s := 3) (m := 0x7C) hmatch
    refine ⟨.bwBits (.ofBit ((opArg8 w).getLsbD 7)) (.ofBit ((opArg8 w).getLsbD 1))
      (.ofBit ((opArg8 w).getLsbD 0)), ?_, rfl⟩
    simp [decodeWord_bw hc, decodeBw, hs, argChecked, h7C ha]
  | rawBasetime acc =>
    obtain ⟨hc, hs, -⟩ := fields_of_match_sel (c := 4) (s := 0) (m := 0) hmatch
    exact ⟨.rawBasetime (opArg8 w), by simp [decodeWord_raw hc, decodeRaw, hs], rfl⟩
  | rawRender =>
    obtain ⟨hc, hs, ha⟩ := fields_of_match_sel (c := 4) (s := 1) (m := 0xFF) hmatch
    exact ⟨.rawRender, by simp [decodeWord_raw hc, decodeRaw, hs, argChecked, hFF ha], rfl⟩
  | rawConvert acc =>
    obtain ⟨hc, hs, -⟩ := fields_of_match_sel (c := 4) (s := 2) (m := 0) hmatch
    exact ⟨.rawConvert (opArg8 w), by simp [decodeWord_raw hc, decodeRaw, hs], rfl⟩
  | stLoad ns =>
    obtain ⟨hc, hs, ha⟩ := fields_of_match_sel (c := 5) (s := 0) (m := 0xF0) hmatch
    refine ⟨.stLoad ((opArg8 w).extractLsb' 0 4), ?_, rfl⟩
    simp [decodeWord_st hc, decodeSt, hs, argChecked, hF0 ha]
  | stStore ns =>
    obtain ⟨hc, hs, ha⟩ := fields_of_match_sel (c := 5) (s := 1) (m := 0xF0) hmatch
    refine ⟨.stStore ((opArg8 w).extractLsb' 0 4), ?_, rfl⟩
    simp [decodeWord_st hc, decodeSt, hs, argChecked, hF0 ha]

/-- A word that decodes to an operation matches the operation's row (30_encoding.md R93). -/
theorem match_of_decodeWord {w : Half} {j : Instr} (h : decodeWord w = .instr j) :
    w &&& j.row.mask = j.row.pattern ∧ (opClass w = 2 → (opSel w).toNat ≤ 8) := by
  obtain ⟨-, hencode⟩ := encode_of_decodeWord h
  refine ⟨hencode ▸ encode_match_row j, fun hc => ?_⟩
  rw [decodeWord_desc hc] at h
  unfold decodeDesc at h
  split at h
  · cases h
  · next p hp => exact le_of_ofId _ p hp

/-- Settles O3: a word is the encoding of what it decodes to, which matches its row; and a word that matches a row has
that row's CLASS and SEL and no reserved bit set. -/
theorem opcodeTableSelectsTheOperation : Obligations.OpcodeTableSelectsTheOperation := by
  refine ⟨fun w i => ⟨?_, fun ⟨hmatch, hsel⟩ => ?_⟩, fun w hnone => ?_⟩
  · rintro ⟨j, hdecode, hrow⟩
    rw [decode_setWidth] at hdecode
    rw [← hrow, ← opSel_toNat, ← opClass_eq_two]
    exact match_of_decodeWord hdecode
  · rw [decode_setWidth]
    rw [← opSel_toNat, ← opClass_eq_two] at hsel
    exact decodeWord_of_match hmatch hsel
  · rw [decode_setWidth]
    cases hdecode : decodeWord w with
    | reserved why => exact ⟨why, rfl⟩
    | instr j =>
      obtain ⟨hmatch, hsel⟩ := match_of_decodeWord hdecode
      obtain ⟨hcls, hlarge⟩ := hnone j hmatch
      rw [← opClass_eq_two] at hcls
      rw [← opSel_toNat] at hlarge
      exact absurd (hsel hcls) (by omega)

/-! ### Reserved encodings -/

/-- The decoder's answer is a reserved encoding (30_encoding.md R96). -/
def isReserved : Decoded → Bool
  | .instr _ => false
  | .reserved _ => true

@[simp] theorem isReserved_instr (i : Instr) : isReserved (.instr i) = false := rfl

@[simp] theorem isReserved_reserved (why : Reserved) : isReserved (.reserved why) = true := rfl

theorem isReserved_eq_true (d : Decoded) : isReserved d = true ↔ ∃ why, d = .reserved why := by
  cases d <;> simp

theorem isReserved_eq_false (d : Decoded) : isReserved d = false ↔ ∃ i, d = .instr i := by
  cases d <;> simp

@[simp] theorem isReserved_argChecked (ok : Bool) (i : Instr) : isReserved (argChecked ok i) = !ok := by
  cases ok <;> rfl

/-- The checks of ARG8's reserved bits, as fields of a number (30_encoding.md R88 to R92). -/
theorem reservedBits_eq : ∀ arg : Byte,
    (!(arg.extractLsb' 3 5 == 0)) = decide (arg.toNat / 8 ≠ 0)
    ∧ (!(arg == 0)) = decide (arg.toNat ≠ 0)
    ∧ (!(arg.extractLsb' 0 7 == 0)) = decide (arg.toNat % 128 ≠ 0)
    ∧ (!(arg.extractLsb' 1 6 == 0)) = decide (arg.toNat / 2 % 64 ≠ 0)
    ∧ (!(arg.extractLsb' 2 5 == 0)) = decide (arg.toNat / 4 % 32 ≠ 0)
    ∧ (!(arg.extractLsb' 4 4 == 0)) = decide (arg.toNat / 16 ≠ 0) := by
  decide

theorem isReserved_decodeFmt (sel : BitVec 4) (arg : Byte) :
    isReserved (decodeFmt sel arg) = (decide (8 < sel.toNat) || !(arg.extractLsb' 3 5 == 0)) := by
  by_cases hsel : 8 < sel.toNat
  · simp [decodeFmt, ofId_eq_none sel hsel, hsel]
  · obtain ⟨p, hp⟩ := exists_protocol_of_le sel (by omega)
    simp [decodeFmt, hp, hsel]

theorem isReserved_decodeDesc (sel : BitVec 4) (arg : Byte) :
    isReserved (decodeDesc sel arg) = (decide (8 < sel.toNat) || !(arg == 0)) := by
  by_cases hsel : 8 < sel.toNat
  · simp [decodeDesc, ofId_eq_none sel hsel, hsel]
  · obtain ⟨p, hp⟩ := exists_protocol_of_le sel (by omega)
    simp [decodeDesc, hp, hsel]

theorem isReserved_decodeSt (sel : BitVec 4) (arg : Byte) :
    isReserved (decodeSt sel arg) = (decide (1 < sel.toNat) || !(arg.extractLsb' 4 4 == 0)) := by
  unfold decodeSt
  split
  · next hsel => simp [hsel]
  · next hsel => simp [hsel]
  · next hsel hsel' => simp [Nat.one_lt_iff_ne_zero_and_ne_one.2 ⟨hsel, hsel'⟩]

/-- For a 16-bit word, the decoder's reserved encodings are those listed field by field (30_encoding.md R87 to
R92). -/
theorem isReserved_decodeWord (w : Half) : isReserved (decodeWord w) = reservedEncoding (w.setWidth 32) := by
  have hw : (w.setWidth 32).toNat = w.toNat := by simp; omega
  have hupper : decide (w.toNat / 65536 ≠ 0) = false := by simp; omega
  have hcls : w.toNat / 4096 % 16 = (opClass w).toNat := by rw [opClass_toNat]; omega
  obtain ⟨hfmt, hall, hbuf, hedge, hbits, hns⟩ := reservedBits_eq (opArg8 w)
  unfold decodeWord reservedEncoding
  simp only [hw, hupper, hcls, ← opSel_toNat, ← opArg8_toNat, Bool.false_or]
  generalize (opClass w).toNat = cls
  match cls with
  | 1 => exact (isReserved_decodeFmt _ _).trans (congrArg _ hfmt)
  | 2 => exact (isReserved_decodeDesc _ _).trans (congrArg _ hall)
  | 3 =>
    unfold decodeBw
    generalize (opSel w).toNat = sel
    match sel with
    | 0 => exact (isReserved_argChecked _ _).trans hbuf
    | 1 => exact (isReserved_argChecked _ _).trans hbuf
    | 2 => exact (isReserved_argChecked _ _).trans hedge
    | 3 => exact (isReserved_argChecked _ _).trans hbits
    | _ + 4 => rfl
  | 4 =>
    unfold decodeRaw
    generalize (opSel w).toNat = sel
    match sel with
    | 0 => rfl
    | 1 => exact (isReserved_argChecked _ _).trans hall
    | 2 => rfl
    | _ + 3 => rfl
  | 5 => exact (isReserved_decodeSt _ _).trans (congrArg _ hns)
  | 0 => rfl
  | _ + 6 => rfl

/-- The decoder's reserved encodings are those listed field by field (30_encoding.md R96). -/
theorem isReserved_decode (v : Word) : isReserved (decode v) = reservedEncoding v := by
  by_cases hv : v.toNat < 2 ^ 16
  · rw [← setWidth_setWidth_of_lt hv, decode_setWidth, isReserved_decodeWord]
  · have hupper : v.toNat / 65536 ≠ 0 := by omega
    cases hdecode : decode v with
    | instr i => exact absurd (lt_of_decode_eq_instr hdecode) hv
    | reserved why => simp [reservedEncoding, hupper]

/-- A ready block ends ILLEGAL_OPERATION on a word that does not decode (30_encoding.md R96). -/
theorem step_reserved {s : State} {v : Word} {rest : List Input} {why : Reserved} (hready : s.ready = true)
    (hinbox : s.inbox = issueWord v :: rest) (hdecode : decode v = .reserved why) :
    step s = .next (complete .illegalOperation { s with inbox := rest, opw := v.setWidth 16 }) := by
  obtain ⟨⟨hwf, hfault⟩, hpending⟩ : (s.cfg.wf = true ∧ s.fault = none) ∧ s.pending = none := by
    simpa [State.ready] using hready
  calc step s
      = act (issueWord v) { s with inbox := rest } := step_input s _ rest hwf hpending hinbox
    _ = startOperation v { s with inbox := rest } := act_issueWord _ v hwf
    _ = .next (complete .illegalOperation { s with inbox := rest, opw := v.setWidth 16 }) := by
      simp [startOperation, State.faulted, hfault, hdecode]

/-- Settles O6: a reserved encoding is a value the decoder rejects, and the block ends there. -/
theorem reservedEncodingsEndIllegalOperation : Obligations.ReservedEncodingsEndIllegalOperation := by
  refine ⟨fun s v rest hready hinbox hreserved => ⟨v.setWidth 16, ?_, fun hv => ?_⟩, fun v hlegal => ?_⟩
  · obtain ⟨why, hdecode⟩ := (isReserved_eq_true _).1 ((isReserved_decode v).trans hreserved)
    exact step_reserved hready hinbox hdecode
  · simpa using Nat.mod_eq_of_lt hv
  · exact (isReserved_eq_false _).1 ((isReserved_decode v).trans hlegal)

/-! ### Reserved operand values -/

/-- An operation whose operand reads succeed and whose next check finds a reserved value ends ILLEGAL_OPERATION
(30_encoding.md R97). -/
theorem withOperands_reserved {α : Type} {o : Option α} {s : State} {k : α → State} (hread : o.isSome = true)
    (hcheck : ∀ x, o = some x → k x = complete .illegalOperation s) :
    (.next (withOperands o s k) : Host.Outcome State Fault Refusal) = .next (complete .illegalOperation s) := by
  obtain ⟨x, rfl⟩ := Option.isSome_iff_exists.1 hread
  rw [withOperands_some, hcheck x rfl]

theorem fmtFixed_reserved {s : State} {dl : Word} (h : s.cfg.bufBytes < dl.toNat) (p : Protocol) (cmd : Command)
    (f : Frame) : fmtFixed p cmd dl f s = complete .illegalOperation s := by
  simp [fmtFixed, fmtRefusal, h]

theorem fmtRolling_reserved {s : State} {dl : Word} (h : s.cfg.bufBytes < dl.toNat) (codec : Rolling) (cmd : Command)
    (r d : Word) : fmtRolling codec cmd r d dl s = complete .illegalOperation s := by
  simp [fmtRolling, fmtRefusal, h]

/-- What RAW.RENDER reads besides its timing (44_raw_engine.md R211). -/
theorem operandsRender_registers {s : State} {o : RenderOperands} (h : s.operandsRender = some o) :
    s.a0 = some o.base ∧ s.a1 = some o.count ∧ s.a2 = some o.dataLen := by
  simp only [State.operandsRender, Option.bind_eq_bind, Option.bind_eq_some_iff, Option.some.injEq] at h
  obtain ⟨t, -, fc, -, r, hr, rfl⟩ := h
  exact (operands012_eq_some s r).1 hr

/-- What RAW.CONVERT reads besides its timing (44_raw_engine.md R212). -/
theorem operandsConvert_registers {s : State} {o : ConvertOperands} (h : s.operandsConvert = some o) :
    s.a1 = some o.count ∧ s.a2 = some o.dataLen := by
  simp only [State.operandsConvert, Option.bind_eq_bind, Option.bind_eq_some_iff, Option.some.injEq] at h
  obtain ⟨t, -, fc, -, r, hr, rfl⟩ := h
  exact (operands12_eq_some s r).1 hr

/-- Settles O21: the operands an operation reads are its registers, and its first check after the reads is the one
for reserved values. -/
theorem reservedOperandsEndIllegalOperation : Obligations.ReservedOperandsEndIllegalOperation := by
  intro i s hwritten hreserved
  cases i with
  | fmtOtax _ | fmtDio _ | fmtHomeeasy _ | fmtSumtech _ | fmtAuchan _ | fmtAuchan2 _ =>
    refine withOperands_reserved ((operands012_isSome s).trans hwritten) fun o ho => ?_
    obtain ⟨-, -, hdl⟩ := (operands012_eq_some s o).1 ho
    exact fmtFixed_reserved (by simpa [reservedOperand, hdl] using hreserved) _ _ _
  | fmtIdk _ =>
    refine withOperands_reserved ((operands12_isSome s).trans hwritten) fun o ho => ?_
    obtain ⟨-, hdl⟩ := (operands12_eq_some s o).1 ho
    exact fmtFixed_reserved (by simpa [reservedOperand, hdl] using hreserved) _ _ _
  | fmtSomfy _ | fmtBlyss _ =>
    refine withOperands_reserved ((operands012_isSome s).trans hwritten) fun o ho => ?_
    obtain ⟨-, -, hdl⟩ := (operands012_eq_some s o).1 ho
    exact fmtRolling_reserved (by simpa [reservedOperand, hdl] using hreserved) _ _ _ _
  | descRead _ | bwLow _ | bwHigh _ | bwEdge _ _ => cases hreserved
  | bwBits _ _ _ =>
    refine withOperands_reserved ((operandsBits_isSome s).trans hwritten) fun o ho => if_pos ?_
    obtain ⟨-, -, hlen, -⟩ := (operandsBits_eq_some s o).1 ho
    simpa [reservedOperand, hlen] using hreserved
  | rawBasetime acc =>
    exact withOperands_reserved ((durations_isSome s.tcfg).trans hwritten) fun _ _ =>
      if_pos (of_decide_eq_true hreserved)
  | rawRender =>
    refine withOperands_reserved (by simpa [operandsWritten, and_assoc] using hwritten) fun o ho => if_pos ?_
    obtain ⟨hbase, hcount, hdl⟩ := operandsRender_registers ho
    have hvalues : (0xFFFF < o.base.toNat ∨ 8 * s.cfg.bufBytes < o.count.toNat)
        ∨ s.cfg.bufBytes < o.dataLen.toNat := by
      simpa [reservedOperand, hbase, hcount, hdl] using hreserved
    tauto
  | rawConvert acc =>
    refine withOperands_reserved (by simpa [operandsWritten, and_assoc] using hwritten) fun o ho => if_pos ?_
    obtain ⟨hcount, hdl⟩ := operandsConvert_registers ho
    have hvalues : (100 < acc.toNat ∨ 8 * s.cfg.bufBytes < o.count.toNat)
        ∨ s.cfg.bufBytes < o.dataLen.toNat := by
      simpa [reservedOperand, hcount, hdl] using hreserved
    tauto
  | stLoad ns =>
    refine withOperands_reserved ((operands01_isSome s).trans hwritten) fun _ _ => ?_
    simp [ofId_eq_none ns (of_decide_eq_true hreserved)]
  | stStore ns =>
    refine withOperands_reserved ((operands012_isSome s).trans hwritten) fun o ho => ?_
    obtain ⟨-, -, hvalue⟩ := (operands012_eq_some s o).1 ho
    obtain hns | hlarge : 8 < ns.toNat ∨ 0xFFFF < o.2.2.toNat := by
      simpa [reservedOperand, hvalue] using hreserved
    · simp [ofId_eq_none ns hns]
    · split
      · rfl
      · exact if_pos hlarge

/-! ### Written-out words and lines -/

/-- Settles O4: each word is the encoding of its operation. -/
theorem writtenOutWordsDecode : Obligations.WrittenOutWordsDecode :=
  ⟨decodeUndoesEncode (.fmtOtax .on) rfl, decodeUndoesEncode (.fmtBlyss .f2) rfl,
    decodeUndoesEncode (.descRead 7) rfl, decodeUndoesEncode (.bwHigh .buf1) rfl,
    decodeUndoesEncode (.bwBits .buf0 .hl .lh) rfl, decodeUndoesEncode (.bwBits .buf1 .lh .hl) rfl,
    decodeUndoesEncode (.rawBasetime 90) rfl, decodeUndoesEncode (.rawConvert 90) rfl,
    decodeUndoesEncode (.stLoad 8) rfl, decodeUndoesEncode (.stStore 7) rfl⟩

/-- Settles O5: each line is a closed text, which the model evaluates. -/
theorem assemblerExamplesAssemble : Obligations.AssemblerExamplesAssemble := by
  refine ⟨?_, ?_, ?_, ?_, ?_, ?_⟩ <;> decide

end Sys2Proof.Proofs
end

section
/-! PROOFS. The statements of the family 40_bitwriter.md: the bits of an edge pattern and of a run of data bits
(R113, R117), what a BitWriter write changes and when it faults (R111, R112, R118), and the four operations (R114 to
R117). -/

namespace Sys2Proof.Proofs

open Sys2Proof Sys2Proof.Machine Sys2Proof.Laws

/-! ### The bits of the patterns -/

theorem lowRun_getElem? {n q : Nat} (hq : q < n) : (lowRun n)[q]? = some false :=
  List.getElem?_replicate_of_lt hq

theorem highRun_getElem? {n q : Nat} (hq : q < n) : (highRun n)[q]? = some true :=
  List.getElem?_replicate_of_lt hq

/-- The bits of an edge pattern in either order (40_bitwriter.md R113). -/
theorem edge_getElem? (o : Order) {h l q : Nat} (hq : q < h + l) : (edge o h l)[q]? = some (edgeLevel o h l q) := by
  cases o with
  | hl =>
    obtain hhigh | hlow := Nat.lt_or_ge q h
    · rw [edge, List.getElem?_append_left (by simpa using hhigh), highRun_getElem? hhigh]
      simp [edgeLevel, hhigh]
    · rw [edge, List.getElem?_append_right (by simpa using hlow), highRun_length, lowRun_getElem? (by omega)]
      simp [edgeLevel, hlow]
  | lh =>
    obtain hlow | hhigh := Nat.lt_or_ge q l
    · rw [edge, List.getElem?_append_left (by simpa using hlow), lowRun_getElem? hlow]
      simp [edgeLevel, hlow]
    · rw [edge, List.getElem?_append_right (by simpa using hhigh), lowRun_length, highRun_getElem? (by omega)]
      simp [edgeLevel, hhigh]

/-! ### The bits of BW.BITS -/

/-- The operands as BW.BITS reads them from A0 to A6. -/
def caseOperands (c : BitsCase) : BitsOperands where
  off := c.off
  data := c.data
  len := c.len
  zeroH := c.zeroH
  zeroL := c.zeroL
  oneH := c.oneH
  oneL := c.oneL

/-- The edge pattern of a data bit of value `b`. -/
def casePattern (c : BitsCase) (b : Bool) : Frame :=
  if b then edge c.oneOrder c.oneH.toNat c.oneL.toNat else edge c.zeroOrder c.zeroH.toNat c.zeroL.toNat

/-- The data bits, most significant first. -/
def caseBits (c : BitsCase) : Frame := seqBits c.len.toNat c.data.toNat

/-- The bits BW.BITS writes for the operands. -/
def caseFrame (c : BitsCase) : Frame := (caseOperands c).frame c.oneOrder c.zeroOrder

section BitsCase
variable (c : BitsCase) {i q : Nat}

theorem operandsBits_of_holds {s : State} (h : c.holds s) : s.operandsBits = some (caseOperands c) :=
  (operandsBits_eq_some s _).2 h

/-- The bits written are the patterns of the data bits, one after the other (40_bitwriter.md R113). -/
theorem caseFrame_eq : caseFrame c = (caseBits c).flatMap (casePattern c) := rfl

@[simp] theorem caseBits_length : (caseBits c).length = c.len.toNat := seqBits_length _ _

theorem caseBits_getElem? (hi : i < c.len.toNat) : (caseBits c)[i]? = some (c.bit i) :=
  seqBits_getElem? _ _ i hi

theorem casePattern_bit_length (i : Nat) : (casePattern c (c.bit i)).length = c.size i := by
  unfold casePattern BitsCase.size
  split <;> exact edge_length _ _ _

theorem casePattern_bit_getElem? (hq : q < c.size i) : (casePattern c (c.bit i))[q]? = some (c.level i q) := by
  unfold BitsCase.size at hq
  unfold casePattern BitsCase.level
  split at hq
  case isTrue hone => rw [if_pos hone, if_pos hone, edge_getElem? _ hq]
  case isFalse hzero => rw [if_neg hzero, if_neg hzero, edge_getElem? _ hq]

/-- The patterns of the first `i` data bits end where that of data bit `i` begins. -/
theorem casePatterns_take_length (hi : i ≤ c.len.toNat) :
    (((caseBits c).take i).flatMap (casePattern c)).length = c.place i := by
  induction i with
  | zero => simp [BitsCase.place]
  | succ i ih =>
    rw [List.take_add_one, caseBits_getElem? c hi, Option.toList_some, List.flatMap_append,
      List.flatMap_singleton, List.length_append, ih (Nat.le_of_succ_le hi), casePattern_bit_length]
    exact (Finset.sum_range_succ c.size i).symm

theorem caseFrame_length : (caseFrame c).length = c.total := by
  have hall : (caseBits c).take c.len.toNat = caseBits c := List.take_of_length_le (caseBits_length c).le
  rw [caseFrame_eq, BitsCase.total, ← casePatterns_take_length c le_rfl, hall]

/-- The length formula of 40_bitwriter.md R117 is the sum of the sizes of the patterns. -/
theorem caseOperands_total : (caseOperands c).total = c.total :=
  (bitsFrame_length (caseOperands c) c.oneOrder c.zeroOrder).symm.trans (caseFrame_length c)

/-- The pattern of data bit `i` stands at its place. -/
theorem caseFrame_getElem? (hi : i < c.len.toNat) (hq : q < c.size i) :
    (caseFrame c)[c.place i + q]? = some (c.level i q) := by
  have hbit : (caseBits c)[i]? = some (c.bit i) := caseBits_getElem? c hi
  have hsplit : caseBits c = (caseBits c).take i ++ c.bit i :: (caseBits c).drop (i + 1) := by
    obtain ⟨hlt, hget⟩ := List.getElem?_eq_some_iff.1 hbit
    rw [← hget, List.getElem_cons_drop, List.take_append_drop]
  rw [caseFrame_eq, hsplit, List.flatMap_append, List.flatMap_cons, ← casePatterns_take_length c hi.le,
    List.getElem?_append_right (Nat.le_add_right _ _), Nat.add_sub_cancel_left,
    List.getElem?_append_left ((casePattern_bit_length c i).symm ▸ hq), casePattern_bit_getElem? c hq]

end BitsCase

/-! ### What a BitWriter write does -/

/-- Past the capacity nothing is written (40_bitwriter.md R112). -/
theorem bwWrite_of_gt (b : BufSel) {off n : Nat} (f : Frame) {s : State} (h : 8 * s.cfg.bufBytes < off + n) :
    bwWrite b off n f s = raiseFault .outOfBounds s := if_pos h

/-- Within the capacity the run is written, and nothing else but RES0 and STATUS (40_bitwriter.md R111, R118). -/
theorem writesRun_bwWrite {b : BufSel} {off n : Nat} {f : Frame} {s : State} {g : Nat → Bool}
    (hfits : off + n ≤ 8 * s.cfg.bufBytes) (hlen : f.length = n) (hbits : ∀ q, q < n → f[q]? = some (g q)) :
    WritesRun s (bwWrite b off n f s) b off n g := by
  have hend : bwWrite b off n f s = complete .ok
      { s.withBuffer b (Memory.write (s.buffer b) off f) with res0 := BitVec.ofNat 32 n } :=
    if_neg (by omega)
  have hbuffer : (bwWrite b off n f s).buffer b = Memory.write (s.buffer b) off f := by
    rw [hend]
    cases b <;> rfl
  refine ⟨?_, fun q hq => ?_, fun k hk => ?_⟩
  · rw [hbuffer, hend]
    rfl
  · rw [hbuffer, read_write_self _ _ _ _ (hlen ▸ hq), hbits q hq]
  · rw [hbuffer, read_write_other _ _ _ _ (hlen ▸ hk)]

/-! ### The operations with their operands written -/

theorem exec_bwLow {s : State} {off n : Word} (buf : BufSel) (h0 : s.a0 = some off) (h1 : s.a1 = some n) :
    exec (.bwLow buf) s = .next (bwWrite buf off.toNat n.toNat (lowRun n.toNat) s) := by
  have hoperands : s.operands01 = some (off, n) := (operands01_eq_some s _).2 ⟨h0, h1⟩
  exact congrArg Host.Outcome.next (by rw [bwLow, hoperands, withOperands_some])

theorem exec_bwHigh {s : State} {off n : Word} (buf : BufSel) (h0 : s.a0 = some off) (h1 : s.a1 = some n) :
    exec (.bwHigh buf) s = .next (bwWrite buf off.toNat n.toNat (highRun n.toNat) s) := by
  have hoperands : s.operands01 = some (off, n) := (operands01_eq_some s _).2 ⟨h0, h1⟩
  exact congrArg Host.Outcome.next (by rw [bwHigh, hoperands, withOperands_some])

theorem exec_bwEdge {s : State} {off h l : Word} (buf : BufSel) (order : Order) (h0 : s.a0 = some off)
    (h1 : s.a1 = some h) (h2 : s.a2 = some l) :
    exec (.bwEdge buf order) s
      = .next (bwWrite buf off.toNat (h.toNat + l.toNat) (edge order h.toNat l.toNat) s) := by
  have hoperands : s.operands012 = some (off, h, l) := (operands012_eq_some s _).2 ⟨h0, h1, h2⟩
  exact congrArg Host.Outcome.next (by rw [bwEdge, hoperands, withOperands_some])

theorem exec_bwBits {s : State} {c : BitsCase} (buf : BufSel) (h : c.holds s) (hlen : c.len.toNat ≤ 32) :
    exec (.bwBits buf c.oneOrder c.zeroOrder) s = .next (bwWrite buf c.off.toNat c.total (caseFrame c) s) := by
  have hwrite : bwBits buf c.oneOrder c.zeroOrder s = bwWrite buf c.off.toNat c.total (caseFrame c) s := by
    rw [bwBits, operandsBits_of_holds c h, withOperands_some, caseOperands_total]
    exact if_neg (Nat.not_lt.2 hlen)
  exact congrArg Host.Outcome.next hwrite

/-! ### The statements -/

/-- Settles O25: each run is a write of `n` equal bits. -/
theorem runsWriteTheirBits : Obligations.RunsWriteTheirBits := by
  intro buf s off n h0 h1 hfits
  exact ⟨⟨_, exec_bwLow buf h0 h1, writesRun_bwWrite hfits (lowRun_length _) fun _ => lowRun_getElem?⟩,
    ⟨_, exec_bwHigh buf h0 h1, writesRun_bwWrite hfits (highRun_length _) fun _ => highRun_getElem?⟩⟩

/-- Settles O26: the write is one edge pattern. -/
theorem edgeWritesItsPattern : Obligations.EdgeWritesItsPattern := by
  intro buf order s off h l h0 h1 h2 hfits
  rw [Nat.add_assoc] at hfits
  exact ⟨_, exec_bwEdge buf order h0 h1 h2,
    writesRun_bwWrite hfits (edge_length order _ _) fun _ => edge_getElem? order⟩

/-- Settles O27: the write is the patterns of the data bits, each at its place. -/
theorem dataBitsWriteTheirPatterns : Obligations.DataBitsWriteTheirPatterns := by
  intro buf s c hholds hlen hfits
  refine ⟨_, fun k => (caseFrame c)[k]?.getD false, exec_bwBits buf hholds hlen,
    writesRun_bwWrite hfits (caseFrame_length c) fun k hk => ?_, fun i q hi hq => ?_⟩
  · simp [(caseFrame_length c).symm ▸ hk]
  · simp [caseFrame_getElem? c hi hq]

/-- Settles O28: every operation compares its whole length with the capacity before it writes. -/
theorem outOfBoundsFaultsBeforeWriting : Obligations.OutOfBoundsFaultsBeforeWriting := by
  refine ⟨fun buf s off n h0 h1 hbeyond => ⟨?_, ?_⟩, fun buf order s off h l h0 h1 h2 hbeyond => ?_,
    fun buf s c hholds hlen hbeyond => ?_⟩
  · exact (exec_bwLow buf h0 h1).trans (congrArg _ (bwWrite_of_gt buf _ hbeyond))
  · exact (exec_bwHigh buf h0 h1).trans (congrArg _ (bwWrite_of_gt buf _ hbeyond))
  · rw [Nat.add_assoc] at hbeyond
    exact (exec_bwEdge buf order h0 h1 h2).trans (congrArg _ (bwWrite_of_gt buf _ hbeyond))
  · exact (exec_bwBits buf hholds hlen).trans (congrArg _ (bwWrite_of_gt buf _ hbeyond))

end Sys2Proof.Proofs
end

section
/-! PROOFS. The statements of the family 41_codec_common.md: the constants of the codecs (R127, R128, R137), the checks
of the FMT pipeline (R129 to R132), what a stateless frame depends on (R135, R142), the failures of the store step
(R136) and the descriptors (R140, R141). -/

namespace Sys2Proof.Proofs

open Sys2Proof Sys2Proof.Machine Sys2Proof.Laws

/-! ### The constants of the codecs -/

/-- Settles O29: each row of the tables is a row of the model's definitions. -/
theorem codecConstantsAreTheTables : Obligations.CodecConstantsAreTheTables := by
  refine fun c => ⟨?lengths, ?commands, fun row hrow => ?timing⟩
  case lengths => simp [frameBits]
  case commands => simp [accepted]
  case timing =>
    have htiming : timingOf c row.1 = openTiming row.2 := by
      revert row
      simp [timingOf, openTiming]
    exact htiming

/-! ### Descriptors -/

/-- RES2 of each codec as the table of 41_codec_common.md R140 writes it out, for Somfy with the length by R127's
formula (log 20). -/
def descriptorTable (c : Config) : Protocol → Word
  | .otax => 0x00190F07
  | .dio => 0x00400F07
  | .homeeasy => 0x00390307
  | .idk => 0x00190206
  | .sumtech => 0x00200307
  | .auchan => 0x00190307
  | .auchan2 => 0x00150F07
  | .somfy => BitVec.ofNat 32 ((213 + 225 * (c.somfyN - 1)) * 2 ^ 16 + 0x3307)
  | .blyss => 0x00340F07

theorem descriptorWord_eq_table (c : Config) (p : Protocol) : descriptorWord c p = descriptorTable c p := by
  cases p with
  | somfy =>
    have hmasks : acceptedMask .somfy * 2 ^ 8 + requiredMask .somfy = 0x3307 := rfl
    rw [descriptorWord, Nat.add_assoc, hmasks, frameBits, descriptorTable]
  | otax | dio | homeeasy | idk | sumtech | auchan | auchan2 | blyss =>
    rw [descriptorWord, frameBits]
    rfl

/-- DESC.READ of a protocol writes that protocol's row of the descriptor ROM (41_codec_common.md R141). -/
theorem exec_descRead {sel : BitVec 4} {p : Protocol} (hsel : Protocol.ofId sel = some p) (s : State) :
    exec (.descRead sel) s = .next (withDescriptor s (remoteMax s.cfg p) (deviceMax s.cfg p)
      (descriptorTable s.cfg p) (timingOf s.cfg p)) := by
  simp [exec, execDescRead, descRead, hsel, descriptorWord_eq_table, complete, withDescriptor]

/-- DESC.READ of a SEL that names no protocol (41_codec_common.md R141; log 25). -/
theorem exec_descRead_reserved {sel : BitVec 4} (hsel : Protocol.ofId sel = none) (s : State) :
    exec (.descRead sel) s = .next (complete .illegalOperation s) := by
  simp [exec, execDescRead, descRead, hsel]

/-- The default TIMING_DIO in its registers, as 41_codec_common.md R137 writes it out. -/
theorem timingOf_dio_standard {c : Config} (horder : c.dioOrder = Config.standard.dioOrder)
    (hdurations : c.dioDurations = Config.standard.dioDurations) :
    timingOf c .dio = ⟨some 0, some 0x01040A78, some 0x01042328, some 0x01040104, some 0x01040514, some 0,
      some c.frameCountDio⟩ := by
  rw [timingOf, horder, hdurations]
  rfl

/-- Settles O45: each SEL up to 8 selects its protocol's row of the ROM, and one above 8 selects none. -/
theorem descReadWritesTheDescriptor : Obligations.DescReadWritesTheDescriptor := by
  intro s
  refine ⟨exec_descRead (p := .otax) rfl s, exec_descRead (p := .dio) rfl s, fun horder hdurations => ?dio,
    exec_descRead (p := .homeeasy) rfl s, exec_descRead (p := .idk) rfl s, exec_descRead (p := .sumtech) rfl s,
    exec_descRead (p := .auchan) rfl s, exec_descRead (p := .auchan2) rfl s, exec_descRead (p := .somfy) rfl s,
    fun hN => ?somfyWord, exec_descRead (p := .blyss) rfl s,
    fun sel hsel => exec_descRead_reserved (ofId_eq_none sel hsel) s⟩
  case dio =>
    rw [← timingOf_dio_standard horder hdurations]
    exact exec_descRead (p := .dio) rfl s
  case somfyWord =>
    rw [hN]
    rfl

/-! ### A FMT as its pipeline -/

/-- The frame of a codec that does not read the store, a function of the operands and the command
(41_codec_common.md R135). The frame of Somfy or Blyss needs the value read and is `FmtJob.frame`. -/
def fixedFrame (c : Config) (p : Protocol) (r d : Word) (cmd : Command) : Frame :=
  match p with
  | .otax => encOtax c r d cmd
  | .dio => encDio c r d cmd
  | .homeeasy => encHomeeasy c r d cmd
  | .idk => encIdk d
  | .sumtech => encSumtech c r d cmd
  | .auchan => encAuchan c r d cmd
  | .auchan2 => encAuchan2 c r d cmd
  | .somfy | .blyss => []

/-- A stateless frame has its codec's length (41_codec_common.md R127). -/
theorem fixedFrame_length {p : Protocol} (hp : statelessCodec p = true) (c : Config) (r d : Word)
    (cmd : Command) : (fixedFrame c p r d cmd).length = frameBits c p := by
  cases p with
  | otax | dio | homeeasy | idk | sumtech | auchan | auchan2 => simp [fixedFrame, frameBits]
  | somfy | blyss => cases hp

/-- A codec uses the store or it does not (41_codec_common.md R136). -/
theorem stateless_or_rolling (p : Protocol) :
    statelessCodec p = true ∨ ∃ codec : Rolling, codec.protocol = p := by
  cases p with
  | otax | dio | homeeasy | idk | sumtech | auchan | auchan2 => exact .inl rfl
  | somfy => exact .inr ⟨.somfy, rfl⟩
  | blyss => exact .inr ⟨.blyss, rfl⟩

/-- The operand reads of a FMT: A1 and A2, and A0 for every codec but Idk (41_codec_common.md R129, R142). -/
theorem operandsWritten_fmt {p : Protocol} {cmd : Command} {s : State} :
    operandsWritten s (Instr.fmt p cmd) = true ↔
      ∃ r d dl, (p = .idk ∨ s.a0 = some r) ∧ s.a1 = some d ∧ s.a2 = some dl := by
  cases p with
  | idk => simp [Instr.fmt, operandsWritten, Option.isSome_iff_exists]
  | otax | dio | homeeasy | sumtech | auchan | auchan2 | somfy | blyss =>
    simp [Instr.fmt, operandsWritten, Option.isSome_iff_exists, and_assoc]

theorem withOperands_of_eq_some {α : Type} {o : Option α} {x : α} (h : o = some x) (s : State) (k : α → State) :
    withOperands o s k = k x := by
  rw [h, withOperands_some]

/-- A stateless FMT with its operands written runs the checks and writes its frame (41_codec_common.md R129). -/
theorem exec_fmt_stateless {p : Protocol} {s : State} {r d dl : Word} (hp : statelessCodec p = true)
    (cmd : Command) (h0 : p = .idk ∨ s.a0 = some r) (h1 : s.a1 = some d) (h2 : s.a2 = some dl) :
    exec (Instr.fmt p cmd) s = .next (fmtFixed p cmd dl (fixedFrame s.cfg p r d cmd) s) := by
  cases p with
  | idk =>
    have hoperands : s.operands12 = some (d, dl) := (operands12_eq_some s _).2 ⟨h1, h2⟩
    exact congrArg Host.Outcome.next (withOperands_of_eq_some hoperands s _)
  | otax | dio | homeeasy | sumtech | auchan | auchan2 =>
    have hoperands : s.operands012 = some (r, d, dl) :=
      (operands012_eq_some s _).2 ⟨h0.resolve_left (by decide), h1, h2⟩
    exact congrArg Host.Outcome.next (withOperands_of_eq_some hoperands s _)
  | somfy | blyss => cases hp

/-! ### The checks of a FMT -/

theorem fmtRefusal_of_capacity {c : Config} {dl : Word} (h : c.bufBytes < dl.toNat) (p : Protocol)
    (cmd : Command) : fmtRefusal c p cmd dl = some .illegalOperation :=
  if_pos h

theorem fmtRefusal_of_length {c : Config} {p : Protocol} {dl : Word} (hcap : dl.toNat ≤ c.bufBytes)
    (h : 8 * dl.toNat < frameBits c p) (cmd : Command) : fmtRefusal c p cmd dl = some .bufferTooSmall := by
  rw [fmtRefusal, if_neg (Nat.not_lt.2 hcap), if_pos h]

theorem fmtRefusal_of_command {c : Config} {p : Protocol} {cmd : Command} {dl : Word}
    (hcap : dl.toNat ≤ c.bufBytes) (hfits : frameBits c p ≤ 8 * dl.toNat) (h : cmd ∉ accepted p) :
    fmtRefusal c p cmd dl = some .unsupportedCommand := by
  rw [fmtRefusal, if_neg (Nat.not_lt.2 hcap), if_neg (Nat.not_lt.2 hfits), if_neg h]

theorem fmtFixed_of_refusal {p : Protocol} {cmd : Command} {dl : Word} {s : State} {c : Status}
    (h : fmtRefusal s.cfg p cmd dl = some c) (f : Frame) : fmtFixed p cmd dl f s = complete c s := by
  simp [fmtFixed, h]

theorem fmtRolling_of_refusal {codec : Rolling} {cmd : Command} {dl : Word} {s : State} {c : Status}
    (h : fmtRefusal s.cfg codec.protocol cmd dl = some c) (r d : Word) :
    fmtRolling codec cmd r d dl s = complete c s := by
  simp [fmtRolling, h]

/-- Whatever the codec, a check that fails ends the FMT with its status before anything is written
(41_codec_common.md R129). -/
theorem exec_fmt_of_refusal {p : Protocol} {cmd : Command} {s : State} {dl : Word} {c : Status}
    (hwritten : operandsWritten s (Instr.fmt p cmd) = true) (h2 : s.a2 = some dl)
    (hrefused : fmtRefusal s.cfg p cmd dl = some c) : exec (Instr.fmt p cmd) s = .next (complete c s) := by
  obtain ⟨r, d, dl', h0, h1, h2'⟩ := operandsWritten_fmt.1 hwritten
  obtain rfl : dl' = dl := Option.some.inj (h2'.symm.trans h2)
  obtain hp | ⟨codec, rfl⟩ := stateless_or_rolling p
  · rw [exec_fmt_stateless hp cmd h0 h1 h2, fmtFixed_of_refusal hrefused]
  · have h0 : s.a0 = some r := h0.resolve_left (by cases codec <;> decide)
    rw [exec_fmt_rolling codec cmd h0 h1 h2, fmtRolling_of_refusal hrefused]

/-- Settles O30: the first check that fails gives the status. -/
theorem formatChecksInOrder : Obligations.FormatChecksInOrder := fun p cmd _ _ hwritten h2 =>
  ⟨fun hbeyond => exec_fmt_of_refusal hwritten h2 (fmtRefusal_of_capacity hbeyond p cmd),
    fun hcap hshort => exec_fmt_of_refusal hwritten h2 (fmtRefusal_of_length hcap hshort cmd),
    fun hcap hfits hcmd => exec_fmt_of_refusal hwritten h2 (fmtRefusal_of_command hcap hfits hcmd)⟩

/-! ### What a stateless frame depends on -/

/-- The inversion of a stateless FMT that ended OK: its operands were written and it emitted their frame
(41_codec_common.md R129, R133). -/
theorem fmtEmit_of_exec_ok {p : Protocol} {cmd : Command} {s t : State} (hp : statelessCodec p = true)
    (hexec : exec (Instr.fmt p cmd) s = .next t) (hfault : t.fault = none) (hstatus : t.status = .ok) :
    ∃ r d, (p = .idk ∨ s.a0 = some r) ∧ s.a1 = some d ∧ t = fmtEmit p (fixedFrame s.cfg p r d cmd) s := by
  cases hwritten : operandsWritten s (Instr.fmt p cmd) with
  | false =>
    cases hexec.symm.trans (unwrittenOperandFaults _ s hwritten)
    cases hfault
  | true =>
    obtain ⟨r, d, dl, h0, h1, h2⟩ := operandsWritten_fmt.1 hwritten
    cases hexec.symm.trans (exec_fmt_stateless hp cmd h0 h1 h2)
    obtain ⟨c, hrefused, hend⟩ | ⟨-, hend⟩ := fmtFixed_cases p cmd dl (fixedFrame s.cfg p r d cmd) s
    · rw [hend, complete_status] at hstatus
      exact absurd (hstatus ▸ hrefused) (fmtRefusal_ne_ok s.cfg p cmd dl)
    · exact ⟨r, d, h0, h1, hend⟩

/-- The remote operand plays no part in the Idk frame (41_codec_common.md R142). -/
theorem fixedFrame_idk (c : Config) (r r' d : Word) (cmd : Command) :
    fixedFrame c .idk r d cmd = fixedFrame c .idk r' d cmd := rfl

/-- Settles O40: both FMT operations emit the frame of their operands, and those agree where the frame depends on
them. -/
theorem statelessFormatsDependOnOperandsOnly : Obligations.StatelessFormatsDependOnOperandsOnly := by
  intro p cmd s s' t t' hp hcfg hremote hdevice hexec hexec' hfault hstatus hfault' hstatus' k hk
  obtain ⟨r, d, h0, h1, rfl⟩ := fmtEmit_of_exec_ok hp hexec hfault hstatus
  obtain ⟨r', d', h0', h1', rfl⟩ := fmtEmit_of_exec_ok hp hexec' hfault' hstatus'
  obtain rfl : d = d' := Option.some.inj (by rw [← h1, hdevice, h1'])
  have hframe : fixedFrame s.cfg p r d cmd = fixedFrame s'.cfg p r' d cmd := by
    rw [hcfg]
    by_cases hidk : p = .idk
    · subst hidk
      exact fixedFrame_idk _ r r' d cmd
    · obtain rfl : r = r' := Option.some.inj (by
        rw [← h0.resolve_left hidk, hremote.resolve_left hidk, h0'.resolve_left hidk])
      rfl
  obtain ⟨-, hwrites, -⟩ := writesFrame_fmtEmit (s := s) (fixedFrame_length hp s.cfg r d cmd)
  obtain ⟨-, hwrites', -⟩ := writesFrame_fmtEmit (s := s') (fixedFrame_length hp s'.cfg r' d cmd)
  rw [hwrites k hk, hwrites' k (hcfg ▸ hk), hframe]

/-! ### A store access the medium refuses -/

theorem afterStoreRead_of_failure {s : State} (h : s.nextAnswer = false) (key : StoreKey) :
    s.afterStoreRead key = s.takeAnswer := by
  simp [State.afterStoreRead, h]

theorem afterStoreWrite_of_failure {s : State} (h : s.nextAnswer = false) (key : StoreKey) (v : Half) :
    s.afterStoreWrite key v = s.takeAnswer := by
  simp [State.afterStoreWrite, h]

/-- The medium's answers do not depend on the records. -/
theorem takeAnswer_withStore (s : State) (m : ReplayStore) :
    { s with store := m }.takeAnswer = { s.takeAnswer with store := m } := by
  cases h : s.answers <;> simp [State.takeAnswer, h]

theorem withPending_none {s : State} (h : s.pending = none) : { s with pending := none } = s := by
  rw [← h]

/-- After a successful read of `key`, each record in terms of its own former value (45_replay_store.md R226). -/
theorem find_touch_getD (m : ReplayStore) (key k : StoreKey) :
    ReplayStore.find (ReplayStore.touch m key) k
      = if k = key then some ((ReplayStore.find m k).getD 0) else ReplayStore.find m k := by
  rw [find_touch]
  split
  · next hkey => rw [hkey]
  · rfl

/-- A stateful FMT whose store read fails changes no record (41_codec_common.md R136, 45_replay_store.md R226). -/
theorem fmtRolling_of_readFailure {codec : Rolling} {cmd : Command} {r d dl : Word} {s : State}
    (hchecks : fmtRefusal s.cfg codec.protocol cmd dl = none) (hread : s.nextAnswer = false) :
    fmtRolling codec cmd r d dl s = complete .storeUnavailable s.takeAnswer := by
  simp [fmtRolling, hchecks, State.storeReadValue, hread, afterStoreRead_of_failure]

/-- The second half of a stateful FMT on a medium that refuses the write (41_codec_common.md R129). -/
theorem fmtFinish_of_failure {s : State} (j : FmtJob) (hwrite : s.nextAnswer = false) :
    fmtFinish j s = complete .storeUnavailable { s.takeAnswer with pending := none } := by
  simp [fmtFinish, hwrite, afterStoreWrite_of_failure]

/-- A stateful FMT whose store read succeeds and whose store write fails keeps what the read left in the store
(41_codec_common.md R136, 45_replay_store.md R226, R227). -/
theorem fmtRolling_of_writeFailure {codec : Rolling} {cmd : Command} {r d dl : Word} {s : State}
    (hchecks : fmtRefusal s.cfg codec.protocol cmd dl = none) (hshared : s.cfg.storeShared = false)
    (hpending : s.pending = none) (hread : s.nextAnswer = true) (hwrite : s.takeAnswer.nextAnswer = false) :
    fmtRolling codec cmd r d dl s = complete .storeUnavailable
      { s.takeAnswer.takeAnswer with store := ReplayStore.touch s.store ⟨codec.protocol, r, d⟩ } := by
  set u : State := { s.takeAnswer with store := ReplayStore.touch s.store ⟨codec.protocol, r, d⟩ } with hu
  have hwrite' : u.nextAnswer = false := hwrite
  have hpending' : u.takeAnswer.pending = none := by simpa [hu] using hpending
  calc fmtRolling codec cmd r d dl s
      = fmtFinish ⟨codec, cmd, r, d, (ReplayStore.find s.store ⟨codec.protocol, r, d⟩).getD 0⟩ u := by
        simp [fmtRolling, hchecks, storeReadValue_of_answer hread, hshared, afterStoreRead_of_answer hread, hu]
    _ = complete .storeUnavailable u.takeAnswer := by
        rw [fmtFinish_of_failure _ hwrite', withPending_none hpending']
    _ = complete .storeUnavailable _ := by rw [hu, takeAnswer_withStore]

/-- Settles O41: a failed read takes an answer and no more; a failed write leaves the store as the read left it. -/
theorem formatStoreFailures : Obligations.FormatStoreFailures := by
  intro codec s r d dl cmd hshared hpending h0 h1 h2 hcap hfits haccepted
  have hchecks := (fmtRefusal_eq_none s.cfg codec.protocol cmd dl).2 ⟨hcap, hfits, haccepted⟩
  have hexec := exec_fmt_rolling codec cmd h0 h1 h2
  refine ⟨fun hread => ?_, fun hread hwrite => ?_⟩
  · rw [hexec, fmtRolling_of_readFailure hchecks hread]
    rfl
  · rw [hexec, fmtRolling_of_writeFailure hchecks hshared hpending hread hwrite]
    exact ⟨_, rfl, rfl, find_touch_getD s.store _⟩

end Sys2Proof.Proofs
end

section
/-! PROOFS. The statements of the family 42_codecs_fixed.md: the frames of the codecs that do not use the store, bit by
bit (R147, R151, R152, R157, R161, R165, R168, R172). -/

namespace Sys2Proof.Proofs

open Sys2Proof Sys2Proof.Machine Sys2Proof.Laws

/-! ### The bits of a piece of a frame

A frame is a row of fields, and a statement gives the frame as a function of the bit's place. Each field is compared
with that function at the places where it stands. -/

/-- From place `pos` on, the bits `g` are those of `f`. -/
def StandsAt (g : Nat → Bool) (pos : Nat) (f : Frame) : Prop :=
  ∀ i, i < f.length → f[i]? = some (g (pos + i))

section StandsAt

variable {g : Nat → Bool} {pos : Nat}

theorem standsAt_congr {g' : Nat → Bool} {f : Frame} (h : StandsAt g pos f)
    (heq : ∀ i, i < f.length → g (pos + i) = g' (pos + i)) : StandsAt g' pos f :=
  fun i hi => (h i hi).trans (congrArg some (heq i hi))

@[simp] theorem standsAt_nil : StandsAt g pos [] := fun _ hi => absurd hi (Nat.not_lt_zero _)

@[simp] theorem standsAt_cons (b : Bool) (f : Frame) :
    StandsAt g pos (b :: f) ↔ g pos = b ∧ StandsAt g (pos + 1) f := by
  refine ⟨fun h => ⟨?_, fun i hi => ?_⟩, fun ⟨hfirst, hrest⟩ i hi => ?_⟩
  · simpa [eq_comm] using h 0 (Nat.zero_lt_succ _)
  · simpa [Nat.add_assoc, Nat.add_comm 1 i] using h (i + 1) (Nat.succ_lt_succ hi)
  · cases i with
    | zero => simp [hfirst]
    | succ i => simpa [Nat.add_assoc, Nat.add_comm 1 i] using hrest i (Nat.lt_of_succ_lt_succ hi)

/-- The second of two fields stands where the first ends. -/
theorem standsAt_append (f f' : Frame) :
    StandsAt g pos (f ++ f') ↔ StandsAt g pos f ∧ StandsAt g (pos + f.length) f' := by
  induction f generalizing pos with
  | nil => simp
  | cons b f ih =>
    rw [List.cons_append, standsAt_cons, standsAt_cons, ih, List.length_cons, and_assoc,
      Nat.add_assoc pos 1, Nat.add_comm 1]

/-- A number in binary, most significant bit first (00_scope.md R11). -/
theorem standsAt_seqBits {n v : Nat} (h : ∀ i, i < n → g (pos + i) = v.testBit (n - 1 - i)) :
    StandsAt g pos (seqBits n v) := fun i hi => by
  have hi : i < n := seqBits_length n v ▸ hi
  rw [seqBits_getElem? n v i hi, h i hi]

/-- A field of a word, most significant bit first. -/
theorem standsAt_field {w n : Nat} {v : BitVec w} (h : ∀ i, i < n → g (pos + i) = v.getLsbD (n - 1 - i)) :
    StandsAt g pos (seqBits n v.toNat) := standsAt_seqBits h

/-- Symbols of one width `m`: symbol `i` stands `m * i` places on. -/
theorem standsAt_flatMap {α : Type} {l : List α} {w : α → Frame} {m : Nat} (hwidth : ∀ a, (w a).length = m)
    (h : ∀ i a, l[i]? = some a → StandsAt g (pos + m * i) (w a)) : StandsAt g pos (l.flatMap w) := by
  induction l generalizing pos with
  | nil => exact standsAt_nil
  | cons a l ih =>
    rw [List.flatMap_cons, standsAt_append, hwidth]
    refine ⟨h 0 a rfl, ih fun i b hb => ?_⟩
    have hnext := h (i + 1) b hb
    rwa [Nat.mul_succ, Nat.add_comm (m * i), ← Nat.add_assoc] at hnext

theorem pairs_length (x y : Bool → Bool) (n v : Nat) :
    ((seqBits n v).flatMap fun b => [x b, y b]).length = 2 * n := by
  rw [flatMap_length_const _ 2 fun _ => rfl, seqBits_length, Nat.mul_comm]

/-- A field of a word, most significant bit first, each bit as two. -/
theorem standsAt_pairs {x y : Bool → Bool} {w n : Nat} {v : BitVec w}
    (h : ∀ i, i < n → g (pos + 2 * i) = x (v.getLsbD (n - 1 - i))
      ∧ g (pos + 2 * i + 1) = y (v.getLsbD (n - 1 - i))) :
    StandsAt g pos ((seqBits n v.toNat).flatMap fun b => [x b, y b]) := by
  refine standsAt_flatMap (m := 2) (fun _ => rfl) fun i b hb => ?_
  have hi : i < n := seqBits_length n v.toNat ▸ (List.getElem?_eq_some_iff.1 hb).1
  obtain rfl : v.getLsbD (n - 1 - i) = b := Option.some.inj ((seqBits_getElem? n v.toNat i hi).symm.trans hb)
  simpa using h i hi

end StandsAt

/-! ### What a stateless FMT writes -/

/-- A command with a code in a codec's code table is one of the table's commands. -/
theorem code_of_mem_table {α : Type} {codes : Command → α} {l : List Command} {cmd : Command} {code : α}
    (h : (cmd, code) ∈ l.map fun c => (c, codes c)) : cmd ∈ l ∧ codes cmd = code := by
  obtain ⟨c, hc, heq⟩ := List.mem_map.1 h
  cases heq
  exact ⟨hc, rfl⟩

/-- A stateless FMT whose checks pass writes the bits of its frame and nothing else (41_codec_common.md R129, R133). -/
theorem exec_fmt_writesFrame {p : Protocol} {cmd : Command} {s : State} {r d dl : Word} {g : Nat → Bool}
    (hp : statelessCodec p = true) (h0 : p = .idk ∨ s.a0 = some r) (h1 : s.a1 = some d) (h2 : s.a2 = some dl)
    (hcap : dl.toNat ≤ s.cfg.bufBytes) (hfits : frameBits s.cfg p ≤ 8 * dl.toNat) (hcmd : cmd ∈ accepted p)
    (hframe : StandsAt g 0 (fixedFrame s.cfg p r d cmd)) :
    ∃ t, exec (Instr.fmt p cmd) s = .next t ∧ WritesFrame s t p (frameBits s.cfg p) g := by
  have hlen := fixedFrame_length hp s.cfg r d cmd
  have hchecks := (fmtRefusal_eq_none s.cfg p cmd dl).2 ⟨hcap, hfits, hcmd⟩
  obtain ⟨hrest, hwrites, hkeeps⟩ := writesFrame_fmtEmit hlen
  refine ⟨_, exec_fmt_stateless hp cmd h0 h1 h2, ?_⟩
  rw [fmtFixed, hchecks]
  refine ⟨hrest, fun k hk => ?_, hkeeps⟩
  have hbit := hframe k (hlen ▸ hk)
  rw [Nat.zero_add] at hbit
  exact (hwrites k hk).trans (by simp [hbit])

/-! ### OTAX -/

/-- Settles O31: the four fields stand at places 0, 10, 20 and 24. -/
theorem otaxFrame : Obligations.OtaxFrame := by
  refine ⟨rfl, fun s r d dl cmd code h0 h1 h2 hcap hfits hcode => ?_⟩
  obtain ⟨hcmd, rfl⟩ := code_of_mem_table (l := accepted .otax) (codes := otaxCode s.cfg) hcode
  refine exec_fmt_writesFrame (p := .otax) rfl (.inr h0) h1 h2 hcap hfits hcmd ?_
  change StandsAt _ 0 (encOtax s.cfg r d cmd)
  simp only [encOtax, standsAt_append, List.length_append, seqBits_length, pairs_length]
  refine ⟨⟨⟨standsAt_pairs fun i hi => ?remote, standsAt_pairs fun i hi => ?device⟩,
    standsAt_field fun i hi => ?command⟩, ?filler⟩
  case remote => constructor <;> grind
  case device => constructor <;> grind
  case command => grind
  case filler => simp

/-! ### DI-O -/

/-- A mask of the low `n` bits. -/
theorem toNat_and_mask (v : Word) {n : Nat} (h : n ≤ 32) :
    (v &&& BitVec.ofNat 32 (2 ^ n - 1)).toNat = v.toNat % 2 ^ n := by
  rw [← setWidth_setWidth_eq_and v h, BitVec.toNat_setWidth_of_le h, BitVec.toNat_setWidth]

/-- A field put in front of `n` low bits: the two do not overlap, so their OR is their sum. -/
theorem toNat_shiftLeft_or {v low : Word} {m n : Nat} (hv : v.toNat < 2 ^ m) (hlow : low.toNat < 2 ^ n)
    (h : m + n ≤ 32) : (v <<< n ||| low).toNat = v.toNat * 2 ^ n + low.toNat := by
  have hfits : v.toNat * 2 ^ n < 2 ^ 32 := calc
    v.toNat * 2 ^ n < 2 ^ m * 2 ^ n := Nat.mul_lt_mul_of_pos_right hv (Nat.two_pow_pos n)
    _ = 2 ^ (m + n) := (pow_add 2 m n).symm
    _ ≤ 2 ^ 32 := Nat.pow_le_pow_right (by decide) h
  rw [BitVec.toNat_or, BitVec.toNat_shiftLeft, Nat.shiftLeft_eq, Nat.mod_eq_of_lt hfits, Nat.mul_comm,
    Nat.two_pow_add_eq_or_of_lt hlow]

/-- The raw DI-O word: 26 bits of remote, 2 of command and 4 of device (42_codecs_fixed.md R151). -/
theorem rawDio_toNat (c : Config) (r d : Word) (cmd : Command) :
    (rawDio c r d cmd).toNat
      = r.toNat % 2 ^ 26 * 2 ^ 6 + (rawCmd2 c.dioCmd cmd).toNat * 2 ^ 4 + d.toNat % 2 ^ 4 := by
  have hremote : (r &&& 0x3FFFFFF).toNat = r.toNat % 2 ^ 26 := toNat_and_mask r (n := 26) (by decide)
  have hcodeLt := (rawCmd2 c.dioCmd cmd).isLt
  have hcode : ((rawCmd2 c.dioCmd cmd).setWidth 32).toNat = (rawCmd2 c.dioCmd cmd).toNat :=
    BitVec.toNat_setWidth_of_le (by decide)
  have hdevice : (d &&& 0xF).toNat = d.toNat % 2 ^ 4 := toNat_and_mask d (n := 4) (by decide)
  have hlow := toNat_shiftLeft_or (m := 2) (n := 4) (hcode.trans_lt hcodeLt)
    (hdevice.trans_lt (Nat.mod_lt _ (by decide))) (by decide)
  rw [rawDio, BitVec.or_assoc, toNat_shiftLeft_or (m := 26) (by omega) (by omega) (by decide), hlow, hremote,
    hcode, hdevice, Nat.add_assoc]

/-- Settles O32: pair `i` stands at place `2 * i` and holds raw bit `31 - i` and its inverse. -/
theorem dioFrame : Obligations.DioFrame := by
  refine ⟨rfl, fun s r d dl cmd code h0 h1 h2 hcap hfits hcode => ?_⟩
  obtain ⟨hcmd, rfl⟩ := code_of_mem_table (l := accepted .dio) (codes := rawCmd2 s.cfg.dioCmd) hcode
  refine exec_fmt_writesFrame (p := .dio) rfl (.inr h0) h1 h2 hcap hfits hcmd ?_
  change StandsAt _ 0 (encDio s.cfg r d cmd)
  refine standsAt_pairs fun i hi => ?_
  rw [BitVec.getLsbD, rawDio_toNat]
  generalize r.toNat % 2 ^ 26 * 2 ^ 6 + (rawCmd2 s.cfg.dioCmd cmd).toNat * 2 ^ 4 + d.toNat % 2 ^ 4 = raw
  constructor <;> grind

/-! ### Home Easy -/

/-- Symbol `j` of a payload, that of its nibble `j` from the most significant (42_codecs_fixed.md R157). -/
def heSymbolAt (c : Config) (payload : Word) (j : Nat) : BitVec 7 :=
  heSymbol c (payload.extractLsb' (28 - 4 * j) 4)

/-- A symbol is the nibble's table entry with its top bit set (42_codecs_fixed.md R157). -/
theorem heSymbolAt_tableEntry (c : Config) (payload : Word) (j : Nat) :
    ∃ e : BitVec 7, c.heTbFx.toList[payload.toNat / 2 ^ (28 - 4 * j) % 16]? = some e
      ∧ heSymbolAt c payload j = e ||| (0x40 : BitVec 7) := by
  have hnibble : (payload.extractLsb' (28 - 4 * j) 4).toNat = payload.toNat / 2 ^ (28 - 4 * j) % 16 := by
    rw [BitVec.extractLsb'_toNat, Nat.shiftRight_eq_div_pow]
  rw [← hnibble]
  exact ⟨c.heTbFx.get (payload.extractLsb' (28 - 4 * j) 4).toFin, by simp [Vector.get], rfl⟩

/-- After the leading 1, symbol `j` stands at place `1 + 7 * j` (42_codecs_fixed.md R157). -/
theorem standsAt_packHomeeasy (c : Config) (payload : Word) :
    StandsAt (fun k => if k = 0 then true else (heSymbolAt c payload ((k - 1) / 7)).getLsbD (6 - (k - 1) % 7)) 0
      (packHomeeasy c payload) := by
  rw [packHomeeasy, standsAt_cons]
  refine ⟨rfl, standsAt_flatMap (m := 7) (fun _ => seqBits_length _ _) fun j a ha => ?_⟩
  obtain ⟨-, rfl⟩ := List.getElem?_eq_some_iff.1 ha
  refine standsAt_field fun i hi => ?_
  have hsymbol : (0 + 1 + 7 * j + i - 1) / 7 = j := by omega
  have hbit : (0 + 1 + 7 * j + i - 1) % 7 = i := by omega
  rw [if_neg (by omega), hsymbol, hbit, List.getElem_range, heSymbolAt]

/-- Settles O33: the symbols are those of the payload, and `packHomeeasy` puts them in their places. -/
theorem homeeasyFrame : Obligations.HomeeasyFrame := by
  intro s r d dl cmd h0 h1 h2 hcap hfits hcmd
  obtain ⟨t, hexec, hwrites⟩ := exec_fmt_writesFrame (p := .homeeasy) rfl (.inr h0) h1 h2 hcap hfits hcmd
    (standsAt_packHomeeasy s.cfg (hePayload s.cfg r d cmd))
  exact ⟨t, heSymbolAt s.cfg (hePayload s.cfg r d cmd), hexec,
    fun j _ => heSymbolAt_tableEntry s.cfg (hePayload s.cfg r d cmd) j, hwrites⟩

/-! ### Idk -/

/-- The filler 0x5555 alternates, starting with a 0 (42_codecs_fixed.md R161). -/
theorem testBit_filler : ∀ i, i < 16 → (0x5555 : Nat).testBit (15 - i) = decide (i % 2 = 1) := by decide

/-- Settles O34: the three fields stand at places 0, 8 and 24. -/
theorem idkFrame : Obligations.IdkFrame := by
  intro s d dl h1 h2 hcap hfits
  refine exec_fmt_writesFrame (p := .idk) (r := 0) rfl (.inl rfl) h1 h2 hcap hfits (by decide) ?_
  change StandsAt _ 0 (encIdk d)
  simp only [encIdk, standsAt_append, List.length_append, seqBits_length, pairs_length]
  refine ⟨⟨standsAt_pairs fun i hi => ?device, standsAt_seqBits fun i hi => ?filler⟩, ?last⟩
  case device => constructor <;> grind
  case filler =>
    rw [testBit_filler i hi]
    grind
  case last => simp

/-! ### Sumtech and Auchan -/

/-- Settles O35: the fields of Sumtech stand at places 0, 24 and 25, those of Auchan at 0, 20, 23 and 24. -/
theorem sumtechAndAuchanFrames : Obligations.SumtechAndAuchanFrames := by
  refine ⟨rfl, rfl, fun s r d dl cmd sumtech auchan h0 h1 h2 hcap hcode => ?_⟩
  obtain ⟨hcmd, hcodes⟩ := code_of_mem_table (l := [Command.off, .on])
    (codes := fun c => (rawCmd1 s.cfg.sumtechCmd c, rawCmd1 s.cfg.auchanCmd c)) hcode
  obtain ⟨rfl, rfl⟩ := Prod.mk.inj hcodes
  refine ⟨fun hfits => ?sumtech, fun hfits => ?auchan⟩
  case sumtech =>
    refine exec_fmt_writesFrame (p := .sumtech) rfl (.inr h0) h1 h2 hcap hfits hcmd ?_
    change StandsAt _ 0 (encSumtech s.cfg r d cmd)
    simp only [encSumtech, standsAt_append, List.length_append, seqBits_length, List.length_singleton]
    refine ⟨⟨standsAt_field fun i hi => ?remote, ?command⟩, standsAt_field fun i hi => ?device⟩
    case remote => grind
    case command => simp
    case device => grind
  case auchan =>
    refine exec_fmt_writesFrame (p := .auchan) rfl (.inr h0) h1 h2 hcap hfits hcmd ?_
    change StandsAt _ 0 (encAuchan s.cfg r d cmd)
    simp only [encAuchan, standsAt_append, List.length_append, seqBits_length, List.length_singleton]
    refine ⟨⟨⟨standsAt_field fun i hi => ?remote, standsAt_field fun i hi => ?device⟩, ?command⟩, ?last⟩
    case remote => grind
    case device => grind
    case command => simp
    case last => simp

/-! ### Auchan 2 -/

/-- Bit `i` of a sequence, read most significant bit first, is a bit of its value (00_scope.md R11). -/
theorem getElem?_eq_testBit (f : Frame) {i : Nat} (hi : i < f.length) :
    f[i]? = some ((bitsValue f).testBit (f.length - 1 - i)) := by
  induction f generalizing i with
  | nil => cases hi
  | cons b f ih =>
    have hrest := bitsValue_lt f
    rw [bitsValue_cons, Nat.testBit_two_pow_mul_add _ hrest]
    cases i with
    | zero => cases b <;> simp
    | succ i =>
      have hi : i < f.length := Nat.lt_of_succ_lt_succ hi
      rw [List.getElem?_cons_succ, ih hi, List.length_cons, if_pos (by omega)]
      congr 2
      omega

/-- The XOR of the bits of `p` at the places `l`. -/
def parity (p : Nat → Bool) (l : List Nat) : Bool := l.foldl (fun x b => x ^^ p b) false

/-- A XOR does not depend on the order of its terms. -/
theorem parity_perm {p : Nat → Bool} {l l' : List Nat} (h : l.Perm l') : parity p l = parity p l' := by
  have hcomm : RightCommutative fun (x : Bool) (b : Nat) => x ^^ p b := ⟨fun x _ _ => Bool.xor_right_comm x _ _⟩
  exact h.foldl_eq _

theorem parity_cons_of_false {p : Nat → Bool} {b : Nat} (h : p b = false) (l : List Nat) :
    parity p (b :: l) = parity p l := by
  simp [parity, h]

/-- Bit `i` of the checksum is the XOR of bit `i` of every 2-bit group (42_codecs_fixed.md R172). -/
theorem checksum2_getLsbD (f : Frame) {i : Nat} (hi : i < 2) :
    (checksum2 f).getLsbD i = parity (bitsValue f).testBit ((List.range 10).map fun k => 2 * k + i) := by
  have hfold (l : List Nat) (acc : BitVec 2) :
      (l.foldl (fun acc k => acc ^^^ BitVec.ofNat 2 (bitsValue f >>> (2 * k))) acc).getLsbD i
        = l.foldl (fun x k => x ^^ (bitsValue f).testBit (2 * k + i)) (acc.getLsbD i) := by
    induction l generalizing acc with
    | nil => rfl
    | cons k l ih =>
      simp only [List.foldl_cons, ih, BitVec.getLsbD_xor, BitVec.getLsbD_ofNat, Nat.testBit_shiftRight, hi,
        decide_true, Bool.true_and]
  rw [checksum2, hfold, parity, List.foldl_map]
  simp

/-- Place `j` of 19 is bit `18 - j` of the value, so checksum bit `i` takes the places `j` with `j % 2 = i`; the first
group has one bit, and the place beside it counts as 0 (42_codecs_fixed.md R172). -/
theorem checksum2_of_standsAt {pre : Nat → Bool} {f : Frame} (hlen : f.length = 19) (h : StandsAt pre 0 f)
    {i : Nat} (hi : i < 2) :
    (checksum2 f).getLsbD i = parity pre ((List.range 19).filter fun j => j % 2 = i) := by
  have hpre (j : Nat) (hj : j < 19) : (bitsValue f).testBit (18 - j) = pre j := by
    have hbit := h j (hlen ▸ hj)
    rw [getElem?_eq_testBit f (hlen ▸ hj), hlen, Nat.zero_add] at hbit
    exact Option.some.inj hbit
  have hpad : (bitsValue f).testBit 19 = false := Nat.testBit_lt_two_pow (hlen ▸ bitsValue_lt f)
  calc (checksum2 f).getLsbD i
      = parity (bitsValue f).testBit ((List.range 10).map fun k => 2 * k + i) := checksum2_getLsbD f hi
    _ = parity (bitsValue f).testBit (((List.range 19).filter fun j => j % 2 = i).map fun j => 18 - j) := by
      obtain rfl | rfl : i = 0 ∨ i = 1 := by omega
      · exact parity_perm (by decide)
      · exact (parity_perm (by decide)).trans (parity_cons_of_false hpad _)
    _ = parity pre ((List.range 19).filter fun j => j % 2 = i) := by
      rw [parity, List.foldl_map]
      refine List.foldl_ext _ _ _ fun x j hj => ?_
      rw [hpre j (List.mem_range.1 (List.mem_filter.1 hj).1)]

/-- The bits of the Auchan 2 frame before its checksum, by place (42_codecs_fixed.md R172). -/
def auchan2Pre (r d : Word) (code : BitVec 2) (j : Nat) : Bool :=
  if j < 2 then false
  else if j < 15 then r.getLsbD (14 - j)
  else if j < 17 then d.getLsbD (16 - j)
  else code.getLsbD (18 - j)

theorem standsAt_preAuchan2 (c : Config) (r d : Word) (cmd : Command) :
    StandsAt (auchan2Pre r d (rawCmd2 c.auchan2Cmd cmd)) 0 (preAuchan2 c r d cmd) := by
  simp only [preAuchan2, standsAt_append, List.length_append, seqBits_length, List.length_cons, List.length_nil]
  refine ⟨⟨⟨?pad, standsAt_field fun i hi => ?remote⟩, standsAt_field fun i hi => ?device⟩,
    standsAt_field fun i hi => ?command⟩
  case pad => simp [auchan2Pre]
  case remote => grind [auchan2Pre]
  case device => grind [auchan2Pre]
  case command => grind [auchan2Pre]

/-- Settles O36: the checksum bit at place 19 takes the odd places, the one at place 20 the even ones. -/
theorem auchanTwoFrame : Obligations.AuchanTwoFrame := by
  refine ⟨rfl, fun s r d dl cmd code h0 h1 h2 hcap hfits hcode => ?_⟩
  obtain ⟨hcmd, rfl⟩ := code_of_mem_table (l := accepted .auchan2) (codes := rawCmd2 s.cfg.auchan2Cmd) hcode
  refine exec_fmt_writesFrame (p := .auchan2) rfl (.inr h0) h1 h2 hcap hfits hcmd ?_
  change StandsAt _ 0 (encAuchan2 s.cfg r d cmd)
  have hpre := standsAt_preAuchan2 s.cfg r d cmd
  rw [encAuchan2, standsAt_append, preAuchan2_length]
  refine ⟨standsAt_congr hpre fun k hk => ?pre, standsAt_field fun i hi => ?checksum⟩
  case pre =>
    rw [preAuchan2_length] at hk
    exact (if_pos (by omega)).symm
  case checksum =>
    rw [checksum2_of_standsAt (preAuchan2_length _ _ _ _) hpre (by omega)]
    refine (if_neg (by omega)).trans ?_
    rw [show 20 - (0 + 19 + i) = 2 - 1 - i by omega]
    rfl

end Sys2Proof.Proofs
end

section
/-! PROOFS. The statements of the family 43_codecs_rolling.md: the store step of a stateful FMT on a medium of its own
that answers (41_codec_common.md R129, R136), the Somfy burst (R181 to R185), what the counter changes in it (R189) and
the Blyss frame (R190, R191). -/

namespace Sys2Proof.Proofs

open Sys2Proof Sys2Proof.Machine Sys2Proof.Laws

/-! ### A stateful FMT from its operand reads to its end -/

/-- A stateful FMT that gets past its checks, on a medium that is not shared (41_codec_common.md R129). -/
structure RollingRuns (codec : Rolling) (cmd : Command) (r d dl : Word) (s : State) : Prop where
  unshared : s.cfg.storeShared = false
  remote : s.a0 = some r
  device : s.a1 = some d
  dataLen : s.a2 = some dl
  checks : fmtRefusal s.cfg codec.protocol cmd dl = none

/-- What a stateful FMT leaves when it read `v` and both store accesses succeeded. -/
def afterRolling (codec : Rolling) (cmd : Command) (r d : Word) (v : Half) (s : State) : State :=
  fmtEmit codec.protocol (FmtJob.frame s.cfg ⟨codec, cmd, r, d, v⟩)
    { s.takeAnswer.takeAnswer with
      store := ReplayStore.insert (ReplayStore.touch s.store ⟨codec.protocol, r, d⟩) ⟨codec.protocol, r, d⟩
        (rollNext codec v)
      pending := none }

/-- Operands that fit and a command the codec accepts pass the checks (41_codec_common.md R130, R131, R132). -/
theorem checks_of_fits {c : Config} (codec : Rolling) {cmd : Command} {dl : Word} (hcap : dl.toNat ≤ c.bufBytes)
    (hfits : frameBits c codec.protocol ≤ 8 * dl.toNat) (hcmd : cmd ∈ accepted codec.protocol) :
    fmtRefusal c codec.protocol cmd dl = none :=
  (fmtRefusal_eq_none c codec.protocol cmd dl).2 ⟨hcap, hfits, hcmd⟩

/-- A frame whose bits are known, written, is what a FMT writes (41_codec_common.md R129, R133). -/
theorem writesFrame_of_standsAt {s : State} {p : Protocol} {n : Nat} {f : Frame} {g : Nat → Bool}
    (hn : frameBits s.cfg p = n) (hlen : f.length = n) (hframe : StandsAt g 0 f) :
    WritesFrame s (fmtEmit p f s) p n g := by
  subst hn
  obtain ⟨hrest, hwrites, hkeeps⟩ := writesFrame_fmtEmit hlen
  refine ⟨hrest, fun k hk => (hwrites k hk).trans ?_, hkeeps⟩
  have hbit := hframe k (hlen ▸ hk)
  rw [Nat.zero_add] at hbit
  simp [hbit]

/-- The medium's answers depend on no other part of the state (10_state.md R39). -/
theorem grants_congr {s t : State} (hanswers : s.answers = t.answers) (hdraws : s.draws = t.draws) (n : Nat) :
    State.grants n s = State.grants n t := by
  induction n generalizing s t with
  | zero => rfl
  | succ n ih =>
    have hnext : s.nextAnswer = t.nextAnswer := by simp [State.nextAnswer, hanswers, hdraws]
    have hrest : State.grants n s.takeAnswer = State.grants n t.takeAnswer :=
      ih (by simp [hanswers]) (by simp [hanswers, hdraws])
    rw [State.grants, State.grants, hnext, hrest]

theorem grants_add_two {n : Nat} {s : State} :
    State.grants (n + 2) s = true ↔
      s.nextAnswer = true ∧ s.takeAnswer.nextAnswer = true ∧ State.grants n s.takeAnswer.takeAnswer = true := by
  simp [State.grants]

section RollingRuns

variable {codec : Rolling} {cmd : Command} {r d dl : Word} {v : Half} {s : State}

@[simp] theorem afterRolling_cfg : (afterRolling codec cmd r d v s).cfg = s.cfg := by
  simp [afterRolling]

theorem afterRolling_grants (n : Nat) :
    State.grants n (afterRolling codec cmd r d v s) = State.grants n s.takeAnswer.takeAnswer := by
  refine grants_congr ?_ ?_ n
  · rw [afterRolling, fmtEmit_answers]
  · rw [afterRolling, fmtEmit_draws]

/-- The key's record becomes NEXT(v), and no other record changes (41_codec_common.md R136). -/
theorem find_afterRolling (key : StoreKey) :
    ReplayStore.find (afterRolling codec cmd r d v s).store key
      = if key = ⟨codec.protocol, r, d⟩ then some (rollNext codec v) else ReplayStore.find s.store key := by
  rw [afterRolling, fmtEmit_store, find_insert, find_touch]
  split <;> rfl

/-- It leaves the parameters and the operands, so the same operation gets past its checks again. -/
theorem RollingRuns.after (h : RollingRuns codec cmd r d dl s) :
    RollingRuns codec cmd r d dl (afterRolling codec cmd r d v s) where
  unshared := by simpa using h.unshared
  remote := by simpa [afterRolling] using h.remote
  device := by simpa [afterRolling] using h.device
  dataLen := by simpa [afterRolling] using h.dataLen
  checks := by simpa using h.checks

/-- The operation does not depend on the records before its store read. -/
theorem RollingRuns.withStore (h : RollingRuns codec cmd r d dl s) (m : ReplayStore) :
    RollingRuns codec cmd r d dl { s with store := m } := { h with }

/-- On a medium of its own that answers twice, the FMT runs through (41_codec_common.md R129, R136). -/
theorem RollingRuns.exec (h : RollingRuns codec cmd r d dl s) (hgrants : State.grants 2 s = true)
    (hv : v = (ReplayStore.find s.store ⟨codec.protocol, r, d⟩).getD 0) :
    exec (Instr.fmt codec.protocol cmd) s = .next (afterRolling codec cmd r d v s) := by
  obtain ⟨hread, hwrite, -⟩ := grants_add_two.1 hgrants
  subst hv
  set key : StoreKey := ⟨codec.protocol, r, d⟩ with hkey
  set u : State := { s.takeAnswer with store := ReplayStore.touch s.store key } with hu
  have hwrite' : u.nextAnswer = true := hwrite
  have hstep : fmtRolling codec cmd r d dl s
      = fmtFinish ⟨codec, cmd, r, d, (ReplayStore.find s.store key).getD 0⟩ u := by
    simp [fmtRolling, h.checks, storeReadValue_of_answer hread, h.unshared, afterStoreRead_of_answer hread, hu, hkey]
  rw [exec_fmt_rolling codec cmd h.remote h.device h.dataLen, hstep, fmtFinish_of_answer _ hwrite', hu,
    takeAnswer_withStore, afterRolling]
  simp [FmtJob.key, hkey]

/-- The frame is what the FMT writes beside the record and the medium's answers (41_codec_common.md R129, R133). -/
theorem writesFrame_afterRolling {g : Nat → Bool}
    (hlen : (FmtJob.frame s.cfg ⟨codec, cmd, r, d, v⟩).length = frameBits s.cfg codec.protocol)
    (hframe : StandsAt g 0 (FmtJob.frame s.cfg ⟨codec, cmd, r, d, v⟩)) :
    WritesFrame { s.takeAnswer.takeAnswer with store := (afterRolling codec cmd r d v s).store, pending := none }
      (afterRolling codec cmd r d v s) codec.protocol (frameBits s.cfg codec.protocol) g :=
  writesFrame_of_standsAt (by simp) hlen hframe

end RollingRuns

/-! ### The Somfy payload -/

/-- Byte `i` of the plain payload, 0 past its end (43_codecs_rolling.md R181). -/
def somfyByte (c : Config) (r d : Word) (cmd : Command) (v : Half) (i : Nat) : Byte :=
  (somfyPlain c r d cmd v).getD i 0

/-- The checksum nibble adds itself to the XOR of the nibbles (43_codecs_rolling.md R182). -/
theorem xorNibbles_somfyBytes (c : Config) (r d : Word) (cmd : Command) (v : Half) (k : BitVec 4) :
    xorNibbles (somfyBytes c r d cmd v k) = xorNibbles (somfyBytes c r d cmd v 0) ^^^ k := by
  have hhigh (k : BitVec 4) : (somfyCode c cmd ++ k).extractLsb' 4 4 = somfyCode c cmd :=
    BitVec.extractLsb'_append_eq_left
  have hlow (k : BitVec 4) : (somfyCode c cmd ++ k).extractLsb' 0 4 = k := BitVec.extractLsb'_append_eq_right
  simp only [xorNibbles, somfyBytes, List.foldl_cons, List.foldl_nil, hhigh, hlow]
  ac_rfl

/-- With its checksum in place, the nibbles of the payload cancel (43_codecs_rolling.md R182). -/
theorem xorNibbles_somfyPlain (c : Config) (r d : Word) (cmd : Command) (v : Half) :
    xorNibbles (somfyPlain c r d cmd v) = 0 := by
  rw [somfyPlain, xorNibbles_somfyBytes, somfyChecksum, BitVec.xor_self]
  rfl

theorem isSomfyPayload_somfyByte (c : Config) (r d : Word) (cmd : Command) (v : Half) :
    IsSomfyPayload r d (somfyCode c cmd) v (somfyByte c r d cmd v) :=
  ⟨rfl, BitVec.extractLsb'_append_eq_left, rfl, rfl, rfl, rfl, rfl, xorNibbles_somfyPlain c r d cmd v⟩

/-! ### Whitening -/

/-- A whitened byte is the XOR of the plain bytes so far (43_codecs_rolling.md R183). -/
theorem whitenFrom_getElem? (p : Byte) (bs : List Byte) {i : Nat} (hi : i < bs.length) :
    (whitenFrom p bs)[i]? = some ((List.range (i + 1)).foldl (fun acc j => acc ^^^ bs.getD j 0) p) := by
  induction bs generalizing p i with
  | nil => cases hi
  | cons b bs ih =>
    cases i with
    | zero => simp [whitenFrom, BitVec.xor_comm]
    | succ i =>
      rw [whitenFrom, List.getElem?_cons_succ, ih _ (Nat.lt_of_succ_lt_succ hi), List.range_succ_eq_map (n := i + 1),
        List.foldl_cons, List.foldl_map]
      simp [BitVec.xor_comm]

/-- Whitening is whitening from the byte 0 on (43_codecs_rolling.md R183). -/
theorem whiten_eq_whitenFrom (bs : List Byte) : whiten bs = whitenFrom 0 bs := by
  cases bs with
  | nil => rfl
  | cons b bs => simp [whiten, whitenFrom]

/-- The bits of the whitened payload (43_codecs_rolling.md R183). -/
theorem standsAt_whiten (c : Config) (r d : Word) (cmd : Command) (v : Half) :
    StandsAt (somfyWhite (somfyByte c r d cmd v)) 0 ((whiten (somfyPlain c r d cmd v)).flatMap byteBits) := by
  refine standsAt_flatMap byteBits_length fun i b hb => standsAt_field fun k hk => ?_
  rw [whiten_eq_whitenFrom] at hb
  have hi : i < (somfyPlain c r d cmd v).length := by
    simpa using (List.getElem?_eq_some_iff.1 hb).1
  rw [whitenFrom_getElem? _ _ hi] at hb
  have hbyte : (0 + 8 * i + k) / 8 = i := by omega
  have hbit : (0 + 8 * i + k) % 8 = k := by omega
  rw [somfyWhite, hbyte, hbit, ← Option.some.inj hb]
  rfl

/-! ### The pulse trains -/

/-- Equal blocks one after the other. -/
theorem standsAt_replicate {g : Nat → Bool} {pos n : Nat} {f : Frame}
    (h : ∀ q, q < n * f.length → f[q % f.length]? = some (g (pos + q))) :
    StandsAt g pos (List.replicate n f).flatten := by
  induction n generalizing pos with
  | zero => exact standsAt_nil
  | succ n ih =>
    rw [Nat.succ_mul] at h
    rw [List.replicate_succ, List.flatten_cons, standsAt_append]
    refine ⟨fun q hq => ?_, ih fun q hq => ?_⟩
    · have hfirst := h q (by omega)
      rwa [Nat.mod_eq_of_lt hq] at hfirst
    · have hnext := h (f.length + q) (by omega)
      rwa [Nat.add_mod_left, ← Nat.add_assoc] at hnext

/-- A burst, High first. -/
theorem standsAt_edge {g : Nat → Bool} {pos h l : Nat} (hedge : ∀ q, q < h + l → g (pos + q) = decide (q < h)) :
    StandsAt g pos (edge .hl h l) := fun q hq => by
  rw [edge_length] at hq
  rw [edge_getElem? .hl hq, hedge q hq, edgeLevel]

theorem standsAt_lowRun {g : Nat → Bool} {pos n : Nat} (h : ∀ q, q < n → g (pos + q) = false) :
    StandsAt g pos (lowRun n) := fun q hq => by
  rw [lowRun_length] at hq
  rw [lowRun_getElem? hq, h q hq]

/-- Two ticks for each bit: a 0 is High then Low, a 1 Low then High (43_codecs_rolling.md R184). -/
theorem standsAt_somfyTicks {g w : Nat → Bool} {pos : Nat} {bs : List Byte}
    (hbits : StandsAt w 0 (bs.flatMap byteBits))
    (h : ∀ q, q < 16 * bs.length → g (pos + q) = (w (q / 2) == decide (q % 2 = 1))) :
    StandsAt g pos (somfyTicks bs) := by
  have hcount : (bs.flatMap byteBits).length = 8 * bs.length := by
    rw [flatMap_length_const _ 8 byteBits_length, Nat.mul_comm]
  refine standsAt_flatMap (m := 2) (fun b => by cases b <;> rfl) fun i b hb => ?_
  have hi : i < 8 * bs.length := hcount ▸ (List.getElem?_eq_some_iff.1 hb).1
  have hw : w i = b := by
    have hbit := hbits i (hcount ▸ hi)
    rw [Nat.zero_add, hb] at hbit
    exact (Option.some.inj hbit).symm
  have hfirst := h (2 * i) (by omega)
  have hsecond := h (2 * i + 1) (by omega)
  rw [show 2 * i / 2 = i by omega, show 2 * i % 2 = 0 by omega, hw] at hfirst
  rw [show (2 * i + 1) / 2 = i by omega, show (2 * i + 1) % 2 = 1 by omega, hw, ← Nat.add_assoc] at hsecond
  cases b <;> simp [edge, highRun, lowRun, hfirst, hsecond]

/-! ### A Somfy frame -/

/-- The ticks before the data of a frame (43_codecs_rolling.md R185). -/
def somfyDataStart (c : Config) (first : Bool) : Nat :=
  (if first then c.somfyLongH + c.somfyLongL else 0) + (if first then 2 else 7) * (c.somfyShortH + c.somfyShortL)
    + c.somfySwH + c.somfySwL

/-- The level at a tick of the data (43_codecs_rolling.md R184). -/
theorem somfyLevel_data (c : Config) (first : Bool) (w : Nat → Bool) {q : Nat} (hq : q < 112) :
    somfyLevel c first w (somfyDataStart c first + q) = (w (q / 2) == decide (q % 2 = 1)) := by
  cases first with
  | false | true => grind [somfyLevel, somfyDataStart]

theorem standsAt_somfyShorts {c : Config} {g : Nat → Bool} {pos n : Nat}
    (h : ∀ q, q < n * (c.somfyShortH + c.somfyShortL) →
      g (pos + q) = decide (q % (c.somfyShortH + c.somfyShortL) < c.somfyShortH)) :
    StandsAt g pos (List.replicate n (somfyShort c)).flatten := by
  have hlen : (somfyShort c).length = c.somfyShortH + c.somfyShortL := edge_length .hl _ _
  refine standsAt_replicate fun q hq => ?_
  rw [hlen] at hq ⊢
  have hpositive : 0 < c.somfyShortH + c.somfyShortL := Nat.pos_of_mul_pos_left (Nat.zero_lt_of_lt hq)
  rw [somfyShort, edge_getElem? .hl (Nat.mod_lt q hpositive), h q hq, edgeLevel]

/-- The end of a frame: the burst before the data, the data, and the gap (43_codecs_rolling.md R185). -/
theorem standsAt_somfyTail {c : Config} {first : Bool} {w : Nat → Bool} {bs : List Byte} (hlen : bs.length = 7)
    (hbits : StandsAt w 0 (bs.flatMap byteBits)) {pos : Nat}
    (hpos : pos + c.somfySwH + c.somfySwL = somfyDataStart c first) :
    StandsAt (somfyLevel c first w) pos (somfyTail c (somfyTicks bs)) := by
  simp only [somfyTail, standsAt_append, List.length_append, edge_length, somfyTicks_length, hlen]
  refine ⟨⟨standsAt_edge fun q hq => ?burst, standsAt_somfyTicks hbits fun q hq => ?data⟩,
    standsAt_lowRun fun q hq => ?gap⟩
  case data => rw [← Nat.add_assoc, hpos, somfyLevel_data c first w (by omega)]
  case burst | gap => cases first <;> grind [somfyLevel, somfyDataStart]

/-- The ticks of the first frame (43_codecs_rolling.md R185). -/
theorem standsAt_somfyFirst {c : Config} {w : Nat → Bool} {bs : List Byte} (hlen : bs.length = 7)
    (hbits : StandsAt w 0 (bs.flatMap byteBits)) :
    StandsAt (somfyLevel c true w) 0 (somfyFirst c (somfyTicks bs)) := by
  simp only [somfyFirst, standsAt_append, List.length_append, edge_length, replicate_flatten_length]
  refine ⟨⟨standsAt_edge fun q hq => ?long, standsAt_somfyShorts fun q hq => ?short⟩,
    standsAt_somfyTail hlen hbits ?place⟩
  case long | short => grind [somfyLevel]
  case place => simp [somfyDataStart, somfyShort]

/-- The ticks of a repeat (43_codecs_rolling.md R185). -/
theorem standsAt_somfyRepeat {c : Config} {w : Nat → Bool} {bs : List Byte} (hlen : bs.length = 7)
    (hbits : StandsAt w 0 (bs.flatMap byteBits)) :
    StandsAt (somfyLevel c false w) 0 (somfyRepeat c (somfyTicks bs)) := by
  simp only [somfyRepeat, standsAt_append, replicate_flatten_length]
  refine ⟨standsAt_somfyShorts fun q hq => ?short, standsAt_somfyTail hlen hbits ?place⟩
  case short => grind [somfyLevel]
  case place => simp [somfyDataStart, somfyShort]

/-! ### The Somfy burst -/

/-- The level at tick `k` of a burst that carries the payload `b`: the first frame, then the repeats
(43_codecs_rolling.md R185). -/
def somfyBurstLevel (c : Config) (b : Nat → Byte) (k : Nat) : Bool :=
  if k < 213 then somfyLevel c true (somfyWhite b) k
  else somfyLevel c false (somfyWhite b) ((k - 213) % 225)

theorem standsAt_encSomfy {c : Config} (hwf : c.wf = true) (r d : Word) (cmd : Command) (v : Half) :
    StandsAt (somfyBurstLevel c (somfyByte c r d cmd v)) 0 (encSomfy c r d cmd v) := by
  obtain ⟨-, -, hfirstLen, hrepeatLen, -, -⟩ := (cfg_wf_iff c).1 hwf
  have hbytes : (whiten (somfyPlain c r d cmd v)).length = 7 := whiten_length _
  have hbits := standsAt_whiten c r d cmd v
  have hdata := somfyData_length c r d cmd v
  have hfirst := (somfyFirst_length c _ hdata).trans hfirstLen
  have hrepeat := (somfyRepeat_length c _ hdata).trans hrepeatLen
  rw [encSomfy, standsAt_append, hfirst]
  refine ⟨standsAt_congr (standsAt_somfyFirst hbytes hbits) fun q hq => ?_, standsAt_replicate fun q hq => ?_⟩
  · rw [hfirst] at hq
    exact (if_pos (by omega)).symm
  · rw [hrepeat]
    have hin : q % 225 < 225 := Nat.mod_lt q (by decide)
    have hlevel := standsAt_somfyRepeat (c := c) hbytes hbits (q % 225) (hrepeat.symm ▸ hin)
    rw [hlevel, somfyBurstLevel, if_neg (by omega), Nat.zero_add, show 0 + 213 + q - 213 = q by omega]

/-- The burst is what FMT.SOMFY writes (43_codecs_rolling.md R185). -/
theorem writesFrame_afterSomfy {s : State} (hwf : s.cfg.wf = true) (cmd : Command) (r d : Word) (v : Half) :
    WritesFrame
      { s.takeAnswer.takeAnswer with store := (afterRolling .somfy cmd r d v s).store, pending := none }
      (afterRolling .somfy cmd r d v s) .somfy (frameBits s.cfg .somfy)
      (somfyBurstLevel s.cfg (somfyByte s.cfg r d cmd v)) :=
  writesFrame_afterRolling (encSomfy_length s.cfg hwf r d cmd v) (standsAt_encSomfy hwf r d cmd v)

/-- Settles O37: the burst carries the bytes of the payload, and the record becomes NEXT(v). -/
theorem somfyBurst : Obligations.SomfyBurst := by
  intro s r d dl cmd code v hwf hshared hgrants h0 h1 h2 hcap hfits hcode hv
  obtain ⟨hcmd, rfl⟩ := code_of_mem_table (l := accepted .somfy) (codes := somfyCode s.cfg) hcode
  have hruns : RollingRuns .somfy cmd r d dl s := ⟨hshared, h0, h1, h2, checks_of_fits .somfy hcap hfits hcmd⟩
  exact ⟨_, _, hruns.exec hgrants hv, isSomfyPayload_somfyByte s.cfg r d cmd v,
    writesFrame_afterSomfy hwf cmd r d v, find_afterRolling⟩

/-! ### What the counter changes -/

/-- The last bit of the counter is the last bit of byte 3, so it is the XOR of the last bits of the whitened bytes 2
and 3 (43_codecs_rolling.md R181, R183). -/
theorem somfyWhite_counter (c : Config) (r d : Word) (cmd : Command) (v : Half) :
    somfyWhite (somfyByte c r d cmd v) 31
      = (somfyWhite (somfyByte c r d cmd v) 23 ^^ v.getLsbD 0) := by
  have hcounter : somfyByte c r d cmd v 3 = v.extractLsb' 0 8 := rfl
  simp [somfyWhite, List.range_succ (n := 3), hcounter]

theorem getLsbD_zero_succ (v : Half) : (v + 1).getLsbD 0 = !v.getLsbD 0 := by
  rw [Bool.eq_iff_iff]
  simp only [BitVec.getLsbD, Nat.testBit_zero, BitVec.toNat_add, decide_eq_true_eq, Bool.not_eq_true',
    decide_eq_false_iff_not, show (1 : Half).toNat = 1 from rfl]
  omega

/-- Bursts that differ in the counter by one differ at the ticks of a last bit (43_codecs_rolling.md R189). -/
theorem somfyBurstLevel_counter_ne {c : Config} (hwf : c.wf = true) (r d : Word) (cmd : Command) (v : Half) :
    ∃ k, k < 213 ∧ somfyBurstLevel c (somfyByte c r d cmd (v + 1)) k
      ≠ somfyBurstLevel c (somfyByte c r d cmd v) k := by
  obtain ⟨-, -, hfirstLen, -, -, -⟩ := (cfg_wf_iff c).1 hwf
  have hstart : somfyDataStart c true + 112 ≤ 213 := by
    simp only [Config.somfyFirstLen] at hfirstLen
    simp only [somfyDataStart, if_true]
    omega
  by_contra hequal
  push Not at hequal
  have hwhite (j : Nat) (hj : j < 56) :
      somfyWhite (somfyByte c r d cmd (v + 1)) j = somfyWhite (somfyByte c r d cmd v) j := by
    have htick := hequal (somfyDataStart c true + 2 * j) (by omega)
    rw [somfyBurstLevel, somfyBurstLevel, if_pos (by omega), if_pos (by omega),
      somfyLevel_data c true _ (by omega), somfyLevel_data c true _ (by omega)] at htick
    simpa using htick
  have h31 := hwhite 31 (by decide)
  rw [somfyWhite_counter, somfyWhite_counter, hwhite 23 (by decide), getLsbD_zero_succ] at h31
  simp at h31

/-- FMT.SOMFY runs through, and BUF0 holds the burst of the value it read (43_codecs_rolling.md R185). -/
theorem exec_fmtSomfy_bits {s : State} {r d dl : Word} {cmd : Command} {v : Half} (hwf : s.cfg.wf = true)
    (hruns : RollingRuns .somfy cmd r d dl s) (hgrants : State.grants 2 s = true)
    (hv : (ReplayStore.find s.store ⟨.somfy, r, d⟩).getD 0 = v) :
    exec (.fmtSomfy cmd) s = .next (afterRolling .somfy cmd r d v s)
      ∧ ∀ k, k < frameBits s.cfg .somfy → Memory.read (afterRolling .somfy cmd r d v s).buf0 k
        = some (somfyBurstLevel s.cfg (somfyByte s.cfg r d cmd v) k) := by
  obtain ⟨-, hbits, -⟩ := writesFrame_afterSomfy hwf cmd r d v
  exact ⟨hruns.exec hgrants hv.symm, hbits⟩

/-- Settles O44: the second FMT reads the first one's counter plus one, and the one after the record was put back reads
the first one's. -/
theorem somfyCounterChangesTheFrame : Obligations.SomfyCounterChangesTheFrame := by
  intro s r d dl cmd hwf hshared hgrants h0 h1 h2 hcap hfits hcmd key v
  obtain ⟨hread, hwrite, hgrantsLater⟩ := grants_add_two.1 hgrants
  have hruns : RollingRuns .somfy cmd r d dl s := ⟨hshared, h0, h1, h2, checks_of_fits .somfy hcap hfits hcmd⟩
  set t := afterRolling .somfy cmd r d v s
  set back : State := { t with store := ReplayStore.insert t.store key v }
  have hcfg : t.cfg = s.cfg := afterRolling_cfg
  have hcfgBack : back.cfg = s.cfg := hcfg
  have hgrantsSecond : State.grants 2 t = true := (afterRolling_grants 2).trans hgrantsLater
  have hgrantsBack : State.grants 2 back = true := (grants_congr (s := back) (t := t) rfl rfl 2).trans hgrantsSecond
  have hrecord : ReplayStore.find t.store key = some (v + 1) := (find_afterRolling key).trans (if_pos rfl)
  have hrecordBack : ReplayStore.find back.store key = some v := (find_insert t.store key v key).trans (if_pos rfl)
  obtain ⟨hexec, hbits⟩ := exec_fmtSomfy_bits hwf hruns (grants_add_two.2 ⟨hread, hwrite, rfl⟩) rfl
  obtain ⟨hexecSecond, hbitsSecond⟩ :=
    exec_fmtSomfy_bits (hcfg ▸ hwf) hruns.after hgrantsSecond (congrArg (·.getD 0) hrecord)
  obtain ⟨hexecBack, hbitsBack⟩ :=
    exec_fmtSomfy_bits (s := back) (hcfgBack ▸ hwf) (hruns.after.withStore _) hgrantsBack
      (congrArg (·.getD 0) hrecordBack)
  rw [hcfg] at hbitsSecond
  rw [hcfgBack] at hbitsBack
  refine ⟨t, _, _, hexec, hexecSecond, hexecBack, ?differ, fun k hk => ?equal⟩
  case differ =>
    obtain ⟨k, hk, hne⟩ := somfyBurstLevel_counter_ne hwf r d cmd v
    have hin : k < frameBits s.cfg .somfy := Nat.lt_add_right _ hk
    refine ⟨k, hin, fun hequal => hne ?_⟩
    exact Option.some.inj ((hbitsSecond k hin).symm.trans (hequal.trans (hbits k hin)))
  case equal => exact (hbitsBack k hk).trans (hbits k hk).symm

/-! ### Blyss -/

/-- The device nibble (43_codecs_rolling.md R190). -/
theorem blyssDevice_getLsbD (cmd : Command) (d : Word) {i : Nat} (hi : i < 4) :
    (blyssDevice cmd d).getLsbD i = if cmd = .groupOff ∨ cmd = .groupOn then false else d.getLsbD i := by
  cases cmd with
  | groupOff | groupOn => simp [blyssDevice]
  | off | on | prog | f1 | f2 | f3 => simp [blyssDevice, hi]

/-- The rolling code is the table's entry at the index (43_codecs_rolling.md R191). -/
theorem blyssRolling_tableEntry (c : Config) (v : Half) :
    c.blyssRc.toList[v.toNat % 5]? = some (blyssRolling c v) := by
  simp [blyssRolling, Vector.get]

/-- Settles O38: the seven fields stand at places 0, 8, 12, 28, 32, 36 and 44. -/
theorem blyssFrame : Obligations.BlyssFrame := by
  intro s r d dl cmd code v hshared hgrants h0 h1 h2 hcap hfits hcode hv
  obtain ⟨hcmd, rfl⟩ := code_of_mem_table (l := accepted .blyss) (codes := blyssCode s.cfg) hcode
  have hruns : RollingRuns .blyss cmd r d dl s := ⟨hshared, h0, h1, h2, checks_of_fits .blyss hcap hfits hcmd⟩
  refine ⟨_, _, hruns.exec hgrants hv, blyssRolling_tableEntry s.cfg v,
    writesFrame_afterRolling (encBlyss_length s.cfg r d cmd v) ?_, find_afterRolling⟩
  change StandsAt _ 0 (encBlyss s.cfg r d cmd v)
  simp only [encBlyss, byteBits, standsAt_append, List.length_append, seqBits_length]
  refine ⟨⟨⟨⟨⟨⟨standsAt_field fun i hi => ?frameType, standsAt_field fun i hi => ?remoteHigh⟩,
    standsAt_field fun i hi => ?remoteLow⟩, standsAt_field fun i hi => ?device⟩,
    standsAt_field fun i hi => ?command⟩, standsAt_field fun i hi => ?rolling⟩,
    standsAt_field fun i hi => ?complement⟩
  case device => grind [blyssDevice_getLsbD]
  case frameType | remoteHigh | remoteLow | command | rolling | complement => grind

end Sys2Proof.Proofs
end

section
/-! PROOFS. The statements of the family 44_raw_engine.md: the tolerant gcd, the accuracy floor and the quantum (R201 to
R205), the tick counts (R206, R207, R213), the bits of a rendering (R208, R209), and the three operations on every path
(R204, R211, R212). -/

namespace Sys2Proof.Proofs

open Sys2Proof Sys2Proof.Machine Sys2Proof.Laws

/-! ### The tolerant gcd -/

/-- A first argument of 0 ends the loop at once, whatever its bound. -/
theorem gcdLoop_zero_left (fuel b fl : Nat) : gcdLoop fuel 0 b fl = b := by
  cases fuel with
  | zero => rfl
  | succ fuel => exact if_pos (Nat.zero_le fl)

/-- The first argument falls on every pass, so more passes than its value change nothing (44_raw_engine.md R201). -/
theorem gcdLoop_eq_of_le {fuel fuel' a : Nat} (b fl : Nat) (h : a ≤ fuel) (h' : a ≤ fuel') :
    gcdLoop fuel a b fl = gcdLoop fuel' a b fl := by
  induction fuel generalizing fuel' a b with
  | zero =>
    obtain rfl : a = 0 := Nat.le_zero.1 h
    rw [gcdLoop_zero_left, gcdLoop_zero_left]
  | succ fuel ih =>
    obtain rfl | ha := Nat.eq_zero_or_pos a
    · rw [gcdLoop_zero_left, gcdLoop_zero_left]
    · obtain ⟨fuel', rfl⟩ := Nat.exists_eq_succ_of_ne_zero (show fuel' ≠ 0 by omega)
      have hfalls : b % a < a := Nat.mod_lt b ha
      rw [gcdLoop, gcdLoop, ih (fuel' := fuel') a (by omega) (by omega)]

/-- The recursion of 44_raw_engine.md R201. -/
theorem tolerantGcd_eq (a b fl : Nat) :
    tolerantGcd a b fl = if a ≤ fl then b else tolerantGcd (b % a) a fl := by
  have hpass : tolerantGcd a b fl = gcdLoop (a + 1) a b fl := gcdLoop_eq_of_le b fl le_rfl (Nat.le_succ a)
  rw [hpass, gcdLoop]
  split
  · rfl
  · next ha => exact gcdLoop_eq_of_le a fl (Nat.mod_lt b (by omega)).le le_rfl

theorem tolerantGcd_zero_left (b fl : Nat) : tolerantGcd 0 b fl = b := gcdLoop_zero_left 0 b fl

theorem tolerantGcd_le_max (a b fl : Nat) : tolerantGcd a b fl ≤ max a b := by
  induction a, b using Nat.gcd.induction with
  | H0 b => exact (tolerantGcd_zero_left b fl).trans_le (le_max_right 0 b)
  | H1 a b ha ih =>
    rw [tolerantGcd_eq]
    split
    · exact le_max_right a b
    · calc tolerantGcd (b % a) a fl ≤ max (b % a) a := ih
        _ = a := max_eq_right (Nat.mod_lt b ha).le
        _ ≤ max a b := le_max_left a b

/-- With a floor of 0 the loop ends only at a remainder of 0, as Euclid's does. -/
theorem tolerantGcd_floor_zero (a b : Nat) : tolerantGcd a b 0 = Nat.gcd a b := by
  induction a, b using Nat.gcd.induction with
  | H0 b => rw [tolerantGcd_zero_left, Nat.gcd_zero_left]
  | H1 a b ha ih => rw [tolerantGcd_eq, if_neg (Nat.not_le.2 ha), ih, ← Nat.gcd_rec]

/-- Two passes of Euclid's algorithm more than halve the first argument. -/
theorem two_mul_mod_mod_lt {a b : Nat} (ha : 0 < a) (hr : 0 < b % a) : 2 * (a % (b % a)) < a := by
  have hfalls : b % a < a := Nat.mod_lt b ha
  have hremainder : a % (b % a) < b % a := Nat.mod_lt a hr
  have hquotient : b % a * 1 ≤ b % a * (a / (b % a)) := Nat.mul_le_mul_left _ (Nat.div_pos hfalls.le hr)
  have hdivision : a % (b % a) + b % a * (a / (b % a)) = a := Nat.mod_add_div a (b % a)
  omega

/-- Two passes for each bit of the first argument reach the result (44_raw_engine.md R201). -/
theorem gcdLoop_eq_tolerantGcd {bits fuel a : Nat} (b fl : Nat) (ha : a < 2 ^ bits) (hfuel : 2 * bits ≤ fuel) :
    gcdLoop fuel a b fl = tolerantGcd a b fl := by
  induction bits generalizing fuel a b with
  | zero =>
    obtain rfl : a = 0 := Nat.lt_one_iff.1 ha
    rw [gcdLoop_zero_left, tolerantGcd_zero_left]
  | succ bits ih =>
    obtain ⟨fuel, rfl⟩ : ∃ k, fuel = k + 2 := ⟨fuel - 2, by omega⟩
    rw [gcdLoop, gcdLoop, tolerantGcd_eq a b, tolerantGcd_eq (b % a) a]
    split
    · rfl
    · split
      · rfl
      · have hhalves : 2 * (a % (b % a)) < a := two_mul_mod_mod_lt (by omega) (by omega)
        exact ih _ (by omega) (by omega)

/-- Settles O46: 16 bits, two passes for each, are 32 passes. -/
theorem tolerantGcdIsEarlyEuclid : Obligations.TolerantGcdIsEarlyEuclid := fun a b fl =>
  ⟨tolerantGcd_eq a b fl, tolerantGcd_le_max a b fl, tolerantGcd_floor_zero a b,
    fun ha _ => gcdLoop_eq_tolerantGcd (bits := 16) b fl ha (by decide)⟩

/-! ### The accuracy floor -/

/-- `smallestNonzero` with one more number in front. -/
theorem smallestNonzero_cons (x : Nat) (l : List Nat) : smallestNonzero (x :: l)
    = if x = 0 then smallestNonzero l else if smallestNonzero l = 0 then x else min x (smallestNonzero l) := rfl

theorem smallestNonzero_mem {l : List Nat} (h : smallestNonzero l ≠ 0) : smallestNonzero l ∈ l := by
  induction l with
  | nil => exact absurd rfl h
  | cons x l ih =>
    rw [smallestNonzero_cons] at h ⊢
    grind

theorem smallestNonzero_le {l : List Nat} {x : Nat} (hmem : x ∈ l) (hx : x ≠ 0) :
    smallestNonzero l ≠ 0 ∧ smallestNonzero l ≤ x := by
  induction l with
  | nil => cases hmem
  | cons y l ih =>
    rw [smallestNonzero_cons]
    grind

/-- `smallestNonzero` is the smallest nonzero number of the list, when there is one (44_raw_engine.md R202). -/
theorem smallestNonzero_eq {l : List Nat} {m : Nat} (h : IsSmallestNonzero l m) : smallestNonzero l = m := by
  obtain ⟨hmem, hm, hleast⟩ := h
  obtain ⟨hne, hle⟩ := smallestNonzero_le hmem hm
  exact le_antisymm hle (hleast _ (smallestNonzero_mem hne) hne)

/-- The quantum is the combination at the floor of the smallest nonzero duration (44_raw_engine.md R202, R203). -/
theorem quantum_eq_combine {t : Pulses} {m : Nat} (h : IsSmallestNonzero t.toList m) (acc : Nat) :
    quantum acc t = combine t (m * (100 - acc) / 100) := by
  rw [quantum, smallestNonzero_eq h, accuracyFloor]

/-- Settles O47: the floor is the share `100 - acc` of a hundred of the smallest duration. -/
theorem accuracyFloorOfTheSmallestDuration : Obligations.AccuracyFloorOfTheSmallestDuration := by
  intro acc m t _ hm
  refine ⟨quantum_eq_combine hm acc, ?atMost, ?exact, ?whole⟩
  case atMost =>
    have hshare : m * (100 - acc) ≤ m * 100 := Nat.mul_le_mul_left m (Nat.sub_le 100 acc)
    exact Nat.div_le_of_le_mul (by rwa [Nat.mul_comm 100])
  case exact =>
    rintro rfl
    simp
  case whole =>
    rintro rfl
    exact Nat.mul_div_cancel m (by decide)

/-! ### Tick counts -/

/-- Settles O48: `RND(x, base)` is the quotient of `x + base / 2`, whose remainder is below `base`. -/
theorem roundingIsHalfUp : Obligations.RoundingIsHalfUp := by
  intro base x hbase
  have hbelow : roundTicks base x * base ≤ x + base / 2 := Nat.div_mul_le_self _ _
  have habove : x + base / 2 < roundTicks base x * base + base := Nat.lt_div_mul_add hbase
  omega

/-! ### Durations of register words -/

@[simp] theorem highOf_toNat (w : Word) : (highOf w).toNat = w.toNat / 65536 := by
  have hw := w.isLt
  simp only [highOf, BitVec.extractLsb'_toNat, Nat.shiftRight_eq_div_pow]
  omega

@[simp] theorem lowOf_toNat (w : Word) : (lowOf w).toNat = w.toNat % 65536 := by
  simp [lowOf, BitVec.extractLsb'_toNat]

theorem pulsesOf_toList (start stop bit0 bit1 : Word) :
    (pulsesOf start stop bit0 bit1).toList = durationList start stop bit0 bit1 := by
  simp [pulsesOf, Pulses.toList, durationList]

theorem combine_pulsesOf (start stop bit0 bit1 : Word) (fl : Nat) :
    combine (pulsesOf start stop bit0 bit1) fl = quantumFrom start stop bit0 bit1 fl := by
  simp [combine, pulsesOf, quantumFrom]

/-- The durations are 16-bit numbers (10_state.md R30). -/
theorem durationList_le {start stop bit0 bit1 : Word} {x : Nat} (h : x ∈ durationList start stop bit0 bit1) :
    x ≤ 65535 := by
  simp only [durationList, List.mem_flatMap, List.mem_cons, List.not_mem_nil, or_false] at h
  obtain ⟨w, -, rfl | rfl⟩ := h
  · have hw := w.isLt
    omega
  · omega

theorem tolerantGcd_le {a b n : Nat} (fl : Nat) (ha : a ≤ n) (hb : b ≤ n) : tolerantGcd a b fl ≤ n :=
  (tolerantGcd_le_max a b fl).trans (max_le ha hb)

/-- The combination is bounded by the largest of the eight numbers. -/
theorem combine_le {t : Pulses} {n : Nat} (fl : Nat) (h : ∀ x ∈ t.toList, x ≤ n) : combine t fl ≤ n := by
  simp only [Pulses.toList, List.forall_mem_cons] at h
  obtain ⟨hstartH, hstartL, hendH, hendL, hbit0H, hbit0L, hbit1H, hbit1L, -⟩ := h
  have hedges := tolerantGcd_le fl (tolerantGcd_le fl hstartH hstartL) (tolerantGcd_le fl hendH hendL)
  have hbits := tolerantGcd_le fl (tolerantGcd_le fl hbit0H hbit0L) (tolerantGcd_le fl hbit1H hbit1L)
  exact tolerantGcd_le fl hedges hbits

/-- A quantum of durations in registers fits 16 bits (44_raw_engine.md R204). -/
theorem combine_le_of_durations {r : TimingRegs} {t : BitVec 2 × Pulses} (h : r.durations = some t) (fl : Nat) :
    combine t.2 fl ≤ 65535 := by
  obtain ⟨start, stop, bit0, bit1, -, -, -, -, -, ht⟩ := (durations_eq_some r t).1 h
  rw [ht]
  exact combine_le fl fun x hx => durationList_le (pulsesOf_toList .. ▸ hx)

theorem durations_of_registers {r : TimingRegs} {fmt : BitVec 2} {start stop bit0 bit1 : Word}
    (hfmt : r.fmt = some fmt) (hstart : r.start = some start) (hstop : r.stop = some stop)
    (hbit0 : r.bit0 = some bit0) (hbit1 : r.bit1 = some bit1) :
    r.durations = some (fmt, pulsesOf start stop bit0 bit1) :=
  (durations_eq_some r _).2 ⟨start, stop, bit0, bit1, hfmt, hstart, hstop, hbit0, hbit1, rfl⟩

/-! ### RAW.BASETIME -/

section Basetime
variable {acc : Byte} {s : State} {t : BitVec 2 × Pulses}

theorem exec_rawBasetime_of_accuracy (ht : s.tcfg.durations = some t) (hacc : 100 < acc.toNat) :
    exec (.rawBasetime acc) s = .next (complete .illegalOperation s) := by
  refine congrArg Host.Outcome.next ?_
  rw [rawBasetime, ht, withOperands_some, if_pos hacc]

theorem exec_rawBasetime_of_none (ht : s.tcfg.durations = some t) (hacc : acc.toNat ≤ 100)
    (hbase : baseTime acc.toNat t.1 t.2 = none) :
    exec (.rawBasetime acc) s = .next (complete .timingUnsupported s) := by
  refine congrArg Host.Outcome.next ?_
  rw [rawBasetime, ht, withOperands_some, if_neg (Nat.not_lt.2 hacc), hbase]

theorem exec_rawBasetime_of_some {base : Nat} (ht : s.tcfg.durations = some t) (hacc : acc.toNat ≤ 100)
    (hbase : baseTime acc.toNat t.1 t.2 = some base) :
    exec (.rawBasetime acc) s = .next (complete .ok { s with res0 := BitVec.ofNat 32 base }) := by
  refine congrArg Host.Outcome.next ?_
  rw [rawBasetime, ht, withOperands_some, if_neg (Nat.not_lt.2 hacc), hbase]

end Basetime

/-- What RAW.BASETIME cannot support (44_raw_engine.md R205, R207). -/
theorem baseTime_of_unsupported {acc : Nat} {tag : BitVec 2} {t : Pulses}
    (h : (tag ≠ 0 ∧ tag ≠ 1) ∨ (∀ x ∈ t.toList, x = 0) ∨ quantum acc t = 0) : baseTime acc tag t = none := by
  refine Option.eq_none_iff_forall_ne_some.2 fun base hbase => ?_
  obtain ⟨htag, ⟨x, hmem, hx⟩, hquantum, -⟩ := (baseTime_eq_some acc tag t base).1 hbase
  obtain ⟨h0, h1⟩ | hzero | hnone := h
  · exact htag.elim h0 h1
  · exact hx (hzero x hmem)
  · exact hquantum hnone

/-- A quantum fits the 16 bits of the durations (44_raw_engine.md R204). -/
theorem baseTime_le {r : TimingRegs} {tag : BitVec 2} {t : Pulses} {acc base : Nat}
    (ht : r.durations = some (tag, t)) (hbase : baseTime acc tag t = some base) : base ≤ 65535 := by
  obtain ⟨-, -, -, rfl⟩ := (baseTime_eq_some ..).1 hbase
  exact combine_le_of_durations ht _

theorem baseTime_of_quantum {acc m : Nat} {tag : BitVec 2} {t : Pulses} (htag : tag = 0 ∨ tag = 1)
    (hm : IsSmallestNonzero t.toList m) (hquantum : combine t (m * (100 - acc) / 100) ≠ 0) :
    baseTime acc tag t = some (combine t (m * (100 - acc) / 100)) := by
  obtain ⟨hmem, hne, -⟩ := id hm
  rw [← quantum_eq_combine hm acc] at hquantum ⊢
  exact (baseTime_eq_some ..).2 ⟨htag, ⟨m, hmem, hne⟩, hquantum, rfl⟩

/-- Settles O49: the paths are those of `baseTime`, and the quantum is the combination at the accuracy floor. -/
theorem basetimeComputesTheQuantum : Obligations.BasetimeComputesTheQuantum := by
  refine fun acc s => ⟨unwrittenOperandFaults _ s, fun fmt start stop bit0 bit1 hfmt hstart hstop hbit0 hbit1 => ?_⟩
  have ht := durations_of_registers hfmt hstart hstop hbit0 hbit1
  refine ⟨exec_rawBasetime_of_accuracy ht, fun hacc hunsupported => ?_, fun m base hacc htag hm hbase => ?_⟩
  · rw [← pulsesOf_toList] at hunsupported
    exact exec_rawBasetime_of_none ht hacc (baseTime_of_unsupported (hunsupported.imp_right .inl))
  · rw [← pulsesOf_toList] at hm
    rw [← combine_pulsesOf] at hbase
    refine ⟨fun hzero => ?_, fun hne => ⟨hbase.trans_le (combine_le_of_durations ht _), ?_⟩⟩
    · have hquantum : quantum acc.toNat (pulsesOf start stop bit0 bit1) = 0 := by
        rw [quantum_eq_combine hm, ← hbase, hzero]
      exact exec_rawBasetime_of_none ht hacc (baseTime_of_unsupported (.inr (.inr hquantum)))
    · subst hbase
      exact exec_rawBasetime_of_some ht hacc (baseTime_of_quantum htag hm hne)

/-! ### Representable durations -/

theorem orderOfTag_tagOfOrder (o : Order) : orderOfTag (tagOfOrder o) = some o := by cases o <;> rfl

theorem orderOfTag_isSome (tag : BitVec 2) : (∃ o, orderOfTag tag = some o) ↔ tag = 0 ∨ tag = 1 := by
  unfold orderOfTag
  split
  · next h => simp [h]
  · split
    · next h => simp [h]
    · next h0 h1 => exact iff_of_false (fun ⟨_, h⟩ => by cases h) (not_or.2 ⟨h0, h1⟩)

/-- No duration vanishes exactly when each register word is representable (44_raw_engine.md R207). -/
theorem vanishes_eq_false (base : Nat) (start stop bit0 bit1 : Word) :
    vanishes base (pulsesOf start stop bit0 bit1) = false
      ↔ ∀ w ∈ [start, stop, bit0, bit1], representable base w := by
  simp only [vanishes, pulsesOf_toList, durationList, List.any_eq_false, List.forall_mem_flatMap]
  refine forall₂_congr fun w _ => ?_
  simp [representable, highTicks, lowTicks, roundTicks]

/-- The format and timing checks of RAW.RENDER pass: an order, a quantum, and no duration that vanishes at it
(44_raw_engine.md R205, R207). -/
structure PassesTiming (tag : BitVec 2) (base : Nat) (t : Pulses) (o : Order) : Prop where
  order : orderOfTag tag = some o
  quantum : base ≠ 0
  durations : vanishes base t = false

theorem exists_passesTiming (tag : BitVec 2) (base start stop bit0 bit1 : Word) :
    (∃ o, PassesTiming tag base.toNat (pulsesOf start stop bit0 bit1) o)
      ↔ (tag = 0 ∨ tag = 1) ∧ base ≠ 0 ∧ ∀ w ∈ [start, stop, bit0, bit1], representable base.toNat w := by
  have hbase : base.toNat ≠ 0 ↔ base ≠ 0 := not_congr (BitVec.toNat_eq (y := 0)).symm
  rw [← orderOfTag_isSome, ← hbase, ← vanishes_eq_false]
  exact ⟨fun ⟨o, h⟩ => ⟨⟨o, h.order⟩, h.quantum, h.durations⟩, fun ⟨⟨o, ho⟩, hne, ht⟩ => ⟨o, ho, hne, ht⟩⟩

/-! ### The bits of a rendering -/

section RenderCase
variable (c : RenderCase) (base : Nat)

/-- The eight durations of the request. -/
def casePulses : Pulses := pulsesOf c.start c.stop c.bit0 c.bit1

/-- The source bits of the request. -/
def caseSource : Frame := (List.range c.count.toNat).map c.source

/-- The edge pattern of a register word in ticks (44_raw_engine.md R206, R209). -/
def wordEdge (w : Word) : Frame := edge c.order (highTicks base w) (lowTicks base w)

/-- The edge patterns of the first `n` source bits. -/
def sourceEdges (n : Nat) : Frame := (List.range n).flatMap fun k => wordEdge c base (c.bitWord k)

/-- The rendering of the request: the start edge, the patterns of the source bits, the end edge (44_raw_engine.md
R209). -/
def caseRendering : Frame :=
  wordEdge c base c.start ++ sourceEdges c base c.count.toNat ++ wordEdge c base c.stop

@[simp] theorem caseSource_length : (caseSource c).length = c.count.toNat := by simp [caseSource]

theorem caseSource_getElem? {k : Nat} (hk : k < c.count.toNat) : (caseSource c)[k]? = some (c.source k) := by
  simp [caseSource, hk]

@[simp] theorem wordEdge_length (w : Word) : (wordEdge c base w).length = pairTicks base w := edge_length _ _ _

theorem wordEdge_getElem? {w : Word} {q : Nat} (hq : q < pairTicks base w) :
    (wordEdge c base w)[q]? = some (edgeLevel c.order (highTicks base w) (lowTicks base w) q) :=
  edge_getElem? c.order hq

theorem sourceEdges_succ (n : Nat) :
    sourceEdges c base (n + 1) = sourceEdges c base n ++ wordEdge c base (c.bitWord n) := by
  simp [sourceEdges, List.range_succ]

@[simp] theorem place_zero : c.place base 0 = pairTicks base c.start := by simp [RenderCase.place]

theorem place_succ (n : Nat) : c.place base (n + 1) = c.place base n + pairTicks base (c.bitWord n) := by
  rw [RenderCase.place, Finset.sum_range_succ, ← Nat.add_assoc]
  rfl

/-- The patterns of the first `n` source bits end where that of source bit `n` begins. -/
theorem edgesUpTo_length (n : Nat) :
    (wordEdge c base c.start ++ sourceEdges c base n).length = c.place base n := by
  induction n with
  | zero => simp [sourceEdges]
  | succ n ih => rw [sourceEdges_succ, ← List.append_assoc, List.length_append, ih, wordEdge_length, place_succ]

theorem caseRendering_length : (caseRendering c base).length = c.length base := by
  rw [caseRendering, List.length_append, edgesUpTo_length, wordEdge_length, RenderCase.length]

theorem sourceEdges_eq_edges : sourceEdges c base c.count.toNat
    = edges (caseSource c) c.order (highTicks base c.bit0) (lowTicks base c.bit0)
        c.order (highTicks base c.bit1) (lowTicks base c.bit1) := by
  rw [edges, caseSource, List.flatMap_map, sourceEdges]
  refine congrArg (List.flatMap · _) (funext fun k => ?_)
  cases hk : c.source k <;> simp [RenderCase.bitWord, wordEdge, hk]

/-- What the model emits for the source bits and the tick counts of the request. -/
theorem renderFrame_eq_caseRendering :
    renderFrame c.order ((casePulses c).map (roundTicks base)) (caseSource c) = caseRendering c base := by
  rw [caseRendering, sourceEdges_eq_edges]
  simp [renderFrame, wordEdge, casePulses, pulsesOf, Pulses.map, roundTicks, highTicks, lowTicks]

/-- The length by the formula of 44_raw_engine.md R208 is where the end edge ends. -/
theorem renderLength_eq_length :
    renderLength ((casePulses c).map (roundTicks base)) (caseSource c) = c.length base := by
  rw [← renderFrame_length c.order, renderFrame_eq_caseRendering, caseRendering_length]

theorem caseRendering_start {q : Nat} (hq : q < pairTicks base c.start) : (caseRendering c base)[q]?
    = some (edgeLevel c.order (highTicks base c.start) (lowTicks base c.start) q) := by
  have hin : q < (wordEdge c base c.start).length := (wordEdge_length c base c.start).symm ▸ hq
  rw [caseRendering, List.append_assoc, List.getElem?_append_left hin, wordEdge_getElem? c base hq]

theorem caseRendering_stop {q : Nat} (hq : q < pairTicks base c.stop) :
    (caseRendering c base)[c.place base c.count.toNat + q]?
      = some (edgeLevel c.order (highTicks base c.stop) (lowTicks base c.stop) q) := by
  rw [caseRendering, ← edgesUpTo_length, List.getElem?_append_right (Nat.le_add_right _ _), Nat.add_sub_cancel_left,
    wordEdge_getElem? c base hq]

/-- Once emitted, the pattern of source bit `k` stands at its place. -/
theorem edgesUpTo_getElem? {n k q : Nat} (hk : k < n) (hq : q < pairTicks base (c.bitWord k)) :
    (wordEdge c base c.start ++ sourceEdges c base n)[c.place base k + q]?
      = some (edgeLevel c.order (highTicks base (c.bitWord k)) (lowTicks base (c.bitWord k)) q) := by
  induction n with
  | zero => exact absurd hk (Nat.not_lt_zero k)
  | succ n ih =>
    rw [sourceEdges_succ, ← List.append_assoc]
    obtain hbefore | rfl := Nat.lt_succ_iff_lt_or_eq.1 hk
    · obtain ⟨hin, -⟩ := List.getElem?_eq_some_iff.1 (ih hbefore)
      rw [List.getElem?_append_left hin, ih hbefore]
    · rw [← edgesUpTo_length, List.getElem?_append_right (Nat.le_add_right _ _), Nat.add_sub_cancel_left,
        wordEdge_getElem? c base hq]

theorem caseRendering_source {k q : Nat} (hk : k < c.count.toNat) (hq : q < pairTicks base (c.bitWord k)) :
    (caseRendering c base)[c.place base k + q]?
      = some (edgeLevel c.order (highTicks base (c.bitWord k)) (lowTicks base (c.bitWord k)) q) := by
  have hbit := edgesUpTo_getElem? c base hk hq
  obtain ⟨hin, -⟩ := List.getElem?_eq_some_iff.1 hbit
  rw [caseRendering, List.getElem?_append_left hin, hbit]

/-- The read of BUF0 finds the source bits of the request. -/
theorem readRun_caseSource {s : State} (h : ∀ k, k < c.count.toNat → Memory.read s.buf0 k = some (c.source k)) :
    Memory.readRun s.buf0 0 c.count.toNat = some (caseSource c) := by
  refine (readRun_eq_some ..).2 ⟨caseSource_length c, fun k hk => ?_⟩
  rw [Nat.zero_add, h k hk, caseSource_getElem? c hk]

end RenderCase

/-! ### RAW.RENDER from its format check on -/

section RenderFrom
variable {tag : BitVec 2} {o : Order} {t : Pulses} {base n dl : Nat} {f : Frame} {s : State}

theorem renderFrom_of_untimed (h : ¬∃ o, PassesTiming tag base t o) (fc : Half) (res0 : Word) :
    renderFrom tag t fc base n dl res0 s = complete .timingUnsupported s := by
  obtain ⟨-, hend⟩ | ⟨o, ho, hbase, ht, -⟩ := renderFrom_cases tag t fc base n dl res0 s
  · exact hend
  · exact absurd ⟨o, ho, hbase, ht⟩ h

theorem renderFrom_of_unwritten (h : PassesTiming tag base t o) (hread : Memory.readRun s.buf0 0 n = none)
    (fc : Half) (res0 : Word) : renderFrom tag t fc base n dl res0 s = raiseFault .unwrittenRead s := by
  simp [renderFrom, h.order, h.quantum, h.durations, hread]

theorem renderFrom_of_long (h : PassesTiming tag base t o) (hread : Memory.readRun s.buf0 0 n = some f)
    (hlong : 8 * dl < renderLength (t.map (roundTicks base)) f ∨ 65535 < renderLength (t.map (roundTicks base)) f)
    (fc : Half) (res0 : Word) : renderFrom tag t fc base n dl res0 s = complete .bufferTooSmall s := by
  simp [renderFrom, h.order, h.quantum, h.durations, hread, hlong]

theorem renderFrom_of_fits (h : PassesTiming tag base t o) (hread : Memory.readRun s.buf0 0 n = some f)
    (hcap : renderLength (t.map (roundTicks base)) f ≤ 8 * dl)
    (hbitcnt : renderLength (t.map (roundTicks base)) f ≤ 65535) (fc : Half) (res0 : Word) :
    renderFrom tag t fc base n dl res0 s = complete .ok
      { s with
        buf1 := Memory.write s.buf1 0 (renderFrame o (t.map (roundTicks base)) f)
        bitcnt := BitVec.ofNat 16 (renderLength (t.map (roundTicks base)) f)
        rtcfg := rawTiming (BitVec.ofNat 16 base) fc
        res0 := res0 } := by
  simp [renderFrom, h.order, h.quantum, h.durations, hread, Nat.not_lt.2 hcap, Nat.not_lt.2 hbitcnt]

/-- The rendering does not read A0, and RES0 takes its new value only where it ends OK (44_raw_engine.md R211, R212). -/
theorem renderFrom_eq_of_withBase {fc : Half} {res0 : Word} {a0 : Option Word} {u : State} (hfault : s.fault = none)
    (hu : renderFrom tag t fc base n dl s.res0 { s with a0 := a0 } = u) :
    renderFrom tag t fc base n dl res0 s = { u with
      a0 := s.a0
      res0 := if u.fault = none ∧ u.status = .ok then res0 else s.res0 } := by
  set s' : State := { s with a0 := a0 } with hs'
  by_cases htimed : ∃ o, PassesTiming tag base t o
  case neg =>
    rw [renderFrom_of_untimed htimed] at hu ⊢
    simp [← hu, hs', complete]
  case pos =>
    obtain ⟨o, h⟩ := htimed
    cases hread : Memory.readRun s.buf0 0 n with
    | none =>
      rw [renderFrom_of_unwritten h hread]
      rw [renderFrom_of_unwritten (s := s') h hread] at hu
      simp [← hu, hs', raiseFault]
    | some f =>
      by_cases hfits : renderLength (t.map (roundTicks base)) f ≤ 8 * dl
          ∧ renderLength (t.map (roundTicks base)) f ≤ 65535
      · rw [renderFrom_of_fits h hread hfits.1 hfits.2]
        rw [renderFrom_of_fits (s := s') h hread hfits.1 hfits.2] at hu
        simp [← hu, hs', complete, hfault]
      · rw [renderFrom_of_long h hread (by omega)]
        rw [renderFrom_of_long (s := s') h hread (by omega)] at hu
        simp [← hu, hs', complete]

end RenderFrom

/-- A request that can be rendered is, whatever RES0 is to become (44_raw_engine.md R209, R210, R211). -/
theorem rendered_renderFrom {s : State} {c : RenderCase} {base : Nat} (hholds : c.holds s) (hfits : c.fits base s)
    (res0 : Word) : c.rendered base res0 s
      (renderFrom (tagOfOrder c.order) (casePulses c) c.fcount base c.count.toNat c.dataLen.toNat res0 s) := by
  obtain ⟨-, -, -, -, -, -, -, -, hsource⟩ := hholds
  obtain ⟨hbase, -, -, -, hstart, hstop, hbit0, hbit1, hcap, hbitcnt⟩ := hfits
  have htimed : PassesTiming (tagOfOrder c.order) base (casePulses c) c.order :=
    ⟨orderOfTag_tagOfOrder c.order, hbase.ne', (vanishes_eq_false ..).2 (by simp [hstart, hstop, hbit0, hbit1])⟩
  rw [← renderLength_eq_length c base] at hcap hbitcnt
  rw [renderFrom_of_fits htimed (readRun_caseSource c hsource) hcap hbitcnt, renderFrame_eq_caseRendering,
    renderLength_eq_length]
  have hbits {k : Nat} {b : Bool} (hk : (caseRendering c base)[k]? = some b) :
      Memory.read (Memory.write s.buf1 0 (caseRendering c base)) k = some b := by
    obtain ⟨hin, -⟩ := List.getElem?_eq_some_iff.1 hk
    rw [← hk, ← read_write_self s.buf1 0 _ k hin, Nat.zero_add]
  refine ⟨rfl, fun q hq => hbits (caseRendering_start c base hq),
    fun k q hk hq => hbits (caseRendering_source c base hk hq),
    fun q hq => hbits (caseRendering_stop c base hq), fun k hk => ?rest⟩
  case rest => exact read_write_other _ _ _ _ (.inr (by rwa [Nat.zero_add, caseRendering_length]))

/-! ### The operands of RAW.RENDER and RAW.CONVERT -/

theorem operandsRender_eq_some (s : State) (o : RenderOperands) :
    s.operandsRender = some o ↔ s.tcfg.durations = some (o.tag, o.pulses) ∧ s.tcfg.fcount = some o.fcount
      ∧ s.operands012 = some (o.base, o.count, o.dataLen) := by
  simp only [State.operandsRender, Option.bind_eq_bind, Option.bind_eq_some_iff, Option.some.injEq]
  refine ⟨fun ⟨t, ht, fc, hfc, r, hr, ho⟩ => ?_, fun ⟨ht, hfc, hr⟩ => ⟨_, ht, _, hfc, _, hr, rfl⟩⟩
  subst ho
  exact ⟨ht, hfc, hr⟩

theorem operandsConvert_eq_some (s : State) (o : ConvertOperands) :
    s.operandsConvert = some o ↔ s.tcfg.durations = some (o.tag, o.pulses) ∧ s.tcfg.fcount = some o.fcount
      ∧ s.operands12 = some (o.count, o.dataLen) := by
  simp only [State.operandsConvert, Option.bind_eq_bind, Option.bind_eq_some_iff, Option.some.injEq]
  refine ⟨fun ⟨t, ht, fc, hfc, r, hr, ho⟩ => ?_, fun ⟨ht, hfc, hr⟩ => ⟨_, ht, _, hfc, _, hr, rfl⟩⟩
  subst ho
  exact ⟨ht, hfc, hr⟩

/-! ### RAW.RENDER -/

section Render
variable {s : State} {o : RenderOperands}

/-- RAW.RENDER with legal operands goes on to its format check (44_raw_engine.md R211). -/
theorem exec_rawRender (ho : s.operandsRender = some o)
    (hlegal : o.dataLen.toNat ≤ s.cfg.bufBytes ∧ o.count.toNat ≤ 8 * s.cfg.bufBytes ∧ o.base.toNat ≤ 0xFFFF) :
    exec .rawRender s = .next
      (renderFrom o.tag o.pulses o.fcount o.base.toNat o.count.toNat o.dataLen.toNat s.res0 s) := by
  refine congrArg Host.Outcome.next ?_
  rw [rawRender, ho, withOperands_some, if_neg (by omega)]

theorem exec_rawRender_of_reserved (ho : s.operandsRender = some o)
    (hreserved : ¬(o.dataLen.toNat ≤ s.cfg.bufBytes ∧ o.count.toNat ≤ 8 * s.cfg.bufBytes ∧ o.base.toNat ≤ 0xFFFF)) :
    exec .rawRender s = .next (complete .illegalOperation s) := by
  refine congrArg Host.Outcome.next ?_
  rw [rawRender, ho, withOperands_some, if_pos (by omega)]

end Render

/-- Settles O50: a request that can be rendered passes every check. -/
theorem renderWritesThePulseTrain : Obligations.RenderWritesThePulseTrain := by
  intro s c base ha0 hholds hfits
  obtain ⟨hfmt, hstart, hstop, hbit0, hbit1, hfc, ha1, ha2, -⟩ := id hholds
  obtain ⟨-, hbase, hcap, hcount, -⟩ := id hfits
  have ho : s.operandsRender = some ⟨tagOfOrder c.order, casePulses c, c.fcount, base, c.count, c.dataLen⟩ :=
    (operandsRender_eq_some ..).2
      ⟨durations_of_registers hfmt hstart hstop hbit0 hbit1, hfc, (operands012_eq_some ..).2 ⟨ha0, ha1, ha2⟩⟩
  exact ⟨_, exec_rawRender ho ⟨hcap, hcount, hbase⟩, rendered_renderFrom hholds hfits s.res0⟩

/-- Settles O51: the first check that fails gives the end. -/
theorem renderChecksInOrder : Obligations.RenderChecksInOrder := by
  intro s fmt start stop bit0 bit1 base n dl fc hfmt hstart hstop hbit0 hbit1 hfc ha0 ha1 ha2 legal timed
  have ho : s.operandsRender = some ⟨fmt, pulsesOf start stop bit0 bit1, fc, base, n, dl⟩ :=
    (operandsRender_eq_some ..).2
      ⟨durations_of_registers hfmt hstart hstop hbit0 hbit1, hfc, (operands012_eq_some ..).2 ⟨ha0, ha1, ha2⟩⟩
  have hpasses : (∃ o, PassesTiming fmt base.toNat (pulsesOf start stop bit0 bit1) o) ↔ timed :=
    exists_passesTiming fmt base start stop bit0 bit1
  refine ⟨exec_rawRender_of_reserved ho, fun hlegal huntimed => ?timing, fun hlegal htimed hunwritten => ?source,
    fun o source hlegal htimed htag hsource hlong => ?length⟩
  case timing => rw [exec_rawRender ho hlegal, renderFrom_of_untimed (mt hpasses.1 huntimed), complete]
  case source =>
    obtain ⟨o, htimed⟩ := hpasses.2 htimed
    have hread : Memory.readRun s.buf0 0 n.toNat = none := (readRun_eq_none ..).2 (by simpa using hunwritten)
    rw [exec_rawRender ho hlegal, renderFrom_of_unwritten htimed hread, raiseFault]
  case length =>
    obtain ⟨o', htimed⟩ := hpasses.2 htimed
    rw [← renderLength_eq_length] at hlong
    rw [exec_rawRender ho hlegal, renderFrom_of_long htimed (readRun_caseSource _ hsource) hlong, complete]

/-! ### RAW.CONVERT -/

section Convert
variable {s : State} {acc : Byte} {o : ConvertOperands}

theorem exec_rawConvert_of_reserved (ho : s.operandsConvert = some o)
    (hreserved : ¬(acc.toNat ≤ 100 ∧ o.dataLen.toNat ≤ s.cfg.bufBytes ∧ o.count.toNat ≤ 8 * s.cfg.bufBytes)) :
    exec (.rawConvert acc) s = .next (complete .illegalOperation s) := by
  refine congrArg Host.Outcome.next ?_
  rw [rawConvert, ho, withOperands_some, if_pos (by omega)]

theorem exec_rawConvert_of_none (ho : s.operandsConvert = some o)
    (hlegal : acc.toNat ≤ 100 ∧ o.dataLen.toNat ≤ s.cfg.bufBytes ∧ o.count.toNat ≤ 8 * s.cfg.bufBytes)
    (hbase : baseTime acc.toNat o.tag o.pulses = none) :
    exec (.rawConvert acc) s = .next (complete .timingUnsupported s) := by
  refine congrArg Host.Outcome.next ?_
  rw [rawConvert, ho, withOperands_some, if_neg (by omega), hbase]

/-- RAW.CONVERT goes on as RAW.RENDER does from its format check, with the quantum (44_raw_engine.md R212). -/
theorem exec_rawConvert_of_some {base : Nat} (ho : s.operandsConvert = some o)
    (hlegal : acc.toNat ≤ 100 ∧ o.dataLen.toNat ≤ s.cfg.bufBytes ∧ o.count.toNat ≤ 8 * s.cfg.bufBytes)
    (hbase : baseTime acc.toNat o.tag o.pulses = some base) :
    exec (.rawConvert acc) s = .next
      (renderFrom o.tag o.pulses o.fcount base o.count.toNat o.dataLen.toNat (BitVec.ofNat 32 base) s) := by
  refine congrArg Host.Outcome.next ?_
  rw [rawConvert, ho, withOperands_some, if_neg (by omega), hbase]

end Convert

/-- Settles O52: RAW.CONVERT finds the quantum and renders the request at it. -/
theorem convertWritesThePulseTrain : Obligations.ConvertWritesThePulseTrain := by
  intro s c acc m base hacc hholds hm hbase hfits
  obtain ⟨hfmt, hstart, hstop, hbit0, hbit1, hfc, ha1, ha2, -⟩ := id hholds
  obtain ⟨hpos, -, hcap, hcount, -⟩ := id hfits
  have ho : s.operandsConvert = some ⟨tagOfOrder c.order, casePulses c, c.fcount, c.count, c.dataLen⟩ :=
    (operandsConvert_eq_some ..).2
      ⟨durations_of_registers hfmt hstart hstop hbit0 hbit1, hfc, (operands12_eq_some ..).2 ⟨ha1, ha2⟩⟩
  have hquantum : baseTime acc.toNat (tagOfOrder c.order) (casePulses c) = some base := by
    rw [← pulsesOf_toList] at hm
    rw [← combine_pulsesOf] at hbase
    subst hbase
    exact baseTime_of_quantum ((orderOfTag_isSome _).1 ⟨_, orderOfTag_tagOfOrder c.order⟩) hm hpos.ne'
  exact ⟨_, exec_rawConvert_of_some ho ⟨hacc, hcap, hcount⟩ hquantum, rendered_renderFrom hholds hfits _⟩

/-- Settles O53: both operations go by `baseTime`, and the quantum in A0 is the one RAW.CONVERT renders at. -/
theorem convertIsBasetimeThenRender : Obligations.ConvertIsBasetimeThenRender := by
  refine fun s acc hfault => ⟨unwrittenOperandFaults _ s, fun n dl hwritten ha1 ha2 => ?_⟩
  have hread : s.operandsConvert.isSome = true := by simpa [operandsWritten, and_assoc] using hwritten
  obtain ⟨o, ho⟩ := Option.isSome_iff_exists.1 hread
  obtain ⟨ht, hfc, hregisters⟩ := (operandsConvert_eq_some s o).1 ho
  obtain ⟨hcount, hdl⟩ := (operands12_eq_some s _).1 hregisters
  obtain rfl : n = o.count := Option.some.inj (ha1.symm.trans hcount)
  obtain rfl : dl = o.dataLen := Option.some.inj (ha2.symm.trans hdl)
  refine ⟨exec_rawConvert_of_reserved ho, fun u hlegal hu => ?_⟩
  obtain ⟨hacc, hcap, hcount⟩ := id hlegal
  cases hbase : baseTime acc.toNat o.tag o.pulses with
  | none =>
    cases (exec_rawBasetime_of_none ht hacc hbase).symm.trans hu
    exact ⟨fun _ => exec_rawConvert_of_none ho hlegal hbase, fun _ hok => by cases hok⟩
  | some base =>
    cases (exec_rawBasetime_of_some ht hacc hbase).symm.trans hu
    refine ⟨fun hunsupported => (by cases hunsupported), fun t _ hrender => ?_⟩
    have hle : base ≤ 0xFFFF := baseTime_le ht hbase
    have hword : (BitVec.ofNat 32 base).toNat = base := by
      rw [BitVec.toNat_ofNat]
      omega
    set s' : State := { s with a0 := some (BitVec.ofNat 32 base) }
    have ho' : s'.operandsRender
        = some ⟨o.tag, o.pulses, o.fcount, BitVec.ofNat 32 base, o.count, o.dataLen⟩ :=
      (operandsRender_eq_some ..).2 ⟨ht, hfc, (operands012_eq_some ..).2 ⟨rfl, ha1, ha2⟩⟩
    have hend := Host.Outcome.next.inj ((exec_rawRender ho' ⟨hcap, hcount, hword.trans_le hle⟩).symm.trans hrender)
    rw [hword] at hend
    rw [exec_rawConvert_of_some ho hlegal hbase, renderFrom_eq_of_withBase hfault hend, complete_res0]

end Sys2Proof.Proofs
end

section
/-! PROOFS. The statements of the family 45_replay_store.md: ST.LOAD and ST.STORE on every path (R226 to R229), and the
independence of the records (R232). -/

namespace Sys2Proof.Proofs

open Sys2Proof Sys2Proof.Machine Sys2Proof.Laws

/-! ### The namespace operand and a medium that refuses -/

/-- The NS value of a protocol names it (30_encoding.md R92). -/
theorem ofId_of_id_eq {ns : BitVec 4} {p : Protocol} (h : p.id = ns.toNat) : Protocol.ofId ns = some p := by
  have hns : ns = BitVec.ofNat 4 p.id := by simp [h]
  rw [hns, ofId_id]

theorem storeReadValue_of_failure {s : State} (h : s.nextAnswer = false) (key : StoreKey) :
    s.storeReadValue key = none := by
  simp [State.storeReadValue, h]

/-- ST.LOAD on a medium that refuses the read changes no record (45_replay_store.md R226, R228). -/
theorem exec_stLoad_of_failure {ns : BitVec 4} {s : State} {r d : Word} (hns : ns.toNat ≤ 8) (h0 : s.a0 = some r)
    (h1 : s.a1 = some d) (hread : s.nextAnswer = false) :
    exec (.stLoad ns) s = .next (complete .storeUnavailable s.takeAnswer) := by
  obtain ⟨p, hp⟩ := exists_protocol_of_le ns hns
  have hoperands : s.operands01 = some (r, d) := (operands01_eq_some s _).2 ⟨h0, h1⟩
  simp [exec, execStLoad, stLoad, hoperands, hp, storeReadValue_of_failure hread, afterStoreRead_of_failure hread]

/-- ST.STORE of a legal value on a medium that refuses the write changes no record (45_replay_store.md R227, R229). -/
theorem exec_stStore_of_failure {ns : BitVec 4} {s : State} {r d v : Word} (hns : ns.toNat ≤ 8) (h0 : s.a0 = some r)
    (h1 : s.a1 = some d) (h2 : s.a2 = some v) (hv : v.toNat ≤ 0xFFFF) (hwrite : s.nextAnswer = false) :
    exec (.stStore ns) s = .next (complete .storeUnavailable s.takeAnswer) := by
  obtain ⟨p, hp⟩ := exists_protocol_of_le ns hns
  have hoperands : s.operands012 = some (r, d, v) := (operands012_eq_some s _).2 ⟨h0, h1, h2⟩
  simp [exec, execStStore, stStore, hoperands, hp, Nat.not_lt.2 hv, hwrite, afterStoreWrite_of_failure hwrite]

/-! ### The two operations on every path -/

/-- Settles O54: the operand reads, the check of NS and the medium's answer are each the end or the way to the next. -/
theorem loadReadsTheRecord : Obligations.LoadReadsTheRecord := by
  refine fun ns s => ⟨fun hunwritten => ?_, fun r d h0 h1 => ⟨fun hns => ?_, fun hns hread => ?_, fun p hp hread => ?_⟩⟩
  · refine unwrittenOperandFaults (.stLoad ns) s ?_
    obtain h | h := hunwritten <;> simp [operandsWritten, h]
  · exact reservedOperandsEndIllegalOperation (.stLoad ns) s (by simp [operandsWritten, h0, h1]) (decide_eq_true hns)
  · exact exec_stLoad_of_failure hns h0 h1 hread
  · have hexec := exec_stLoad_of_answer (ofId_of_id_eq hp) h0 h1 hread
    rw [afterStoreRead_of_answer hread] at hexec
    exact ⟨_, _, hexec, rfl, rfl, find_touch s.store ⟨p, r, d⟩⟩

/-- Settles O55: the operand reads, the check of NS and the value, and the medium's answer are each the end or the way
to the next. -/
theorem storeWritesTheRecord : Obligations.StoreWritesTheRecord := by
  refine fun ns s => ⟨fun hunwritten => ?_, fun r d v h0 h1 h2 =>
    ⟨fun hreserved => ?_, fun hns hv hwrite => ?_, fun p hp hv hwrite => ?_⟩⟩
  · refine unwrittenOperandFaults (.stStore ns) s ?_
    obtain h | h | h := hunwritten <;> simp [operandsWritten, h]
  · exact reservedOperandsEndIllegalOperation (.stStore ns) s (by simp [operandsWritten, h0, h1, h2])
      (by simpa [reservedOperand, h2] using hreserved)
  · exact exec_stStore_of_failure hns h0 h1 h2 hv hwrite
  · have hexec := exec_stStore_of_answer (ofId_of_id_eq hp) h0 h1 h2 hv hwrite
    rw [afterStoreWrite_of_answer hwrite] at hexec
    exact ⟨_, hexec, rfl, find_insert s.store ⟨p, r, d⟩ (v.setWidth 16)⟩

/-! ### The independence of the records -/

section
variable {s : State} {key k : StoreKey}

theorem find_afterStoreRead_of_ne (h : k ≠ key) :
    ReplayStore.find (s.afterStoreRead key).store k = ReplayStore.find s.store k := by
  rw [afterStoreRead_store]
  split
  · rw [find_touch, if_neg h]
  · rfl

theorem find_afterStoreWrite_of_ne (h : k ≠ key) (v : Half) :
    ReplayStore.find (s.afterStoreWrite key v).store k = ReplayStore.find s.store k := by
  rw [afterStoreWrite_store]
  split
  · rw [find_insert, if_neg h]
  · rfl

/-- The second half of a stateful FMT changes the record of its job's key alone (41_codec_common.md R136). -/
theorem find_fmtFinish_of_ne {j : FmtJob} (h : k ≠ j.key) :
    ReplayStore.find (fmtFinish j s).store k = ReplayStore.find s.store k := by
  have hwrite := find_afterStoreWrite_of_ne (s := s) h (rollNext j.codec j.value)
  obtain ⟨-, hend⟩ | ⟨-, hend⟩ := fmtFinish_cases j s
  · rw [hend, fmtEmit_store, hwrite]
  · rw [hend, complete_store, hwrite]

/-- The store step of a stateful FMT changes the record of its key alone (41_codec_common.md R136). -/
theorem find_fmtRolling_of_ne {codec : Rolling} {r d : Word} (h : k ≠ ⟨codec.protocol, r, d⟩) (cmd : Command)
    (dl : Word) : ReplayStore.find (fmtRolling codec cmd r d dl s).store k = ReplayStore.find s.store k := by
  have hread := find_afterStoreRead_of_ne (s := s) h
  obtain ⟨c, -, hend⟩ | ⟨-, -, hend⟩ | ⟨-, -, v, -, ⟨-, hend⟩ | ⟨-, hend⟩⟩ := fmtRolling_cases codec cmd r d dl s
  · rw [hend, complete_store]
  · rw [hend, complete_store, hread]
  · rw [hend, hread]
  · rw [hend, find_fmtFinish_of_ne h, hread]

theorem fmtFixed_store (p : Protocol) (cmd : Command) (dl : Word) (f : Frame) (s : State) :
    (fmtFixed p cmd dl f s).store = s.store := by
  obtain ⟨c, -, hend⟩ | ⟨-, hend⟩ := fmtFixed_cases p cmd dl f s
  · rw [hend, complete_store]
  · rw [hend, fmtEmit_store]

/-- An operation that faults on its operands changes no record; else its continuation decides. -/
theorem find_withOperands {α : Type} (o : Option α) (f : α → State)
    (h : ∀ x, o = some x → ReplayStore.find (f x).store k = ReplayStore.find s.store k) :
    ReplayStore.find (withOperands o s f).store k = ReplayStore.find s.store k := by
  obtain ⟨-, hend⟩ | ⟨x, hx, hend⟩ := withOperands_cases o s f
  · rw [hend, raiseFault_store]
  · rw [hend, h x hx]

/-- The store key's operands are the first two of three. -/
theorem operands01_of_operands012 {o : Word × Word × Word} (h : s.operands012 = some o) :
    s.operands01 = some (o.1, o.2.1) := by
  obtain ⟨h0, h1, -⟩ := (operands012_eq_some s o).1 h
  exact (operands01_eq_some s _).2 ⟨h0, h1⟩

/-- A stateful FMT names the protocol of its codec and its operands (41_codec_common.md R136). -/
theorem storeKeyOf_fmt_rolling {o : Word × Word × Word} (h : s.operands012 = some o) (codec : Rolling)
    (cmd : Command) : storeKeyOf s (.fmt codec.protocol cmd) = some ⟨codec.protocol, o.1, o.2.1⟩ := by
  cases codec <;> simp [Rolling.protocol, Instr.fmt, storeKeyOf, operands01_of_operands012 h]

/-- A stateful FMT changes the record it names alone (43_codecs_rolling.md R186, R192). -/
theorem find_withOperands_fmtRolling_of_ne {codec : Rolling} {cmd : Command}
    (hkey : storeKeyOf s (.fmt codec.protocol cmd) ≠ some k) :
    ReplayStore.find (withOperands s.operands012 s fun o => fmtRolling codec cmd o.1 o.2.1 o.2.2 s).store k
      = ReplayStore.find s.store k :=
  find_withOperands _ _ fun o ho =>
    find_fmtRolling_of_ne (fun h => hkey (by rw [h, storeKeyOf_fmt_rolling ho])) cmd o.2.2

/-- ST.LOAD changes the record it names alone (45_replay_store.md R228). -/
theorem find_stLoad_of_ne {ns : BitVec 4} (hkey : storeKeyOf s (.stLoad ns) ≠ some k) :
    ReplayStore.find (stLoad ns s).store k = ReplayStore.find s.store k := by
  refine find_withOperands _ _ fun o ho => ?_
  cases hns : Protocol.ofId ns with
  | none => rfl
  | some p =>
    have hne : k ≠ ⟨p, o.1, o.2⟩ := fun h => hkey (by simp [storeKeyOf, hns, ho, h])
    dsimp only
    split <;> exact find_afterStoreRead_of_ne hne

/-- ST.STORE changes the record it names alone (45_replay_store.md R229). -/
theorem find_stStore_of_ne {ns : BitVec 4} (hkey : storeKeyOf s (.stStore ns) ≠ some k) :
    ReplayStore.find (stStore ns s).store k = ReplayStore.find s.store k := by
  refine find_withOperands _ _ fun o ho => ?_
  cases hns : Protocol.ofId ns with
  | none => rfl
  | some p =>
    have hne : k ≠ ⟨p, o.1, o.2.1⟩ := fun h =>
      hkey (by simp [storeKeyOf, hns, operands01_of_operands012 ho, h])
    dsimp only
    split
    · rfl
    · exact find_afterStoreWrite_of_ne hne _

end

/-- Settles O57: the stateful FMT operations, ST.LOAD and ST.STORE reach one record each, that of the key they name;
every other operation leaves the store as it is. -/
theorem onlyTheNamedRecordChanges : Obligations.OnlyTheNamedRecordChanges := by
  refine ⟨fun i s t key hexec hkey => ?_, fun j s key hkey => find_fmtFinish_of_ne hkey⟩
  obtain ⟨-, -, -, -, -, -, -, -, hotherUnits⟩ := operationsWriteOnlyTheirResults i s t hexec
  cases i with
  | fmtOtax _ | fmtDio _ | fmtHomeeasy _ | fmtIdk _ | fmtSumtech _ | fmtAuchan _ | fmtAuchan2 _ =>
    cases hexec
    exact find_withOperands _ _ fun _ _ => by rw [fmtFixed_store]
  | fmtSomfy cmd =>
    cases hexec
    exact find_withOperands_fmtRolling_of_ne (codec := .somfy) hkey
  | fmtBlyss cmd =>
    cases hexec
    exact find_withOperands_fmtRolling_of_ne (codec := .blyss) hkey
  | stLoad ns =>
    cases hexec
    exact find_stLoad_of_ne hkey
  | stStore ns =>
    cases hexec
    exact find_stStore_of_ne hkey
  | descRead _ | bwLow _ | bwHigh _ | bwEdge _ _ | bwBits _ _ _ | rawBasetime _ | rawRender | rawConvert _ =>
    rw [(hotherUnits nofun nofun).1]

end Sys2Proof.Proofs
end

section
/-! PROOFS. The statements of the family 60_exceptions.md: the ends of an operation other than OK, with their causes
(R242, R245, R246), what an input does, the quiescence of a faulted block (R247), and that legal inputs never stop the
machine (R249). -/

namespace Sys2Proof.Proofs

open Sys2Proof Sys2Proof.Machine Sys2Proof.Laws

/-! ### Why an operation does not end OK -/

/-- The ends of an operation `i` on `s`, one constructor for each cause. `Effect` says what an end writes; `Ending`
says why it is not OK. -/
inductive Ending (i : Instr) (s : State) : State → Prop
  | ok (t : State) (hfault : t.fault = s.fault) (hstatus : t.status = .ok) : Ending i s t
  /-- A register the operation reads holds no value (10_state.md R22). -/
  | unwrittenOperand (hunwritten : operandsWritten s i = false) : Ending i s (raiseFault .unwrittenRead s)
  /-- A bit RAW.RENDER or RAW.CONVERT reads holds no value (44_raw_engine.md R211). -/
  | unwrittenSource (k : Nat) (hu : unitOf i = .raw) (hk : k < 8 * s.cfg.bufBytes)
      (hread : Memory.read s.buf0 k = none) : Ending i s (raiseFault .unwrittenRead s)
  /-- A BitWriter operation crosses the capacity (40_bitwriter.md R112). -/
  | outOfBounds (hu : unitOf i = .bitWriter) (hwritten : operandsWritten s i = true) :
      Ending i s (raiseFault .outOfBounds s)
  /-- A check before any store access fails (60_exceptions.md R243). -/
  | refused (c : Status) (hok : c ≠ .ok) (hstore : c ≠ .storeUnavailable) : Ending i s (complete c s)
  /-- The medium refuses the first store access (45_replay_store.md R226, R227). -/
  | accessFailed (key : StoreKey) (hkey : storeKeyOf s i = some key) :
      Ending i s (complete .storeUnavailable s.takeAnswer)
  /-- The medium answers the store read of a stateful FMT and refuses its store write (41_codec_common.md R136). -/
  | writeFailed (key : StoreKey) (hu : unitOf i = .format) (hkey : storeKeyOf s i = some key) :
      Ending i s (complete .storeUnavailable
        { s.takeAnswer.takeAnswer with store := ReplayStore.touch s.store key, pending := none })
  /-- A stateful FMT has not ended: it stands between its store accesses (20_memory.md R76). -/
  | split (t : State) (key : StoreKey) (hkey : storeKeyOf s i = some key) (hfault : t.fault = s.fault)
      (hpending : t.pending ≠ none) : Ending i s t

section Ending
variable {i : Instr} {s : State}

/-- The operand reads fault, or the operation ends as its continuation does. -/
theorem ending_withOperands {α : Type} {o : Option α} {k : α → State} (hread : o.isSome = operandsWritten s i)
    (h : ∀ x, o = some x → operandsWritten s i = true → Ending i s (k x)) : Ending i s (withOperands o s k) := by
  obtain ⟨rfl, hend⟩ | ⟨x, rfl, hend⟩ := withOperands_cases o s k
  · exact hend ▸ .unwrittenOperand hread.symm
  · exact hend ▸ h x rfl hread.symm

/-- The checks of a FMT do not ask the medium (41_codec_common.md R129). -/
theorem fmtRefusal_ne_storeUnavailable (c : Config) (p : Protocol) (cmd : Command) (dl : Word) :
    fmtRefusal c p cmd dl ≠ some .storeUnavailable := by
  unfold fmtRefusal
  split_ifs <;> simp

/-- A check of a FMT that fails (41_codec_common.md R129). -/
theorem ending_of_fmtRefusal {p : Protocol} {cmd : Command} {dl : Word} {c : Status}
    (hc : fmtRefusal s.cfg p cmd dl = some c) : Ending i s (complete c s) :=
  .refused c (fun h => fmtRefusal_ne_ok s.cfg p cmd dl (h ▸ hc))
    fun h => fmtRefusal_ne_storeUnavailable s.cfg p cmd dl (h ▸ hc)

theorem ending_fmtFixed (p : Protocol) (cmd : Command) (dl : Word) (f : Frame) :
    Ending i s (fmtFixed p cmd dl f s) := by
  obtain ⟨c, hc, hend⟩ | ⟨-, hend⟩ := fmtFixed_cases p cmd dl f s
  · exact hend ▸ ending_of_fmtRefusal hc
  · exact hend ▸ .ok _ rfl rfl

/-- The second half of a stateful FMT, run at once after an answered read. -/
theorem ending_fmtFinish (j : FmtJob) (hu : unitOf i = .format) (hkey : storeKeyOf s i = some j.key)
    (hread : s.nextAnswer = true) : Ending i s (fmtFinish j (s.afterStoreRead j.key)) := by
  obtain ⟨-, hend⟩ | ⟨hwrite, -⟩ := fmtFinish_cases j (s.afterStoreRead j.key)
  · exact hend ▸ .ok _ (by simp) rfl
  · rw [fmtFinish_of_failure j hwrite, afterStoreRead_of_answer hread, takeAnswer_withStore]
    exact .writeFailed j.key hu hkey

theorem ending_fmtRolling (codec : Rolling) (cmd : Command) (r d dl : Word) (hu : unitOf i = .format)
    (hkey : storeKeyOf s i = some ⟨codec.protocol, r, d⟩) : Ending i s (fmtRolling codec cmd r d dl s) := by
  obtain ⟨c, hc, hend⟩ | ⟨hchecks, hread, -⟩ | ⟨-, hread, v, -, ⟨-, hend⟩ | ⟨-, hend⟩⟩ :=
    fmtRolling_cases codec cmd r d dl s
  · exact hend ▸ ending_of_fmtRefusal hc
  · exact fmtRolling_of_readFailure hchecks hread ▸ .accessFailed _ hkey
  · exact hend ▸ .split _ _ hkey (by simp) (by simp)
  · exact hend ▸ ending_fmtFinish ⟨codec, cmd, r, d, v⟩ hu hkey hread

theorem ending_bwWrite (b : BufSel) (off total : Nat) (f : Frame) (hu : unitOf i = .bitWriter)
    (hwritten : operandsWritten s i = true) : Ending i s (bwWrite b off total f s) := by
  obtain ⟨-, hend⟩ | ⟨-, hend⟩ := bwWrite_cases b off total f s
  · exact hend ▸ .outOfBounds hu hwritten
  · exact hend ▸ .ok _ (by simp) rfl

/-- A rendering reads the first `n` bits of BUF0 (44_raw_engine.md R211). -/
theorem ending_renderFrom (tag : BitVec 2) (t : Pulses) (fc : Half) (base n dl : Nat) (res0 : Word)
    (hu : unitOf i = .raw) (hn : n ≤ 8 * s.cfg.bufBytes) : Ending i s (renderFrom tag t fc base n dl res0 s) := by
  obtain ⟨-, hend⟩ | ⟨o, -, -, -, ⟨hread, hend⟩ | ⟨f, -, ⟨-, hend⟩ | ⟨-, -, hend⟩⟩⟩ :=
    renderFrom_cases tag t fc base n dl res0 s
  · exact hend ▸ .refused _ (by decide) (by decide)
  · obtain ⟨k, hk, hbit⟩ := (readRun_eq_none s.buf0 0 n).1 hread
    rw [Nat.zero_add] at hbit
    exact hend ▸ .unwrittenSource k hu (by omega) hbit
  · exact hend ▸ .refused _ (by decide) (by decide)
  · exact hend ▸ .ok _ rfl rfl

end Ending

theorem ending_descRead (sel : BitVec 4) (s : State) : Ending (.descRead sel) s (descRead sel s) := by
  unfold descRead
  split
  · exact .refused _ (by decide) (by decide)
  · exact .ok _ rfl rfl

theorem ending_bwBits (b : BufSel) (oo zo : Order) (s : State) :
    Ending (.bwBits b oo zo) s (bwBits b oo zo s) := by
  refine ending_withOperands (operandsBits_isSome s) fun o _ hwritten => ?_
  split
  · exact .refused _ (by decide) (by decide)
  · exact ending_bwWrite b _ _ _ rfl hwritten

theorem ending_rawBasetime (acc : Byte) (s : State) : Ending (.rawBasetime acc) s (rawBasetime acc s) := by
  refine ending_withOperands (durations_isSome s.tcfg) fun t _ _ => ?_
  split
  · exact .refused _ (by decide) (by decide)
  · split
    · exact .refused _ (by decide) (by decide)
    · exact .ok _ rfl rfl

theorem ending_rawRender (s : State) : Ending .rawRender s (rawRender s) := by
  refine ending_withOperands (by simp [operandsWritten, Bool.and_assoc]) fun o _ _ => ?_
  split
  · exact .refused _ (by decide) (by decide)
  · next hlegal => exact ending_renderFrom _ _ _ _ _ _ _ rfl (by omega)

theorem ending_rawConvert (acc : Byte) (s : State) : Ending (.rawConvert acc) s (rawConvert acc s) := by
  refine ending_withOperands (by simp [operandsWritten, Bool.and_assoc]) fun o _ _ => ?_
  split
  · exact .refused _ (by decide) (by decide)
  · next hlegal =>
    split
    · exact .refused _ (by decide) (by decide)
    · exact ending_renderFrom _ _ _ _ _ _ _ rfl (by omega)

theorem ending_stLoad (ns : BitVec 4) (s : State) : Ending (.stLoad ns) s (stLoad ns s) := by
  refine ending_withOperands (operands01_isSome s) fun o ho _ => ?_
  cases hns : Protocol.ofId ns with
  | none => exact .refused _ (by decide) (by decide)
  | some p =>
    cases hread : s.nextAnswer with
    | true =>
      simp only [storeReadValue_of_answer hread]
      exact .ok _ (by simp) rfl
    | false =>
      simp only [storeReadValue_of_failure hread, afterStoreRead_of_failure hread]
      exact .accessFailed ⟨p, o.1, o.2⟩ (by simp [storeKeyOf, hns, ho])

theorem ending_stStore (ns : BitVec 4) (s : State) : Ending (.stStore ns) s (stStore ns s) := by
  refine ending_withOperands (operands012_isSome s) fun o ho _ => ?_
  cases hns : Protocol.ofId ns with
  | none => exact .refused _ (by decide) (by decide)
  | some p =>
    dsimp only
    split
    · exact .refused _ (by decide) (by decide)
    · cases hwrite : s.nextAnswer with
      | true => exact .ok _ (by simp) rfl
      | false =>
        rw [afterStoreWrite_of_failure hwrite]
        exact .accessFailed ⟨p, o.1, o.2.1⟩ (by simp [storeKeyOf, hns, operands01_of_operands012 ho])

/-- An operation that answers a next state ended in one of the listed ways (60_exceptions.md R243). -/
theorem ending_of_exec {i : Instr} {s t : State} (hexec : exec i s = .next t) : Ending i s t := by
  cases i with
  | fmtOtax _ | fmtDio _ | fmtHomeeasy _ | fmtSumtech _ | fmtAuchan _ | fmtAuchan2 _ =>
    cases hexec
    exact ending_withOperands (operands012_isSome s) fun _ _ _ => ending_fmtFixed _ _ _ _
  | fmtIdk _ =>
    cases hexec
    exact ending_withOperands (operands12_isSome s) fun _ _ _ => ending_fmtFixed _ _ _ _
  | fmtSomfy cmd =>
    cases hexec
    exact ending_withOperands (operands012_isSome s) fun _ ho _ =>
      ending_fmtRolling .somfy cmd _ _ _ rfl (storeKeyOf_fmt_rolling ho .somfy cmd)
  | fmtBlyss cmd =>
    cases hexec
    exact ending_withOperands (operands012_isSome s) fun _ ho _ =>
      ending_fmtRolling .blyss cmd _ _ _ rfl (storeKeyOf_fmt_rolling ho .blyss cmd)
  | descRead sel => cases hexec; exact ending_descRead sel s
  | bwLow b | bwHigh b =>
    cases hexec
    exact ending_withOperands (operands01_isSome s) fun _ _ hwritten => ending_bwWrite b _ _ _ rfl hwritten
  | bwEdge b _ =>
    cases hexec
    exact ending_withOperands (operands012_isSome s) fun _ _ hwritten => ending_bwWrite b _ _ _ rfl hwritten
  | bwBits b oo zo => cases hexec; exact ending_bwBits b oo zo s
  | rawBasetime acc => cases hexec; exact ending_rawBasetime acc s
  | rawRender => cases hexec; exact ending_rawRender s
  | rawConvert acc => cases hexec; exact ending_rawConvert acc s
  | stLoad ns => cases hexec; exact ending_stLoad ns s
  | stStore ns => cases hexec; exact ending_stStore ns s

/-! ### Faults -/

/-- Settles O22: the ends in a fault are the three that raise one, each with its cause. -/
theorem faultEntryIsPrecise : Obligations.FaultEntryIsPrecise := by
  intro i s t r hexec hunfaulted hfault
  cases ending_of_exec hexec with
  | unwrittenOperand hunwritten =>
    cases hfault
    exact ⟨rfl, rfl, fun _ => .inl hunwritten, nofun⟩
  | unwrittenSource k hu hk hread =>
    cases hfault
    exact ⟨rfl, rfl, fun _ => .inr ⟨hu, k, hk, hread⟩, nofun⟩
  | outOfBounds hu hwritten =>
    cases hfault
    exact ⟨rfl, rfl, nofun, fun _ => ⟨hu, hwritten⟩⟩
  | ok t hsame hstatus => simp [hsame, hunfaulted] at hfault
  | split t key hkey hsame hpending => simp [hsame, hunfaulted] at hfault
  | refused _ _ _ | accessFailed _ _ | writeFailed _ _ _ => simp [hunfaulted] at hfault

/-! ### Error statuses -/

/-- Asking the medium changes its record of answers and nothing else (10_state.md R39). -/
theorem takeAnswer_eq (s : State) :
    s.takeAnswer = { s with answers := s.takeAnswer.answers, draws := s.takeAnswer.draws } := by
  unfold State.takeAnswer
  split <;> rfl

/-- A store read leaves each record, or creates the one it asks for with 0 (45_replay_store.md R226). -/
theorem find_touch_cases (m : ReplayStore) (key k : StoreKey) :
    ReplayStore.find (ReplayStore.touch m key) k = ReplayStore.find m k
      ∨ (k = key ∧ ReplayStore.find m k = none ∧ ReplayStore.find (ReplayStore.touch m key) k = some 0) := by
  rw [find_touch_getD]
  split
  · next hkey => cases hrecord : ReplayStore.find m k <;> simp [hkey]
  · exact .inl rfl

/-- Settles O23: an error ends on the old state, after the medium was asked once, or after the answered read and the
refused write of a stateful FMT. -/
theorem errorStatusWritesNothingElse : Obligations.ErrorStatusWritesNothingElse := by
  refine ⟨fun i s t hexec hbefore hafter hfault hstatus => ?operation, fun s j hwrite => fmtFinish_of_failure j hwrite⟩
  cases ending_of_exec hexec with
  | ok t hsame hok => exact absurd hok hstatus
  | unwrittenOperand _ | unwrittenSource _ _ _ _ | outOfBounds _ _ => cases hfault
  | split t key hkey hsame hpending => exact absurd hafter hpending
  | refused c hok hstore => exact ⟨rfl, fun _ => .inl rfl⟩
  | accessFailed key hkey =>
    refine ⟨?_, fun k => .inl (by simp)⟩
    rw [takeAnswer_eq s]
    rfl
  | writeFailed key hu hkey =>
    refine ⟨?_, fun k => (find_touch_cases s.store key k).imp_right ?_⟩
    · rw [takeAnswer_eq s.takeAnswer, takeAnswer_eq s, complete, ← hbefore]
    · rintro ⟨rfl, habsent, hcreated⟩
      exact ⟨hu, hkey, habsent, hcreated⟩

/-! ### The medium -/

/-- A FMT without the store faults on its operands, fails a check, or writes its frame (41_codec_common.md R129). -/
theorem exec_fmt_stateless_cases {p : Protocol} {cmd : Command} {s t : State} (hp : statelessCodec p = true)
    (hexec : exec (Instr.fmt p cmd) s = .next t) :
    t = raiseFault .unwrittenRead s ∨ (∃ c, t = complete c s) ∨ ∃ f, t = fmtEmit p f s := by
  cases hwritten : operandsWritten s (Instr.fmt p cmd) with
  | false =>
    cases hexec.symm.trans (unwrittenOperandFaults _ s hwritten)
    exact .inl rfl
  | true =>
    obtain ⟨r, d, dl, h0, h1, h2⟩ := operandsWritten_fmt.1 hwritten
    cases hexec.symm.trans (exec_fmt_stateless hp cmd h0 h1 h2)
    obtain ⟨c, -, hend⟩ | ⟨-, hend⟩ := fmtFixed_cases p cmd dl (fixedFrame s.cfg p r d cmd) s
    · exact .inr (.inl ⟨c, hend⟩)
    · exact .inr (.inr ⟨_, hend⟩)

/-- Only FMT.SOMFY, FMT.BLYSS, ST.LOAD and ST.STORE name a record (41_codec_common.md R136, 45_replay_store.md R228,
R229). -/
theorem storeOperation_of_storeKeyOf {i : Instr} {s : State} {key : StoreKey} (h : storeKeyOf s i = some key) :
    (∃ cmd, i = .fmtSomfy cmd) ∨ (∃ cmd, i = .fmtBlyss cmd) ∨ (∃ ns, i = .stLoad ns) ∨ ∃ ns, i = .stStore ns := by
  cases i with
  | fmtSomfy cmd => exact .inl ⟨cmd, rfl⟩
  | fmtBlyss cmd => exact .inr (.inl ⟨cmd, rfl⟩)
  | stLoad ns => exact .inr (.inr (.inl ⟨ns, rfl⟩))
  | stStore ns => exact .inr (.inr (.inr ⟨ns, rfl⟩))
  | fmtOtax _ | fmtDio _ | fmtHomeeasy _ | fmtIdk _ | fmtSumtech _ | fmtAuchan _ | fmtAuchan2 _ | descRead _
  | bwLow _ | bwHigh _ | bwEdge _ _ | bwBits _ _ _ | rawBasetime _ | rawRender | rawConvert _ => cases h

/-- Settles O39: none of the three ends of a stateless FMT touches the store, and an operation that ends
STORE_UNAVAILABLE names a record. -/
theorem statelessFormatsIgnoreTheStore : Obligations.StatelessFormatsIgnoreTheStore := by
  refine ⟨fun p cmd s t hp hexec => ?stateless, fun i s t hexec hfault hstatus => ?unavailable⟩
  case stateless =>
    obtain rfl | ⟨c, rfl⟩ | ⟨f, rfl⟩ := exec_fmt_stateless_cases hp hexec <;> exact ⟨rfl, rfl, rfl, rfl⟩
  case unavailable =>
    cases ending_of_exec hexec with
    | ok t hsame hok => cases hok.symm.trans hstatus
    | unwrittenOperand _ | unwrittenSource _ _ _ _ | outOfBounds _ _ => cases hfault
    | refused c hok hstore => exact absurd hstatus hstore
    | accessFailed key hkey => exact storeOperation_of_storeKeyOf hkey
    | writeFailed key hu hkey => exact storeOperation_of_storeKeyOf hkey
    | split t key hkey hsame hpending => exact storeOperation_of_storeKeyOf hkey

/-! ### What an input does -/

/-- What the input `i`, once served, makes of `s`: one constructor for each thing an input can do. Of the input itself
it keeps only whether it is RESET. -/
inductive Served (i : Input) (s : State) : State → Prop
  /-- A register write, OPW's on a faulted block among them (10_state.md R40, 60_exceptions.md R247). -/
  | register (r : HostReg) (v : Word) : Served i s (writeReg r v s)
  /-- A reserved encoding written to OPW (30_encoding.md R96). -/
  | reservedWord (v : Word) (hunfaulted : s.fault = none) :
      Served i s (complete .illegalOperation (writeReg .opw v s))
  /-- An operation word written to OPW (10_state.md R25). -/
  | operation (v : Word) (op : Instr) (t : State) (hunfaulted : s.fault = none)
      (hexec : exec op (writeReg .opw v s) = .next t) : Served i s t
  | bufferByte (b : BufSel) (m : Memory) : Served i s (s.withBuffer b m)
  | read (target : Target) : Served i s (hostRead target s)
  | reset (hi : i = .reset) : Served i s (resetBlock s)
  /-- Another writer's access, or the erasure of the medium (20_memory.md R76). -/
  | medium (m : ReplayStore) : Served i s { s with store := m }
  /-- A write at a reserved offset, or an idle input (10_state.md R40). -/
  | nothing : Served i s s

theorem served_startOperation {i : Input} {s t : State} {v : Word} (h : startOperation v s = .next t) :
    Served i s t := by
  obtain ⟨-, hend⟩ | ⟨hunfaulted, why, -, hend⟩ | ⟨hunfaulted, op, -, hend⟩ := startOperation_cases v s
  · cases hend.symm.trans h
    exact .register .opw v
  · cases hend.symm.trans h
    exact .reservedWord v (by simpa [State.faulted] using hunfaulted)
  · exact .operation v op t (by simpa [State.faulted] using hunfaulted) (hend.symm.trans h)

theorem served_hostWrite {i : Input} {s t : State} {target : Target} {v : Word}
    (h : hostWrite target v s = .next t) : Served i s t := by
  cases target with
  | register r =>
    by_cases hopw : r = .opw
    · exact served_startOperation (by simpa [hostWrite, hopw] using h)
    · cases (if_neg hopw).symm.trans h
      exact .register r v
  | bufferByte b j =>
    cases h
    exact .bufferByte b _
  | reservedOffset =>
    cases h
    exact .nothing

/-- An input that answers a next state did one of the listed things. -/
theorem served_of_act {i : Input} {s t : State} (hact : act i s = .next t) : Served i s t := by
  cases i with
  | write w offset v =>
    simp only [act] at hact
    split at hact
    · cases hact
    · exact served_hostWrite hact
  | read w offset =>
    simp only [act] at hact
    split at hact
    · cases hact
    · cases hact
      exact .read _
  | reset => cases hact; exact .reset rfl
  | otherWrite key v =>
    simp only [act] at hact
    split at hact
    · cases hact
      exact .medium _
    · cases hact
  | eraseMedium => cases hact; exact .medium _
  | idle => cases hact; exact .nothing

/-- The input served next is the first of the inbox. -/
theorem inbox_of_nextInput {s : State} {i : Input} {rest : List Input} (h : nextInput s = some (i, rest)) :
    s.inbox = i :: rest := by
  unfold nextInput at h
  split at h
  · cases h
  · next hinbox =>
    split at h
    · cases h
      exact hinbox
    · split at h <;> cases h
      exact hinbox

/-! ### The quiescence of a faulted block -/

/-- FAULT, STATUS, BITCNT, RTCFG and the result registers of `t` are those of `s`. -/
def KeepsResults (s t : State) : Prop :=
  t.fault = s.fault ∧ t.status = s.status ∧ t.bitcnt = s.bitcnt ∧ t.rtcfg = s.rtcfg
    ∧ t.res0 = s.res0 ∧ t.res1 = s.res1 ∧ t.res2 = s.res2

/-- On a faulted block no input but RESET writes what an operation writes (60_exceptions.md R247). -/
theorem keepsResults_of_served {i : Input} {s t : State} (hfault : s.fault ≠ none) (h : Served i s t) :
    i = .reset ∨ KeepsResults s t := by
  cases h with
  | reset hi => exact .inl hi
  | reservedWord v hunfaulted => exact absurd hunfaulted hfault
  | operation v op t hunfaulted hexec => exact absurd hunfaulted hfault
  | register _ _ | bufferByte _ _ | read _ | medium _ | nothing => exact .inr (by simp [KeepsResults])

/-- A faulted block stores an OPW write and starts nothing (60_exceptions.md R247). -/
theorem step_issueWord_of_faulted {s : State} {v : Word} {rest : List Input} (hwf : s.cfg.wf = true)
    (hfault : s.fault ≠ none) (hpending : s.pending = none) (hinbox : s.inbox = issueWord v :: rest) :
    step s = .next { s with inbox := rest, opw := v.setWidth 16 } := by
  have hfaulted : s.fault.isSome = true := Option.isSome_iff_ne_none.2 hfault
  calc step s
      = act (issueWord v) { s with inbox := rest } := step_input s _ rest hwf hpending hinbox
    _ = startOperation v { s with inbox := rest } := act_issueWord _ v hwf
    _ = .next { s with inbox := rest, opw := v.setWidth 16 } := by
      simp [startOperation, State.faulted, hfaulted]

/-- Settles O8: the OPW write is a register write, and with no FMT split every other step serves an input or is
idle. -/
theorem faultedBlockStaysQuiescent : Obligations.FaultedBlockStaysQuiescent := by
  refine ⟨fun s v rest hwf hfault hpending hinbox =>
    ⟨_, step_issueWord_of_faulted hwf hfault hpending hinbox, fun hv => ?_⟩, fun s t hfault hpending hstep => ?_⟩
  · simpa using Nat.mod_eq_of_lt hv
  · obtain ⟨-, ⟨i, rest, hnext, hact⟩ | ⟨-, j, hj, -⟩ | ⟨-, -, rfl⟩⟩ := step_cases s t hstep
    · have hkeeps := keepsResults_of_served (s := { s with inbox := rest }) hfault (served_of_act hact)
      refine hkeeps.imp_left fun hreset => ⟨rest, ?_⟩
      rw [inbox_of_nextInput hnext, hreset]
    · cases hpending.symm.trans hj
    · exact .inr ⟨rfl, rfl, rfl, rfl, rfl, rfl, rfl⟩

/-! ### Legal inputs -/

/-- A machine with a parameter set that passes the check and legal inputs alone (20_memory.md R65). -/
structure LegallyDriven (s : State) : Prop where
  cfg : s.cfg.wf = true
  inbox : ∀ i ∈ s.inbox, i.legal s.cfg = true

/-- It stays so while the parameters stay and inputs are only taken. -/
theorem LegallyDriven.mono {s t : State} (h : LegallyDriven s) (hcfg : t.cfg = s.cfg)
    (hinbox : t.inbox <:+ s.inbox) : LegallyDriven t where
  cfg := hcfg ▸ h.cfg
  inbox i hi := hcfg ▸ h.inbox i (hinbox.subset hi)

/-- A legal input answers a next state. -/
theorem act_answers {i : Input} {s : State} (h : i.legal s.cfg = true) : ∃ t, act i s = .next t := by
  cases i with
  | write w offset v =>
    obtain ⟨target, htarget⟩ := Option.isSome_iff_exists.1 h
    simpa [act, htarget] using hostWrite_answers target v s
  | read w offset =>
    obtain ⟨target, htarget⟩ := Option.isSome_iff_exists.1 h
    exact ⟨hostRead target s, by simp [act, htarget]⟩
  | otherWrite key v => exact ⟨_, if_pos h⟩
  | reset | eraseMedium | idle => exact ⟨_, rfl⟩

/-- Nothing an input does reaches the parameters or the inputs after it (00_scope.md R8, 10_state.md R21). -/
theorem served_keeps_cfg_inbox {i : Input} {s t : State} (h : Served i s t) :
    t.cfg = s.cfg ∧ t.inbox = s.inbox := by
  cases h with
  | operation v op t hunfaulted hexec =>
    obtain ⟨⟨-, -, -, -, -, -, -, -, hcfg, hinbox, -⟩, -⟩ := operationsWriteOnlyTheirResults _ _ _ hexec
    simp [hcfg, hinbox]
  | register _ _ | reservedWord _ _ | bufferByte _ _ | read _ | reset _ | medium _ | nothing => simp

theorem fmtFinish_keeps_cfg_inbox (j : FmtJob) (s : State) :
    (fmtFinish j s).cfg = s.cfg ∧ (fmtFinish j s).inbox = s.inbox := by
  obtain ⟨-, hend⟩ | ⟨-, hend⟩ := fmtFinish_cases j s <;> simp [hend]

/-- A step from a legally driven machine answers a next state. -/
theorem LegallyDriven.step_answers {s : State} (h : LegallyDriven s) : ∃ t, step s = .next t := by
  rw [step, if_pos h.cfg, move]
  cases hnext : nextInput s with
  | some served =>
    obtain ⟨i, rest⟩ := served
    have hmem : i ∈ s.inbox := by simp [inbox_of_nextInput hnext]
    exact act_answers (h.inbox i hmem)
  | none => cases hpending : s.pending <;> exact ⟨_, rfl⟩

/-- A step keeps the machine legally driven. -/
theorem LegallyDriven.of_step {s t : State} (h : LegallyDriven s) (hstep : step s = .next t) :
    LegallyDriven t := by
  obtain ⟨-, ⟨i, rest, hnext, hact⟩ | ⟨-, j, -, rfl⟩ | ⟨-, -, rfl⟩⟩ := step_cases s t hstep
  · obtain ⟨hcfg, hinbox⟩ := served_keeps_cfg_inbox (served_of_act hact)
    refine h.mono hcfg ?_
    rw [hinbox, inbox_of_nextInput hnext]
    exact List.suffix_cons i rest
  · obtain ⟨hcfg, hinbox⟩ := fmtFinish_keeps_cfg_inbox j s
    exact h.mono hcfg (hinbox ▸ List.suffix_rfl)
  · exact h

/-- A legally driven machine answers a next state after any number of steps (70_reset_and_hazards.md R284). -/
theorem LegallyDriven.run_answers {s : State} (h : LegallyDriven s) (n : Nat) :
    ∃ t, Host.Core.run Sys2Proof.core n s = .next t := by
  induction n generalizing s with
  | zero => exact ⟨s, rfl⟩
  | succ n ih =>
    obtain ⟨u, hstep⟩ := h.step_answers
    simpa only [Host.Core.run, Sys2Proof.core, hstep] using ih (h.of_step hstep)

/-- Settles O12: a legally driven machine goes on at every step and stays legally driven. -/
theorem legalInputsNeverStopTheMachine : Obligations.LegalInputsNeverStopTheMachine :=
  fun n _ hcfg hinbox => LegallyDriven.run_answers ⟨hcfg, hinbox⟩ n

end Sys2Proof.Proofs
end

section
/-! PROOFS. The statements of the family 70_reset_and_hazards.md: what RESET sets, that it alone leaves the fault state
(R271, R272), and that the reset state satisfies the invariant. -/

namespace Sys2Proof.Proofs

open Sys2Proof Sys2Proof.Machine Sys2Proof.Laws

/-! ### RESET -/

/-- RESET as the next input between operations is `resetBlock`, on the inputs after it. -/
theorem step_reset {s : State} {rest : List Input} (hwf : s.cfg.wf = true) (hpending : s.pending = none)
    (hinbox : s.inbox = .reset :: rest) : step s = .next (resetBlock { s with inbox := rest }) :=
  step_input s .reset rest hwf hpending hinbox

@[simp] theorem resetBlock_statusWord (s : State) : (resetBlock s).statusWord = 0 := rfl

@[simp] theorem resetBlock_faultWord (s : State) : (resetBlock s).faultWord = 0 := rfl

/-! ### The way out of the fault state -/

/-- The second half of a split FMT ends in a STATUS and never writes FAULT (41_codec_common.md R129). -/
@[simp] theorem fmtFinish_fault (j : FmtJob) (s : State) : (fmtFinish j s).fault = s.fault := by
  obtain ⟨-, hend⟩ | ⟨-, hend⟩ := fmtFinish_cases j s <;> simp [hend]

/-- A step from a faulted state takes RESET or keeps FAULT, with a FMT split or not (60_exceptions.md R248). -/
theorem step_of_faulted_cases {s t : State} (hfault : s.fault ≠ none) (hstep : step s = .next t) :
    (∃ rest, s.inbox = .reset :: rest) ∨ t.fault = s.fault := by
  obtain ⟨-, ⟨i, rest, hnext, hact⟩ | ⟨-, j, -, rfl⟩ | ⟨-, -, rfl⟩⟩ := step_cases s t hstep
  · obtain rfl | ⟨hkept, -⟩ :=
      keepsResults_of_served (s := { s with inbox := rest }) hfault (served_of_act hact)
    · exact .inl ⟨rest, inbox_of_nextInput hnext⟩
    · exact .inr hkept
  · exact .inr (fmtFinish_fault j s)
  · exact .inr rfl

/-- Settles O9: the step is `resetBlock`, each piece of which is that of the reset state, and any other step from a
faulted state keeps FAULT. -/
theorem resetSetsTheTable : Obligations.ResetSetsTheTable := by
  refine ⟨fun s rest hwf hpending hinbox => ⟨_, step_reset hwf hpending hinbox, ?table⟩,
    fun s t hfault hcleared hstep => ?exit⟩
  case table => simp [State.reset, State.regWord, idWord, Memory.read]
  case exit =>
    refine (step_of_faulted_cases hfault hstep).resolve_right fun hkept => ?_
    exact hfault (hkept ▸ hcleared)

/-! ### The reset state -/

/-- The default parameters pass the configuration check, whatever the OPEN ones are (00_scope.md R8, R9). -/
theorem standard_wf : Config.standard.wf = true := by
  rw [cfg_wf_iff]
  simp [Config.standard, Config.somfyFirstLen, Config.somfyRepeatLen]

/-- Settles O10: the default parameters pass the check, buffers and store are empty, BITCNT is 0, RTCFG is unwritten,
and no FMT is split. -/
theorem invariantHoldsAtReset : Obligations.InvariantHoldsAtReset where
  cfg := standard_wf
  buf0 := reset_buffers_wf.1
  buf1 := reset_buffers_wf.2
  store := rfl
  bitcnt := Nat.zero_le _
  rtcfg := .inl rfl
  pending _ hj := nomatch hj

end Sys2Proof.Proofs
end
